-- ==== Sys2Proof/Word.lean ====
section
/-! DEFINITION. The widths of HCORE (spec/00_scope.md R19, R12, R14): a byte is 8 bits, a register and a command word
32 bits, a frequency or a length 64 bits, a node index 9 bits. -/

namespace Sys2Proof

/-- A byte of a stream, a byte value of the alphabet (R8, R19). -/
abbrev Byte := BitVec 8

/-- A host-visible register, a command word (R14, R15). -/
abbrev Word := BitVec 32

/-- A frequency, a length, a stream position (R12, R13, R42). -/
abbrev Dword := BitVec 64

/-- A node index (R19, R44). -/
abbrev NodeIdx := BitVec 9

end Sys2Proof
end

