-- ==== Sys2Proof/Syntax.lean ====
section
/-! DEFINITION. The commands of HCORE, one constructor per row of spec/opcode_table.json (spec/30_encoding.md R79), with
the operands of R77: a bit (class B), a byte (Y), a node index (X), a byte and a word index (C). -/

namespace Sys2Proof

/-- A command with its operands (R77, R79). -/
inductive Instr where
  | nop
  | encode
  | decode
  | clear
  | openStreams
  | seekIn
  | wrBit (bit : Bool)
  | wrByte (b : Byte)
  | wrI64
  | wrClose
  | rdBit
  | rdByte
  | rdI64
  | count
  | build
  | serTree
  | desTree
  | codes
  | encSym (b : Byte)
  | decSym
  | peekFreq (b : Byte)
  | peekNode (i : NodeIdx)
  | peekCode (b : Byte) (w : BitVec 2)
  deriving DecidableEq, Repr

end Sys2Proof
end

