-- ==== Sys2Proof/WellFormed.lean ====
section
/-! DEFINITION. Which commands a word can stand for. The operand types carry the widths of R77, so one condition is left:
a class X index is at most 510 (R77, R80). -/

namespace Sys2Proof

/-- R77: the operand values that are legal. -/
def Instr.wellFormed : Instr → Bool
  | .nop => true
  | .encode => true
  | .decode => true
  | .clear => true
  | .openStreams => true
  | .seekIn => true
  | .wrBit _ => true
  | .wrByte _ => true
  | .wrI64 => true
  | .wrClose => true
  | .rdBit => true
  | .rdByte => true
  | .rdI64 => true
  | .count => true
  | .build => true
  | .serTree => true
  | .desTree => true
  | .codes => true
  | .encSym _ => true
  | .decSym => true
  | .peekFreq _ => true
  | .peekNode i => decide (i ≤ 510#9)
  | .peekCode _ _ => true

/-- A command that some word encodes. -/
abbrev Instr.WellFormed (i : Instr) : Prop := i.wellFormed = true

end Sys2Proof
end

