-- ==== Sys2Proof/Decode.lean ====
section
/-! DEFINITION. Command words (spec/30_encoding.md): the decoder of R82, total on every 32-bit word and rejecting by name,
and after it the encoder of R76. -/

namespace Sys2Proof

/-- Why a word is illegal (R83). All four raise ILLEGAL_COMMAND (R82). -/
inductive Illegal where
  /-- RSVD (bits 31:19) is not 0. -/
  | reserved
  /-- OPC is one of the 233 values outside the opcode map. -/
  | opcode
  /-- ARG breaks the condition of the opcode's class. -/
  | argument
  /-- SEL is not 0 in a class other than C. -/
  | select
  deriving DecidableEq, Repr

/-- The operand classes of R77, each with the command it makes of its operands. -/
inductive OpForm where
  | classN (i : Instr)
  | classB (f : Bool → Instr)
  | classY (f : Byte → Instr)
  | classX (f : NodeIdx → Instr)
  | classC (f : Byte → BitVec 2 → Instr)

/-- R76: bits 7:0. -/
def opcField (w : Word) : Byte := w.extractLsb' 0 8

/-- R76: bits 16:8. -/
def argField (w : Word) : BitVec 9 := w.extractLsb' 8 9

/-- R76: bits 18:17. -/
def selField (w : Word) : BitVec 2 := w.extractLsb' 17 2

/-- R76: bits 31:19. -/
def rsvdField (w : Word) : BitVec 13 := w.extractLsb' 19 13

/-- The opcode map of R79: opcode, class and command. -/
def opcodeMap : List (Byte × OpForm) := [
  (0x00#8, .classN .nop),
  (0x01#8, .classN .encode),
  (0x02#8, .classN .decode),
  (0x03#8, .classN .clear),
  (0x08#8, .classN .openStreams),
  (0x09#8, .classN .seekIn),
  (0x10#8, .classB .wrBit),
  (0x11#8, .classY .wrByte),
  (0x12#8, .classN .wrI64),
  (0x13#8, .classN .wrClose),
  (0x18#8, .classN .rdBit),
  (0x19#8, .classN .rdByte),
  (0x1A#8, .classN .rdI64),
  (0x20#8, .classN .count),
  (0x21#8, .classN .build),
  (0x28#8, .classN .serTree),
  (0x29#8, .classN .desTree),
  (0x30#8, .classN .codes),
  (0x31#8, .classY .encSym),
  (0x32#8, .classN .decSym),
  (0x38#8, .classY .peekFreq),
  (0x39#8, .classX .peekNode),
  (0x3A#8, .classC .peekCode)]

/-- The class of an opcode, if the map has it (R79). -/
def opForm (opc : Byte) : Option OpForm := opcodeMap.lookup opc

/-- R77, R78: the operand fields read by class, with each class's condition of legality. -/
def OpForm.operands (form : OpForm) (arg : BitVec 9) (sel : BitVec 2) : Except Illegal Instr :=
  match form with
  | .classN i =>
    if arg ≠ 0#9 then .error .argument else if sel ≠ 0#2 then .error .select else .ok i
  | .classB f =>
    if arg.extractLsb' 1 8 ≠ 0#8 then .error .argument
    else if sel ≠ 0#2 then .error .select else .ok (f (arg.getLsbD 0))
  | .classY f =>
    if arg.getLsbD 8 then .error .argument
    else if sel ≠ 0#2 then .error .select else .ok (f (arg.setWidth 8))
  | .classX f =>
    if 510#9 < arg then .error .argument else if sel ≠ 0#2 then .error .select else .ok (f arg)
  | .classC f =>
    if arg.getLsbD 8 then .error .argument else .ok (f (arg.setWidth 8) sel)

/-- R82: the command a word stands for, or why it stands for none. -/
def decode (w : Word) : Except Illegal Instr :=
  if rsvdField w ≠ 0#13 then .error .reserved
  else
    match opForm (opcField w) with
    | none => .error .opcode
    | some form => form.operands (argField w) (selField w)

/-- R76: the word of its fields, `{13'b0, SEL, ARG, OPC}`. -/
def assemble (opc : Byte) (arg : BitVec 9) (sel : BitVec 2) : Word := 0#13 ++ sel ++ arg ++ opc

/-- The word of a command (R76, R77, R79). The one ill-formed command, PEEK_NODE 511, gets the word R80 excludes. -/
def encode : Instr → Word
  | .nop => assemble 0x00#8 0#9 0#2
  | .encode => assemble 0x01#8 0#9 0#2
  | .decode => assemble 0x02#8 0#9 0#2
  | .clear => assemble 0x03#8 0#9 0#2
  | .openStreams => assemble 0x08#8 0#9 0#2
  | .seekIn => assemble 0x09#8 0#9 0#2
  | .wrBit bit => assemble 0x10#8 (if bit then 1#9 else 0#9) 0#2
  | .wrByte b => assemble 0x11#8 (b.setWidth 9) 0#2
  | .wrI64 => assemble 0x12#8 0#9 0#2
  | .wrClose => assemble 0x13#8 0#9 0#2
  | .rdBit => assemble 0x18#8 0#9 0#2
  | .rdByte => assemble 0x19#8 0#9 0#2
  | .rdI64 => assemble 0x1A#8 0#9 0#2
  | .count => assemble 0x20#8 0#9 0#2
  | .build => assemble 0x21#8 0#9 0#2
  | .serTree => assemble 0x28#8 0#9 0#2
  | .desTree => assemble 0x29#8 0#9 0#2
  | .codes => assemble 0x30#8 0#9 0#2
  | .encSym b => assemble 0x31#8 (b.setWidth 9) 0#2
  | .decSym => assemble 0x32#8 0#9 0#2
  | .peekFreq b => assemble 0x38#8 (b.setWidth 9) 0#2
  | .peekNode i => assemble 0x39#8 i 0#2
  | .peekCode b w => assemble 0x3A#8 (b.setWidth 9) w

/-- The command of an instruction of spec/opcode_table.json given as a number: bit 0 of w is bit 0 of the command word,
and every bit above nbits is 0. A command is one 32-bit word (R76, R84), so no row is longer. -/
def decodeTableWord (nbits w : Nat) : Option Instr :=
  if nbits ≤ 32 then (decode (BitVec.ofNat 32 (w % 2 ^ nbits))).toOption else none

end Sys2Proof
end

