-- ==== Sys2Proof/Config.lean ====
section
/-! DEFINITION. What is fixed for one HCORE: the parameters of spec/00_scope.md section 3 that have a value, the OPEN
parameter BASE, and the free values (constants with no body: nothing can be proved about what they are). -/

namespace Sys2Proof.Config

/-- R27: what register ID always reads. -/
def idValue : Word := 0x48554646#32

/-- R14: the register window is 256 bytes. -/
def regSpace : Nat := 256

/-- R13: the largest length HCORE encodes or decodes, 2^63 - 1. -/
def maxLen : Dword := 0x7FFFFFFFFFFFFFFF#64

/-- R18: entries of the walk stacks of SER_TREE, DES_TREE and CODES. -/
def stackDepth : Nat := 256

/-- R14, D2: the platform address of the register window, OPEN, a parameter of the model. DESIGN CHOICE (log 8): an
address is a natural number, since no rule gives the bus a width. -/
opaque base : Nat

/-- R29, U1: what a register reads while a command runs, a fresh value at every draw (log 7). -/
opaque freeRead : Nat → Word

/-- R158, U19: how far a command had come when reset abandoned it, counted in steps on OUT_DATA (log 11). -/
opaque freeProgress : Nat → Nat

end Sys2Proof.Config
end

