-- ==== Sys2Proof/Machine/State.lean ====
section
/-! DEFINITION. The state of HCORE (spec/10_state.md R24), with the streams and the actions of its host, as plain data; the
reasons a step can stop; the state after reset (spec/70_reset_and_hazards.md R158). -/

namespace Sys2Proof.Machine

/-- STATUS (R29 to R33). ERR, OUT_CLOSED and IN_SEEKABLE are views (log 18) that Machine/Flags.lean computes. -/
structure Status where
  /-- R29: a command is executing. -/
  busy : Bool
  /-- R30: the last issued command has completed. -/
  done : Bool
  /-- R32: the last command met end of input where it needed a byte. -/
  eof : Bool
  /-- R33: sticky, a host write was refused. -/
  overrun : Bool
  /-- R31: error code of the last completed command. -/
  errcode : BitVec 4
  deriving DecidableEq, Repr

/-- A slot of the node store (R45). -/
structure Node where
  valid : Bool
  internal : Bool
  freq : Dword
  left : NodeIdx
  right : NodeIdx
  parent : NodeIdx
  hasParent : Bool
  deriving DecidableEq, Repr

/-- R45: "An invalid slot has every field 0." -/
def Node.empty : Node :=
  { valid := false, internal := false, freq := 0#64, left := 0#9, right := 0#9, parent := 0#9, hasParent := false }

/-- The node store with ROOT, ROOT_VALID, NINT and NLEAF (R44, R46). Slot b below 256 is the leaf of byte b. -/
structure Tree where
  node : Vector Node 511
  root : NodeIdx
  rootValid : Bool
  nint : BitVec 8
  nleaf : BitVec 9
  deriving DecidableEq, Repr

/-- No tree (R46, R48): every field 0. -/
def Tree.empty : Tree :=
  { node := Vector.replicate 511 Node.empty, root := 0#9, rootValid := false, nint := 0#8, nleaf := 0#9 }

/-- The code table (R47). Bit i of an entry of `bits` is the i-th bit written. -/
structure Codes where
  len : Vector (BitVec 8) 256
  bits : Vector (BitVec 256) 256
  valid : Bool
  deriving DecidableEq, Repr

/-- No code table (R47, R48): every field 0. -/
def Codes.empty : Codes :=
  { len := Vector.replicate 256 0#8, bits := Vector.replicate 256 0#256, valid := false }

/-- The input port and the bit reader (R50, R51). IN_LEN is the length of `data`. -/
structure InPort where
  /-- IN_DATA, host-owned. -/
  data : List Byte
  /-- IN_SEEKABLE, host-driven. -/
  seekable : Bool
  /-- The counter of IN_POS (R42, R151); `InPort.position` is what IN_POS reads. -/
  pos : Dword
  rbuf : Byte
  rcnt : BitVec 3
  deriving DecidableEq, Repr

/-- The output port and the bit writer (R49, R51). -/
structure OutPort where
  /-- OUT_DATA, host-owned, appended to by the CORE. -/
  data : List Byte
  /-- OUT_CNT (R42). -/
  cnt : Dword
  /-- OUT_CLOSED. -/
  closed : Bool
  wbuf : Byte
  wcnt : BitVec 3
  deriving DecidableEq, Repr

/-- What the host can do (R161). A list of them is a run (R163), one interleaving with the CORE: an action that stands
where BUSY = 1 happens while the command runs, and `wait` lets the CORE finish first (log 2). -/
inductive HostAction where
  /-- H1 to H4, H7: a bus write of `size` bytes at bus address `addr`. -/
  | write (addr size : Nat) (v : Word)
  /-- H5, H6, H7: a bus read. -/
  | read (addr size : Nat)
  /-- R86 WAIT: poll STATUS until BUSY = 0; also time passing without an action. -/
  | wait
  /-- H8, R86 LOADIN: IN_DATA, IN_LEN and IN_SEEKABLE. -/
  | loadIn (bytes : List Byte) (seekable : Bool)
  /-- H10: copy OUT_DATA into host memory. -/
  | copyOut
  /-- H15: assert reset. -/
  | reset
  deriving DecidableEq, Repr

/-- The machine: all of R24, the streams of R51, and the host's side of a run. -/
structure State where
  /-- R28: the command latch. -/
  latch : Word
  status : Status
  /-- R36: DATA. -/
  data : Dword
  /-- R37: RESULT. -/
  result : Dword
  /-- R38: AUX. -/
  aux : Word
  /-- R39: LENGTH. -/
  length : Dword
  /-- R43: FREQ[0..255]. -/
  freq : Vector Dword 256
  tree : Tree
  codes : Codes
  inp : InPort
  out : OutPort
  /-- The MODEL's own: the host actions still to come, the next one first (R163, log 2). -/
  host : List HostAction
  /-- The MODEL's own: what the last bus read returned to the host (log 6). -/
  lastRead : Option Word
  /-- The MODEL's own: the host's last copy of OUT_DATA (log 6). -/
  hostCopy : List Byte
  /-- The MODEL's own: the draw the next free value is taken at (log 7, log 11). -/
  draws : Nat
  deriving DecidableEq, Repr

/-- Why the machine stops with no next state. None of them is an error of the spec: those end the command with an error
code and the machine goes on (R144). -/
inductive Fault where
  /-- Raised by SER_TREE, CODES, DEC_SYM, ENCODE and DECODE (and the reading of a tree, which never gets there) when a
  walk of the tree goes deeper than STACK_DEPTH. R18: "never overflows"; only a state that breaks R53 gets here. Safe:
  nothing is claimed of such a walk (log 12). -/
  | walkOverflow
  /-- Raised by the host action `loadIn` while BUSY = 1: duty H8 of R161 broken, "no move in the model". Safe (log 9). -/
  | loadWhileBusy
  /-- Raised by the host action `copyOut` while BUSY = 1: duty H10 of R161 broken. Safe (log 9). -/
  | copyWhileBusy
  deriving DecidableEq, Repr

/-- Why a step has no meaning in the model. -/
inductive Refusal where
  /-- Raised by exec's arms only, for an instruction without a meaning yet. Safe. -/
  | notModelled (mnemonic : String)
  /-- Raised by a bus access of a width other than 4 bytes (R55, H7: "a model refuses it"). Safe (log 10). -/
  | busAccessSize
  /-- Raised by a bus access at an offset that is no multiple of 4 (R55, H7). Safe (log 10). -/
  | busAccessMisaligned
  /-- Raised by a bus access outside the register window: only accesses inside it are defined (R55). Safe (log 10). -/
  | busAccessOutsideWindow
  deriving DecidableEq, Repr

/-- STATUS after reset (R158). -/
def Status.reset : Status := { busy := false, done := false, eof := false, overrun := false, errcode := 0#4 }

/-- R158: every value of the reset table. IN_DATA, IN_SEEKABLE and OUT_DATA are the host's and reset does not change
them; here they are empty, false and empty (DESIGN CHOICE, log 5); `host`, `lastRead`, `hostCopy` and `draws` are the
model's own (DESIGN CHOICE, log 6). -/
def State.reset : State :=
  { latch := 0#32
    status := Status.reset
    data := 0#64
    result := 0#64
    aux := 0#32
    length := 0#64
    freq := Vector.replicate 256 0#64
    tree := Tree.empty
    codes := Codes.empty
    inp := { data := [], seekable := false, pos := 0#64, rbuf := 0#8, rcnt := 0#3 }
    out := { data := [], cnt := 0#64, closed := false, wbuf := 0#8, wcnt := 0#3 }
    host := []
    lastRead := none
    hostCopy := []
    draws := 0 }

end Sys2Proof.Machine
end

