-- ==== Sys2Proof/Machine/Operands.lean ====
section
/-! DEFINITION. Reading and writing operands: the bits and bytes of a value (spec/20_memory.md R59, R60), the entries of
FREQ, NODE and the code table (spec/10_state.md R43 to R47), and the halves of 64-bit registers (R62). -/

namespace Sys2Proof.Machine

/-- R60: the bits of a value, least significant first. -/
def bitsOf {w : Nat} (v : BitVec w) : List Bool := (List.range w).map fun i => v.getLsbD i

/-- The number whose bits are given, least significant first. -/
def natOfBits : List Bool → Nat
  | [] => 0
  | b :: rest => b.toNat + 2 * natOfBits rest

/-- R60, R92, R93: the value assembled from bits, least significant first. -/
def ofBits (w : Nat) (l : List Bool) : BitVec w := BitVec.ofNat w (natOfBits l)

/-- R59: the eight bytes of a 64-bit value, byte k holding bits 8k+7 : 8k. -/
def bytesOf (v : Dword) : List Byte := (List.range 8).map fun k => v.extractLsb' (8 * k) 8

/-- The number whose bytes are given, lowest first. -/
def natOfBytes : List Byte → Nat
  | [] => 0
  | b :: rest => b.toNat + 256 * natOfBytes rest

/-- R59: the 64-bit value of bytes, lowest first. -/
def ofBytes (l : List Byte) : Dword := BitVec.ofNat 64 (natOfBytes l)

/-- R62: bits 31:0. -/
def loHalf (v : Dword) : Word := v.extractLsb' 0 32

/-- R62: bits 63:32. -/
def hiHalf (v : Dword) : Word := v.extractLsb' 32 32

/-- R44: the slot of the leaf of a byte value. -/
def leafIdx (b : Byte) : NodeIdx := b.setWidth 9

/-- R44: the slot of the k-th internal node created. -/
def internalIdx (k : BitVec 8) : NodeIdx := 256#9 + k.setWidth 9

/-- R45: a leaf's byte value is its index. -/
def leafByte (n : NodeIdx) : Byte := n.setWidth 8

/-- R43: FREQ[b]. -/
def freqAt (f : Vector Dword 256) (b : Byte) : Dword := f[b.toNat]'b.isLt

/-- R107: FREQ[b] <- FREQ[b] + 1. -/
def bumpFreq (f : Vector Dword 256) (b : Byte) : Vector Dword 256 := f.set b.toNat (freqAt f b + 1#64) b.isLt

/-- R44: NODE[n]. The store has slots 0 to 510; a link that names 511 names no slot, which reads as an empty one
(DESIGN CHOICE, log 13; no state that meets R53 has such a link). -/
def Tree.nodeAt (t : Tree) (n : NodeIdx) : Node := if h : n.toNat < 511 then t.node[n.toNat] else Node.empty

/-- NODE[n] <- v. There is no slot 511 to write (log 13). -/
def Tree.setNode (t : Tree) (n : NodeIdx) (v : Node) : Tree :=
  if h : n.toNat < 511 then { t with node := t.node.set n.toNat v h } else t

/-- NODE[n].LEFT <- l. -/
def Tree.setLeft (t : Tree) (n l : NodeIdx) : Tree := t.setNode n { t.nodeAt n with left := l }

/-- NODE[n].RIGHT <- r. -/
def Tree.setRight (t : Tree) (n r : NodeIdx) : Tree := t.setNode n { t.nodeAt n with right := r }

/-- R114 SetParent: the parent link of a node, none for the root (R45: then PARENT = 0). -/
def Tree.setParent (t : Tree) (n : NodeIdx) (p : Option NodeIdx) : Tree :=
  match p with
  | none => t.setNode n { t.nodeAt n with parent := 0#9, hasParent := false }
  | some p => t.setNode n { t.nodeAt n with parent := p, hasParent := true }

/-- R47: CODE_LEN[b]. -/
def Codes.lenAt (c : Codes) (b : Byte) : BitVec 8 := c.len[b.toNat]'b.isLt

/-- R47: CODE_BITS[b]. -/
def Codes.bitsAt (c : Codes) (b : Byte) : BitVec 256 := c.bits[b.toNat]'b.isLt

/-- R119: the bits of the code of b in emission order, CODE_BITS[b][0] first. -/
def Codes.codeOf (c : Codes) (b : Byte) : List Bool :=
  (List.range (c.lenAt b).toNat).map fun i => (c.bitsAt b).getLsbD i

/-- R63, R137: CODE_BITS[b][64w+63 : 64w]. -/
def Codes.wordAt (c : Codes) (b : Byte) (w : BitVec 2) : Dword := (c.bitsAt b).extractLsb' (64 * w.toNat) 64

end Sys2Proof.Machine
end

