-- ==== Sys2Proof/Machine/Flags.lean ====
section
/-! DEFINITION. Status flags and the registers that are views of other state: the error codes
(spec/60_exceptions.md R142), what issue and completion do to STATUS (spec/30_encoding.md R81, R144), and the words of
STATUS, TREE, BITPOS and AUX (spec/10_state.md R29 to R41, spec/45_control.md R136, R137). -/

namespace Sys2Proof.Machine

/-- R142: what a command can end with. -/
inductive ErrCode where
  | ok
  | unseekableInput
  | truncatedArchive
  | corruptTree
  | badLength
  | noLeaf
  | inputChanged
  | illegalCommand
  | badState
  deriving DecidableEq, Repr

/-- R142: the number in STATUS.ERRCODE. -/
def ErrCode.code : ErrCode → BitVec 4
  | .ok => 0#4
  | .unseekableInput => 1#4
  | .truncatedArchive => 2#4
  | .corruptTree => 3#4
  | .badLength => 4#4
  | .noLeaf => 5#4
  | .inputChanged => 6#4
  | .illegalCommand => 7#4
  | .badState => 8#4

/-- R81: STATUS at issue. OVERRUN stays (R33). -/
def Status.issue (st : Status) : Status := { st with busy := true, done := false, errcode := 0#4, eof := false }

/-- R144: STATUS at completion. -/
def Status.complete (st : Status) (e : ErrCode) : Status := { st with busy := false, done := true, errcode := e.code }

/-- R31: ERR always equals (ERRCODE != 0). -/
def Status.err (st : Status) : Bool := st.errcode != 0#4

/-- A flag as a one-bit field. -/
def flagBit (b : Bool) : BitVec 1 := if b then 1#1 else 0#1

/-- The STATUS register (10_state.md, the table before R29): bit 7 and bits 31:12 are reserved and read 0. -/
def State.statusWord (s : State) : Word :=
  0#20 ++ s.status.errcode ++ 0#1 ++ flagBit s.inp.seekable ++ flagBit s.out.closed ++ flagBit s.status.overrun ++
    flagBit s.status.eof ++ flagBit s.status.err ++ flagBit s.status.done ++ flagBit s.status.busy

/-- R40: the TREE register. -/
def State.treeWord (s : State) : Word :=
  0#3 ++ s.tree.nleaf ++ s.tree.nint ++ 0#1 ++ flagBit s.codes.valid ++ flagBit s.tree.rootValid ++ s.tree.root

/-- R41: the BITPOS register. -/
def State.bitposWord (s : State) : Word :=
  s.inp.rbuf ++ 0#5 ++ s.inp.rcnt ++ s.out.wbuf ++ 0#5 ++ s.out.wcnt

/-- R136: what PEEK_NODE puts into AUX. -/
def Node.auxWord (n : Node) : Word :=
  0#2 ++ flagBit n.valid ++ flagBit n.internal ++ flagBit n.hasParent ++ n.parent ++ n.right ++ n.left

/-- R137: what PEEK_CODE puts into AUX. -/
def codeAux (hasLeaf : Bool) (len : BitVec 8) : Word := 0#23 ++ flagBit hasLeaf ++ len

end Sys2Proof.Machine
end

