-- ==== Sys2Proof/Machine/Ops.lean ====
section
/-! DEFINITION. The operations the meanings share: completing a command and raising an error
(spec/60_exceptions.md R144), the ports (spec/20_memory.md R56 to R58), the bitstream primitives
(spec/40_bitstream.md R87 to R93), and the invalidation of derived state (spec/10_state.md R48). -/

namespace Sys2Proof.Machine

/-- What a meaning answers. -/
abbrev Result := Host.Outcome State Fault Refusal

/-! Completion and errors (R144). HCORE has no trap and no return from one (R146, R147): an error ends the command. -/

/-- R144: the completion step, with the error raised or `ok`. -/
def State.complete (s : State) (e : ErrCode) : State := { s with status := s.status.complete e }

/-- The end of a command's rule with no error. -/
def finish (s : State) : Result := .next (s.complete .ok)

/-- R21, R144 `raise E`: every change made before stays, the command completes with E. -/
def raise (e : ErrCode) (s : State) : Result := .next (s.complete e)

/-- STATUS.EOF <- 1 (R32). -/
def State.setEof (s : State) : State := { s with status := { s.status with eof := true } }

/-- R32, R142: what a raise adds to STATUS.EOF inside the rules that read bits: TRUNCATED_ARCHIVE comes with EOF = 1,
CORRUPT_TREE without. -/
def raiseReading (e : ErrCode) (s : State) : Result :=
  if e = .truncatedArchive then raise e s.setEof else raise e s

/-- R81: issue, as an accepted write of `w` to CMD does it. -/
def State.issue (s : State) (w : Word) : State := { s with latch := w, status := s.status.issue }

/-! The input port. -/

/-- IN_POS <- IN_POS + 1. A 64-bit counter (R42): past 2^64 - 1 it wraps (DEDUCED, log 14). -/
def InPort.advance (p : InPort) : InPort := { p with pos := p.pos + 1#64 }

/-- R56 InByte: the byte at IN_POS, or none at end of stream. -/
def InPort.inByte (p : InPort) : Option (Byte × InPort) :=
  match p.data[p.pos.toNat]? with
  | some b => some (b, p.advance)
  | none => none

/-- R42, R51: IN_POS, which never exceeds IN_LEN. Only the CORE's accesses and reset change the counter `pos` (R151, R157).
Where the host has loaded an input that ends before the counter, IN_POS is IN_LEN (DEDUCED, log 15). -/
def InPort.position (p : InPort) : Dword :=
  if p.pos.toNat ≤ p.data.length then p.pos else BitVec.ofNat 64 p.data.length

/-- The bytes InByte has still to give. -/
def InPort.rest (p : InPort) : List Byte := p.data.drop p.pos.toNat

/-- R58 SeekIn0. -/
def InPort.seek0 (p : InPort) : InPort := { p with pos := 0#64, rbuf := 0#8, rcnt := 0#3 }

/-- R91 ReadBit. The transient RCNT = 8 of a byte just pulled is never stored: its first bit is taken at once. -/
def InPort.readBit (p : InPort) : Option (Bool × InPort) :=
  if p.rcnt = 0#3 then
    match p.inByte with
    | none => none
    | some (b, p) => some (b.getLsbD 0, { p with rbuf := b, rcnt := 7#3 })
  else
    let bit := p.rbuf.getLsbD (8 - p.rcnt.toNat)
    if p.rcnt = 1#3 then some (bit, { p with rbuf := 0#8, rcnt := 0#3 })
    else some (bit, { p with rcnt := p.rcnt - 1#3 })

/-- `k` bits by ReadBit, failing as soon as one fails; the bits before stay consumed (R92, R93). -/
def InPort.readBits : Nat → InPort → Option (List Bool) × InPort
  | 0, p => (some [], p)
  | k + 1, p =>
    match p.readBit with
    | none => (none, p)
    | some (b, p) =>
      match InPort.readBits k p with
      | (some l, p) => (some (b :: l), p)
      | (none, p) => (none, p)

/-- `k` bytes by InByte; the bytes before a failure stay consumed (R93). -/
def InPort.inBytes : Nat → InPort → Option (List Byte) × InPort
  | 0, p => (some [], p)
  | k + 1, p =>
    match p.inByte with
    | none => (none, p)
    | some (b, p) =>
      match InPort.inBytes k p with
      | (some l, p) => (some (b :: l), p)
      | (none, p) => (none, p)

/-- R92 ReadByte. -/
def InPort.readByte (p : InPort) : Option Byte × InPort :=
  if p.rcnt = 0#3 then
    match p.inByte with
    | none => (none, p)
    | some (b, p) => (some b, p)
  else
    match p.readBits 8 with
    | (some l, p) => (some (ofBits 8 l), p)
    | (none, p) => (none, p)

/-- R93 ReadInt64. -/
def InPort.readInt64 (p : InPort) : Option Dword × InPort :=
  if p.rcnt = 0#3 then
    match p.inBytes 8 with
    | (some l, p) => (some (ofBytes l), p)
    | (none, p) => (none, p)
  else
    match p.readBits 64 with
    | (some l, p) => (some (ofBits 64 l), p)
    | (none, p) => (none, p)

/-! The output port. -/

/-- R57 OutByte. OUT_CNT wraps modulo 2^64 (R138). -/
def OutPort.outByte (o : OutPort) (b : Byte) : OutPort := { o with data := o.data ++ [b], cnt := o.cnt + 1#64 }

/-- R87: WBUF with bit number WCNT set to `bit`. -/
def OutPort.filled (o : OutPort) (bit : Bool) : Byte :=
  (o.wbuf &&& ~~~(1#8 <<< o.wcnt.toNat)) ||| ((if bit then 1#8 else 0#8) <<< o.wcnt.toNat)

/-- R87 WriteBit. -/
def OutPort.writeBit (o : OutPort) (bit : Bool) : OutPort :=
  if o.wcnt = 7#3 then { o.outByte (o.filled bit) with wbuf := 0#8, wcnt := 0#3 }
  else { o with wbuf := o.filled bit, wcnt := o.wcnt + 1#3 }

/-- WriteBit of each bit in order. -/
def OutPort.writeBits (o : OutPort) (l : List Bool) : OutPort := l.foldl OutPort.writeBit o

/-- R88 WriteByte. -/
def OutPort.writeByte (o : OutPort) (v : Byte) : OutPort :=
  if o.wcnt = 0#3 then o.outByte v else o.writeBits (bitsOf v)

/-- R89 WriteInt64. -/
def OutPort.writeInt64 (o : OutPort) (v : Dword) : OutPort :=
  if o.wcnt = 0#3 then (bytesOf v).foldl OutPort.outByte o else o.writeBits (bitsOf v)

/-- R90: the partial byte goes to the stream; WBUF[7:WCNT] is already 0, the padding. -/
def OutPort.flush (o : OutPort) : OutPort :=
  if o.wcnt = 0#3 then o else { o.outByte o.wbuf with wbuf := 0#8, wcnt := 0#3 }

/-- R90 CloseOut. -/
def OutPort.closeOut (o : OutPort) : OutPort := { o.flush with closed := true }

/-- R95: OUT_DATA truncated, the output reopened, a partial byte discarded. -/
def OutPort.reopen (_ : OutPort) : OutPort := { data := [], cnt := 0#64, closed := false, wbuf := 0#8, wcnt := 0#3 }

/-! Derived state (R48). -/

/-- R48 InvalidateCodes. -/
def State.invalidateCodes (s : State) : State := { s with codes := Codes.empty }

/-- R48 InvalidateTree. FREQ and LENGTH are not touched. -/
def State.invalidateTree (s : State) : State := { s with tree := Tree.empty }.invalidateCodes

/-- The opening of both streams, as OPEN, ENCODE and DECODE do it (R95, R126, R127). -/
def State.openStreams (s : State) : State := { s with inp := s.inp.seek0, out := s.out.reopen }

end Sys2Proof.Machine
end

