-- ==== Sys2Proof/Machine/Bus.lean ====
section
/-! DEFINITION. The register window (spec/10_state.md R25, R26; spec/20_memory.md R55, R67, R68) as the host reads and
writes it, and the notation of host programs (spec/30_encoding.md R85, R86). -/

namespace Sys2Proof.Machine

/-- R55: the offset in the window of a bus access, if the access is one the spec defines: 4 bytes, in the window, at a
multiple of 4. The three others are refused by name (log 10). -/
def busOffset (addr size : Nat) : Except Refusal Nat :=
  if size ≠ 4 then .error .busAccessSize
  else if addr < Config.base ∨ Config.base + Config.regSpace ≤ addr then .error .busAccessOutsideWindow
  else if (addr - Config.base) % 4 ≠ 0 then .error .busAccessMisaligned
  else .ok (addr - Config.base)

/-- R26: the offsets that have a register. -/
def hasRegister (off : Nat) : Bool := off % 4 == 0 && off ≤ 0x40 && off != 0x0C

/-- R26: what the register at an offset reads while BUSY = 0; an offset with no register reads 0 (R25). -/
def readReg (off : Nat) (s : State) : Word :=
  match off with
  | 0x00 => Config.idValue
  | 0x04 => 0#32
  | 0x08 => s.statusWord
  | 0x10 => loHalf s.data
  | 0x14 => hiHalf s.data
  | 0x18 => loHalf s.result
  | 0x1C => hiHalf s.result
  | 0x20 => loHalf s.length
  | 0x24 => hiHalf s.length
  | 0x28 => s.treeWord
  | 0x2C => s.bitposWord
  | 0x30 => loHalf s.inp.position
  | 0x34 => hiHalf s.inp.position
  | 0x38 => loHalf s.out.cnt
  | 0x3C => hiHalf s.out.cnt
  | 0x40 => s.aux
  | _ => 0#32

/-- R29, H6: what a register reads while BUSY = 1, given a drawn value: STATUS shows BUSY and DONE, everything else is the
draw. An offset with no register reads 0 (R25). -/
def readRegBusy (off : Nat) (drawn : Word) (s : State) : Word :=
  if off = 0x08 then drawn.extractLsb' 2 30 ++ flagBit s.status.done ++ flagBit s.status.busy
  else if hasRegister off then drawn
  else 0#32

/-- R67: a host read changes no register; what it returns is kept in `lastRead`. While BUSY = 1 it takes a draw
(R29, U1, log 7). -/
def hostRead (off : Nat) (s : State) : State :=
  if s.status.busy then
    { s with lastRead := some (readRegBusy off (Config.freeRead s.draws) s), draws := s.draws + 1 }
  else { s with lastRead := some (readReg off s) }

/-- R33: a write refused because BUSY = 1. -/
def State.overrun (s : State) : State := { s with status := { s.status with overrun := true } }

/-- R25, R33, R67, R81: a host write. CMD issues a command, DATA_LO and DATA_HI take a half of DATA, while BUSY = 1 all
three are refused; every other offset ignores the write. -/
def hostWrite (off : Nat) (v : Word) (s : State) : State :=
  match off with
  | 0x04 => if s.status.busy then s.overrun else s.issue v
  | 0x10 => if s.status.busy then s.overrun else { s with data := hiHalf s.data ++ v }
  | 0x14 => if s.status.busy then s.overrun else { s with data := v ++ loHalf s.data }
  | _ => s

/-! The notation of host programs (R85, R86), as lists of host actions. -/

/-- R86 `WR32 off, v`. -/
def hostWr32 (off : Nat) (v : Word) : List HostAction := [.write (Config.base + off) 4 v]

/-- R86 `RD32 off`. -/
def hostRd32 (off : Nat) : List HostAction := [.read (Config.base + off) 4]

/-- R86 `CMDW v`: any word, legal or not, then WAIT. -/
def hostCmdw (v : Word) : List HostAction := hostWr32 0x04 v ++ [.wait]

/-- R85: a command line. -/
def hostCommand (i : Instr) : List HostAction := hostCmdw (encode i)

/-- R86 `LDDATA v`. -/
def hostLddata (v : Dword) : List HostAction := hostWr32 0x10 (loHalf v) ++ hostWr32 0x14 (hiHalf v)

/-- R86 `WR_I64 v`. -/
def hostWrI64 (v : Dword) : List HostAction := hostLddata v ++ hostCommand .wrI64

end Sys2Proof.Machine
end

