-- ==== Sys2Proof/Machine/Control.lean ====
section
/-! DEFINITION. Control and inspection (spec/45_control.md R133 to R137): NOP, CLEAR and the PEEK commands. -/

namespace Sys2Proof.Machine

/-- R133 NOP. -/
def execNop (s : State) : Result := finish s

/-- R134 CLEAR. -/
def execClear (s : State) : Result :=
  let s := s.invalidateTree
  finish
    { s with freq := Vector.replicate 256 0#64, length := 0#64, data := 0#64, result := 0#64, aux := 0#32
             status := { s.status with overrun := false } }

/-- R135 PEEK_FREQ. -/
def execPeekFreq (b : Byte) (s : State) : Result := finish { s with result := freqAt s.freq b, aux := 0#32 }

/-- R136 PEEK_NODE. -/
def execPeekNode (i : NodeIdx) (s : State) : Result :=
  finish { s with result := (s.tree.nodeAt i).freq, aux := (s.tree.nodeAt i).auxWord }

/-- R137 PEEK_CODE. -/
def execPeekCode (b : Byte) (w : BitVec 2) (s : State) : Result :=
  if s.codes.valid then
    finish { s with result := s.codes.wordAt b w
                    aux := codeAux (s.tree.nodeAt (leafIdx b)).valid (s.codes.lenAt b) }
  else raise .badState { s with result := 0#64, aux := 0#32 }

end Sys2Proof.Machine
end

