-- ==== Sys2Proof/Machine/Bitstream.lean ====
section
/-! DEFINITION. The nine commands of the bitstream adapter (spec/40_bitstream.md R95 to R103). -/

namespace Sys2Proof.Machine

/-- R95 OPEN. -/
def execOpen (s : State) : Result := finish s.openStreams

/-- R96 SEEK_IN. -/
def execSeekIn (s : State) : Result :=
  if s.inp.seekable then finish { s with inp := s.inp.seek0 } else raise .unseekableInput s

/-- R97 WR_BIT. -/
def execWrBit (bit : Bool) (s : State) : Result :=
  if s.out.closed then raise .badState s else finish { s with out := s.out.writeBit bit }

/-- R98 WR_BYTE. -/
def execWrByte (b : Byte) (s : State) : Result :=
  if s.out.closed then raise .badState s else finish { s with out := s.out.writeByte b }

/-- R99 WR_I64: the operand is the DATA register. -/
def execWrI64 (s : State) : Result :=
  if s.out.closed then raise .badState s else finish { s with out := s.out.writeInt64 s.data }

/-- R100 WR_CLOSE. -/
def execWrClose (s : State) : Result := finish { s with out := s.out.closeOut }

/-- R101 to R103: what a read gives goes to RESULT, zero-extended; end of stream gives RESULT = 0 and EOF = 1 with no
error. -/
def finishRead (r : Option Dword) (p : InPort) (s : State) : Result :=
  match r with
  | some v => finish { s with inp := p, result := v }
  | none => finish { s with inp := p, result := 0#64 }.setEof

/-- R101 RD_BIT. -/
def execRdBit (s : State) : Result :=
  match s.inp.readBit with
  | some (b, p) => finishRead (some (if b then 1#64 else 0#64)) p s
  | none => finishRead none s.inp s

/-- R102 RD_BYTE. -/
def execRdByte (s : State) : Result :=
  match s.inp.readByte with
  | (r, p) => finishRead (r.map fun b => b.setWidth 64) p s

/-- R103 RD_I64. LENGTH is not written. -/
def execRdI64 (s : State) : Result :=
  match s.inp.readInt64 with
  | (r, p) => finishRead r p s

end Sys2Proof.Machine
end

