-- ==== Sys2Proof/Machine/Builder.lean ====
section
/-! DEFINITION. The tree builder (spec/41_tree_builder.md): COUNT and BUILD. -/

namespace Sys2Proof.Machine

/-- The state of the counting pass. -/
structure Counting where
  inp : InPort
  freq : Vector Dword 256
  length : Dword
  /-- Byte 2^63 was met (R107). -/
  tooLong : Bool
  deriving DecidableEq, Repr

/-- R107, the loop: InByte gives the bytes of `rest` one after the other, and then none. The byte that would be number
2^63 is consumed and not counted. -/
def countLoop : List Byte → Counting → Counting
  | [], c => c
  | b :: rest, c =>
    if c.length = Config.maxLen then { c with inp := c.inp.advance, tooLong := true }
    else countLoop rest { c with inp := c.inp.advance, freq := bumpFreq c.freq b, length := c.length + 1#64 }

/-- R107 after its seekable check, R126 pass 1: rewind, zero FREQ and LENGTH, count. -/
def countPass (p : InPort) : Counting :=
  countLoop p.seek0.rest
    { inp := p.seek0, freq := Vector.replicate 256 0#64, length := 0#64, tooLong := false }

/-- What a counting pass leaves in State. -/
def State.counted (s : State) (c : Counting) : State := { s with inp := c.inp, freq := c.freq, length := c.length }

/-- R107 COUNT. -/
def execCount (s : State) : Result :=
  if s.inp.seekable then
    let c := countPass s.inp
    let s := s.invalidateTree.counted c
    if c.tooLong then raise .badLength s else finish s
  else raise .unseekableInput s

/-- R104 Insert: before the first entry of strictly greater frequency, after all equal ones. -/
def insertQ (freqOf : NodeIdx → Dword) (n : NodeIdx) : List NodeIdx → List NodeIdx
  | [] => [n]
  | q :: rest => if freqOf n < freqOf q then n :: q :: rest else q :: insertQ freqOf n rest

/-- R104: Insert by the frequencies of the node store. -/
def Tree.insert (t : Tree) (n : NodeIdx) (q : List NodeIdx) : List NodeIdx :=
  insertQ (fun i => (t.nodeAt i).freq) n q

/-- R108: NODE[b] made a leaf with a frequency, NLEAF counted up. -/
def Tree.addLeaf (t : Tree) (b : Byte) (f : Dword) : Tree :=
  { t with nleaf := t.nleaf + 1#9 }.setNode (leafIdx b) { Node.empty with valid := true, freq := f }

/-- R105, R108: the leaves of the bytes with FREQ > 0, inserted in the order given. -/
def addLeaves (f : Vector Dword 256) : List Byte → Tree × List NodeIdx → Tree × List NodeIdx
  | [], tq => tq
  | b :: rest, (t, q) =>
    if freqAt f b = 0#64 then addLeaves f rest (t, q)
    else
      let t := t.addLeaf b (freqAt f b)
      addLeaves f rest (t, t.insert (leafIdx b) q)

/-- R8: the byte values in ascending order. -/
def allBytes : List Byte := (List.range 256).map fun n => BitVec.ofNat 8 n

/-- R106: NODE[256 + NINT] made the parent of a and c, NINT counted up. The 64-bit sum wraps (R138). -/
def Tree.merge (t : Tree) (a c : NodeIdx) : Tree :=
  let n := internalIdx t.nint
  let node := { Node.empty with valid := true, internal := true, freq := (t.nodeAt a).freq + (t.nodeAt c).freq
                                left := a, right := c }
  ((({ t with nint := t.nint + 1#8 }.setNode n node).setParent a (some n)).setParent c (some n))

/-- R108, the merge loop. Each merge takes two entries of the queue and adds one (R109), so as many rounds as the queue
has entries are more than enough. -/
def mergeLoop : Nat → Tree × List NodeIdx → Tree × List NodeIdx
  | 0, tq => tq
  | k + 1, (t, a :: c :: q) =>
    let n := internalIdx t.nint
    let t := t.merge a c
    mergeLoop k (t, t.insert n q)
  | _ + 1, tq => tq

/-- R108: the root of the tree, if the queue has one. -/
def Tree.takeRoot (t : Tree) (q : List NodeIdx) : Tree :=
  match q with
  | [r] => { t with root := r, rootValid := true }
  | _ => t

/-- R108: the tree of a frequency table. -/
def buildTree (f : Vector Dword 256) : Tree :=
  let tq := addLeaves f allBytes (Tree.empty, [])
  let tq := mergeLoop tq.2.length tq
  tq.1.takeRoot tq.2

/-- R108, the body of BUILD. -/
def State.build (s : State) : State := { s.invalidateTree with tree := buildTree s.freq }

/-- R108 BUILD. -/
def execBuild (s : State) : Result := finish s.build

end Sys2Proof.Machine
end

