-- ==== Sys2Proof/Machine/ContentCodec.lean ====
section
/-! DEFINITION. The content codec (spec/43_content_codec.md): CODES, ENC_SYM and DEC_SYM. -/

namespace Sys2Proof.Machine

/-- R118: the walk from a node up to the root, `acc` being the bits already met (the lower part of the path), with as
many nodes as given. The last bit met is the one nearest the root, so putting each in front reverses them. -/
def walkUp (t : Tree) : Nat → NodeIdx → List Bool → Option (List Bool)
  | 0, _, _ => none
  | k + 1, n, acc =>
    if (t.nodeAt n).hasParent then
      let p := (t.nodeAt n).parent
      walkUp t k p (decide ((t.nodeAt p).right = n) :: acc)
    else some acc

/-- R118: the code of byte b, root-first: empty for a byte with no leaf. -/
def Tree.pathOf (t : Tree) (b : Byte) : Option (List Bool) :=
  if (t.nodeAt (leafIdx b)).valid then walkUp t Config.stackDepth (leafIdx b) [] else some []

/-- R118: the code table of a tree, if every walk fits the walk stack. -/
def codesOf (t : Tree) : Option Codes :=
  if (List.range 256).all (fun n => (t.pathOf (BitVec.ofNat 8 n)).isSome) then
    some
      { len := Vector.ofFn fun b : Fin 256 => BitVec.ofNat 8 ((t.pathOf (BitVec.ofNat 8 b)).getD []).length
        bits := Vector.ofFn fun b : Fin 256 => ofBits 256 ((t.pathOf (BitVec.ofNat 8 b)).getD [])
        valid := true }
  else none

/-- R118 CODES. -/
def execCodes (s : State) : Result :=
  if s.tree.rootValid then
    match codesOf s.tree with
    | some c => finish { s with codes := c }
    | none => .fault .walkOverflow
  else raise .badState s

/-- R119 ENC_SYM. -/
def execEncSym (b : Byte) (s : State) : Result :=
  if s.out.closed then raise .badState s
  else if !s.codes.valid then raise .badState s
  else if (s.tree.nodeAt (leafIdx b)).valid then finish { s with out := s.out.writeBits (s.codes.codeOf b) }
  else raise .noLeaf s

/-- How a descent of the tree ends. -/
inductive Descent where
  /-- A leaf is reached. -/
  | leaf (n : NodeIdx) (p : InPort)
  /-- R120: a bit or a child is missing. -/
  | stop (e : ErrCode) (p : InPort)
  /-- More nodes than the walk stack has entries; only in a state that breaks R53 (log 12). -/
  | overflow
  deriving DecidableEq, Repr

/-- R120, R127: the walk from node n down to a leaf, one bit for each edge, through at most as many nodes as given. The
test for a leaf comes before each read (spec/90_conflicts.md C1). -/
def descend (t : Tree) : Nat → NodeIdx → InPort → Descent
  | 0, _, _ => .overflow
  | k + 1, n, p =>
    if (t.nodeAt n).internal then
      match p.readBit with
      | none => .stop .truncatedArchive p
      | some (b, p) =>
        let c := if b then (t.nodeAt n).right else (t.nodeAt n).left
        if (t.nodeAt c).valid then descend t k c p else .stop .corruptTree p
    else .leaf n p

/-- R120: one symbol, from ROOT. -/
def Tree.readSym (t : Tree) (p : InPort) : Descent := descend t Config.stackDepth t.root p

/-- R120 DEC_SYM. A descent that fails writes RESULT <- 0 (R37); with no tree nothing is written (R144, R167; DEDUCED,
log 16). -/
def execDecSym (s : State) : Result :=
  if s.tree.rootValid then
    match s.tree.readSym s.inp with
    | .leaf n p => finish { s with inp := p, result := (leafByte n).setWidth 64 }
    | .stop e p => raiseReading e { s with inp := p, result := 0#64 }
    | .overflow => .fault .walkOverflow
  else raise .badState s

end Sys2Proof.Machine
end

