-- ==== Sys2Proof/Machine/TreeCodec.lean ====
section
/-! DEFINITION. The tree codec (spec/42_tree_codec.md): SER_TREE and DES_TREE. The recursion of the rules is bounded by
the walk stack (spec/00_scope.md R18); a walk that needs more entries is no next state (log 12). -/

namespace Sys2Proof.Machine

/-- R113 Ser(n), with as many levels of the walk stack as given. -/
def ser (t : Tree) : Nat → NodeIdx → OutPort → Option OutPort
  | 0, _, _ => none
  | depth + 1, n, o =>
    if (t.nodeAt n).internal then
      match ser t depth (t.nodeAt n).left (o.writeBit true) with
      | none => none
      | some o => ser t depth (t.nodeAt n).right o
    else some ((o.writeBit false).writeByte (leafByte n))

/-- R113 SER_TREE. -/
def execSerTree (s : State) : Result :=
  if s.out.closed then raise .badState s
  else if s.tree.rootValid then
    match ser s.tree Config.stackDepth s.tree.root s.out with
    | some o => finish { s with out := o }
    | none => .fault .walkOverflow
  else raise .badState s

/-- How the reading of a tree ends. -/
inductive TreeRead where
  /-- R114 `return n`, with the reader and the store as they are then. -/
  | node (n : NodeIdx) (p : InPort) (t : Tree)
  /-- R114 `fail E`: the tree is invalidated by the caller, what was read stays read. -/
  | stop (e : ErrCode) (p : InPort)
  /-- The walk stack is too small; never (R115). -/
  | overflow
  deriving DecidableEq, Repr

/-- R114: NODE[256 + NINT] made an internal node with parent `p` and no children yet, NINT counted up. -/
def Tree.openInternal (t : Tree) (p : Option NodeIdx) : Tree :=
  let n := internalIdx t.nint
  ({ t with nint := t.nint + 1#8 }.setNode n { Node.empty with valid := true, internal := true }).setParent n p

/-- R114: NODE[v] made a leaf with parent `p`, NLEAF counted up. -/
def Tree.openLeaf (t : Tree) (v : Byte) (p : Option NodeIdx) : Tree :=
  ({ t with nleaf := t.nleaf + 1#9 }.setNode (leafIdx v) { Node.empty with valid := true }).setParent (leafIdx v) p

/-- R114 Des(p), with as many levels of the walk stack as given. -/
def des : Nat → Option NodeIdx → InPort → Tree → TreeRead
  | 0, _, _, _ => .overflow
  | depth + 1, par, p, t =>
    match p.readBit with
    | none => .stop .truncatedArchive p
    | some (true, p) =>
      if t.nint = 255#8 then .stop .corruptTree p
      else
        let n := internalIdx t.nint
        match des depth (some n) p (t.openInternal par) with
        | .node l p t =>
          match des depth (some n) p (t.setLeft n l) with
          | .node r p t => .node n p (t.setRight n r)
          | .stop e p => .stop e p
          | .overflow => .overflow
        | .stop e p => .stop e p
        | .overflow => .overflow
    | some (false, p) =>
      match p.readByte with
      | (none, p) => .stop .truncatedArchive p
      | (some v, p) =>
        if (t.nodeAt (leafIdx v)).valid then .stop .corruptTree p
        else .node (leafIdx v) p (t.openLeaf v par)

/-- R114: a tree read from the input, starting from no tree. -/
def readTree (p : InPort) : TreeRead := des Config.stackDepth none p Tree.empty

/-- R114: ROOT and ROOT_VALID of a tree just read. -/
def Tree.withRoot (t : Tree) (r : NodeIdx) : Tree := { t with root := r, rootValid := true }

/-- R114 DES_TREE. -/
def execDesTree (s : State) : Result :=
  match readTree s.inp with
  | .node r p t => finish { s.invalidateTree with inp := p, tree := t.withRoot r }
  | .stop e p => raiseReading e { s.invalidateTree with inp := p }
  | .overflow => .fault .walkOverflow

end Sys2Proof.Machine
end

