-- ==== Sys2Proof/Machine/Sequencers.lean ====
section
/-! DEFINITION. The sequencers (spec/44_sequencers.md): ENCODE and DECODE, each a fixed chain of the unit operations. The
output is closed on every exit path. -/

namespace Sys2Proof.Machine

/-- CloseOut on the machine's output. -/
def State.closeOut (s : State) : State := { s with out := s.out.closeOut }

/-- How the second pass of ENCODE ends. -/
inductive SecondPass where
  | done (p : InPort) (o : OutPort)
  /-- R126: fewer bytes than the first pass counted. -/
  | short (p : InPort) (o : OutPort)
  /-- R126: a byte the first pass never saw. -/
  | unseen (p : InPort) (o : OutPort)
  deriving DecidableEq, Repr

/-- R126, pass 2: the codes of the next `n` input bytes. -/
def encodeSyms (t : Tree) (c : Codes) : Nat → InPort → OutPort → SecondPass
  | 0, p, o => .done p o
  | n + 1, p, o =>
    match p.inByte with
    | none => .short p o
    | some (b, p) =>
      if (t.nodeAt (leafIdx b)).valid then encodeSyms t c n p (o.writeBits (c.codeOf b))
      else .unseen p o

/-- R126 from the tree on, the header being written: tree, second pass, close. -/
def encodeBody (s : State) : Result :=
  match ser s.tree Config.stackDepth s.tree.root s.out with
  | none => .fault .walkOverflow
  | some o =>
    match encodeSyms s.tree s.codes s.length.toNat s.inp.seek0 o with
    | .done p o => finish { s with inp := p, out := o }.closeOut
    | .short p o => raise .inputChanged { s with inp := p, out := o }.setEof.closeOut
    | .unseen p o => raise .inputChanged { s with inp := p, out := o }.closeOut

/-- R126 after the counting pass: the tree, the codes and the header, and the body; for an empty input the header
alone. -/
def encodeCounted (s : State) : Result :=
  if s.length = 0#64 then finish { s with out := s.out.writeInt64 s.length }.closeOut
  else
    let s := s.build
    match codesOf s.tree with
    | none => .fault .walkOverflow
    | some c => encodeBody { s with codes := c, out := s.out.writeInt64 s.length }

/-- R126 ENCODE. -/
def execEncode (s : State) : Result :=
  let s := s.openStreams.invalidateTree
  if s.inp.seekable then
    let c := countPass s.inp
    let s := s.counted c
    if c.tooLong then raise .badLength s.closeOut else encodeCounted s
  else raise .unseekableInput s.closeOut

/-- How the content of an archive is read. -/
inductive Content where
  | done (p : InPort) (o : OutPort)
  | stop (e : ErrCode) (p : InPort) (o : OutPort)
  | overflow
  deriving DecidableEq, Repr

/-- R127: the next `n` symbols of the input, written to the output. -/
def decodeSyms (t : Tree) : Nat → InPort → OutPort → Content
  | 0, p, o => .done p o
  | n + 1, p, o =>
    match t.readSym p with
    | .leaf k p => decodeSyms t n p (o.writeByte (leafByte k))
    | .stop e p => .stop e p o
    | .overflow => .overflow

/-- R127 after the header: tree and content. A content that stops leaves the tree valid (DEDUCED, log 17). -/
def decodeBody (s : State) : Result :=
  match readTree s.inp with
  | .overflow => .fault .walkOverflow
  | .stop e p => raiseReading e { s.invalidateTree with inp := p }.closeOut
  | .node r p t =>
    let s := { s with tree := t.withRoot r }
    match decodeSyms s.tree s.length.toNat p s.out with
    | .done p o => finish { s with inp := p, out := o }.closeOut
    | .stop e p o => raiseReading e { s with inp := p, out := o }.closeOut
    | .overflow => .fault .walkOverflow

/-- R127 with the header read: LENGTH, the check of its sign, the body unless the length is 0. -/
def decodeLength (h : Dword) (s : State) : Result :=
  let s := { s with length := h }
  if h.getLsbD 63 then raise .badLength s.closeOut
  else if h = 0#64 then finish s.closeOut
  else decodeBody s

/-- R127 DECODE. -/
def execDecode (s : State) : Result :=
  let s := s.openStreams.invalidateTree
  match s.inp.readInt64 with
  | (none, p) => raise .truncatedArchive { s with inp := p }.setEof.closeOut
  | (some h, p) => decodeLength h { s with inp := p }

end Sys2Proof.Machine
end

