-- ==== Sys2Proof/Machine/Dispatch.lean ====
section
/-! DEFINITION. One arm for each command (spec/30_encoding.md R79). -/

namespace Sys2Proof.Machine

def exec (i : Instr) (s : State) : Host.Outcome State Fault Refusal :=
  match i with
  | .nop => Sys2Proof.Machine.execNop s
  | .encode => Sys2Proof.Machine.execEncode s
  | .decode => Sys2Proof.Machine.execDecode s
  | .clear => Sys2Proof.Machine.execClear s
  | .openStreams => Sys2Proof.Machine.execOpen s
  | .seekIn => Sys2Proof.Machine.execSeekIn s
  | .wrBit bit => Sys2Proof.Machine.execWrBit bit s
  | .wrByte b => Sys2Proof.Machine.execWrByte b s
  | .wrI64 => Sys2Proof.Machine.execWrI64 s
  | .wrClose => Sys2Proof.Machine.execWrClose s
  | .rdBit => Sys2Proof.Machine.execRdBit s
  | .rdByte => Sys2Proof.Machine.execRdByte s
  | .rdI64 => Sys2Proof.Machine.execRdI64 s
  | .count => Sys2Proof.Machine.execCount s
  | .build => Sys2Proof.Machine.execBuild s
  | .serTree => Sys2Proof.Machine.execSerTree s
  | .desTree => Sys2Proof.Machine.execDesTree s
  | .codes => Sys2Proof.Machine.execCodes s
  | .encSym b => Sys2Proof.Machine.execEncSym b s
  | .decSym => Sys2Proof.Machine.execDecSym s
  | .peekFreq b => Sys2Proof.Machine.execPeekFreq b s
  | .peekNode idx => Sys2Proof.Machine.execPeekNode idx s
  | .peekCode b w => Sys2Proof.Machine.execPeekCode b w s

end Sys2Proof.Machine
end

