-- ==== Sys2Proof/Machine/Agents.lean ====
section
/-! DEFINITION. The two agents (spec/00_scope.md R6): the CORE's step (spec/30_encoding.md R81, R82), the host's actions
(spec/70_reset_and_hazards.md R161) and reset (R158). -/

namespace Sys2Proof.Machine

/-- R81, R82: the CORE decodes the latch, executes the command and completes it; an illegal word raises
ILLEGAL_COMMAND and changes nothing else. -/
def coreTurn (s : State) : Result :=
  match decode s.latch with
  | .ok i => exec i s
  | .error _ => raise .illegalCommand s

/-- R95, R126, R127: the commands that truncate OUT_DATA before they append. -/
def truncates (w : Word) : Bool :=
  match decode w with
  | .ok .openStreams => true
  | .ok .encode => true
  | .ok .decode => true
  | .ok _ => false
  | .error _ => false

/-- R158: what OUT_DATA holds when the command in flight is abandoned after `k` steps on it, a truncation and each byte
appended being a step: "the bytes it already appended stay". -/
def abandonedOut (k : Nat) (s : State) : List Byte :=
  match coreTurn s with
  | .next t =>
    if truncates s.latch then if k = 0 then s.out.data else t.out.data.take (k - 1)
    else t.out.data.take (s.out.data.length + k)
  | .fault _ => s.out.data
  | .refused _ => s.out.data

/-- R158: reset. IN_DATA and IN_SEEKABLE are the host's and stay; so does OUT_DATA, but for what a command in flight had
done to it, which is a free value (U19, log 11). The model's own fields stay. -/
def State.resetBy (s : State) : State :=
  let outData := if s.status.busy then abandonedOut (Config.freeProgress s.draws) s else s.out.data
  { State.reset with
    inp := { State.reset.inp with data := s.inp.data, seekable := s.inp.seekable }
    out := { State.reset.out with data := outData }
    host := s.host
    lastRead := s.lastRead
    hostCopy := s.hostCopy
    draws := if s.status.busy then s.draws + 1 else s.draws }

/-- R86 LOADIN. The counter of IN_POS and the bit reader are the CORE's and stay as they are (R151, R157; log 15). -/
def State.loadIn (s : State) (bytes : List Byte) (seekable : Bool) : State :=
  { s with inp := { s.inp with data := bytes, seekable := seekable } }

/-- R161: an action of the host, with BUSY as it stands. A WAIT gets here only with BUSY = 0 (see `turn`). -/
def hostAct (a : HostAction) (s : State) : Result :=
  match a with
  | .write addr size v =>
    match busOffset addr size with
    | .ok off => .next (hostWrite off v s)
    | .error r => .refused r
  | .read addr size =>
    match busOffset addr size with
    | .ok off => .next (hostRead off s)
    | .error r => .refused r
  | .wait => .next s
  | .loadIn bytes seekable => if s.status.busy then .fault .loadWhileBusy else .next (s.loadIn bytes seekable)
  | .copyOut => if s.status.busy then .fault .copyWhileBusy else .next { s with hostCopy := s.out.data }
  | .reset => .next s.resetBy

/-- Whether the CORE moves next: a command runs, and the host waits for it or has nothing more to do (log 2). -/
def State.coreMoves (s : State) : Bool :=
  s.status.busy &&
    match s.host with
    | [] => true
    | .wait :: _ => true
    | _ :: _ => false

/-- The next turn of the two agents. With BUSY = 0 and no action to come HCORE is idle and keeps all state (R157). -/
def turn (s : State) : Result :=
  if s.coreMoves then coreTurn s
  else
    match s.host with
    | [] => .next s
    | a :: rest => hostAct a { s with host := rest }

/-- A word handed to the CORE by a CMD write that is accepted, with the WAIT of R85 after it (log 3). -/
def State.withCommand (s : State) (w : Word) : State := { s.issue w with host := .wait :: s.host }

end Sys2Proof.Machine
end

