-- ==== Sys2Proof/Machine/Step.lean ====
section
/-! DEFINITION. One step of the machine. -/

namespace Sys2Proof.Machine

/-- R6, R70: one turn, the CORE's or the host's. -/
def step (s : State) : Host.Outcome State Fault Refusal := turn s

/-- The command word w (its bits above nbits 0) in the command latch, issued, so that the very next step is the CORE's
(HCORE fetches no instructions, R22; the latch is what its step decodes, R81; log 3). -/
def State.withFetchWord (s : State) (nbits w : Nat) : State := s.withCommand (BitVec.ofNat 32 (w % 2 ^ nbits))

end Sys2Proof.Machine
end

