-- ==== Sys2Proof/Safety.lean ====
section
/-! DEFINITION. The terms claims are stated in: the streams as bit sequences (spec/20_memory.md R60, R61), the tree a node
store holds (spec/10_state.md R45, R53), its pre-order bits and codes (spec/42_tree_codec.md R113,
spec/43_content_codec.md R121), the invariants between commands (R53), and a safe step. None of it is used by the
machine. -/

namespace Sys2Proof.Machine

/-! Command words and registers. -/

/-- R77, R79: the opcodes of class N. -/
def classNOpcodes : List Byte :=
  [0x00#8, 0x01#8, 0x02#8, 0x03#8, 0x08#8, 0x09#8, 0x12#8, 0x13#8, 0x18#8, 0x19#8, 0x1A#8, 0x20#8, 0x21#8, 0x28#8,
    0x29#8, 0x30#8, 0x32#8]

/-- R77, R79: the opcodes of class Y. -/
def classYOpcodes : List Byte := [0x11#8, 0x31#8, 0x38#8]

/-- R77, R82, R83: the legal words, by their fields. -/
def LegalWord (w : Word) : Prop :=
  rsvdField w = 0#13 ∧
    ((opcField w ∈ classNOpcodes ∧ argField w = 0#9 ∧ selField w = 0#2) ∨
      (opcField w = 0x10#8 ∧ (argField w).extractLsb' 1 8 = 0#8 ∧ selField w = 0#2) ∨
      (opcField w ∈ classYOpcodes ∧ (argField w).getLsbD 8 = false ∧ selField w = 0#2) ∨
      (opcField w = 0x39#8 ∧ (argField w).toNat ≤ 510 ∧ selField w = 0#2) ∨
      (opcField w = 0x3A#8 ∧ (argField w).getLsbD 8 = false))

/-- R80: mask and match of every opcode. -/
def maskMatch : List (Word × Word) :=
  classNOpcodes.map (fun b => (0xFFFFFFFF#32, b.setWidth 32)) ++ [(0xFFFFFEFF#32, 0x10#32)] ++
    classYOpcodes.map (fun b => (0xFFFF00FF#32, b.setWidth 32)) ++ [(0xFFFE00FF#32, 0x39#32), (0xFFF900FF#32, 0x3A#32)]

/-- R55, R67: a host read at an offset of the window returns `v` and changes nothing else. -/
def ReadsAs (s : State) (off : Nat) (v : Word) : Prop :=
  ∀ rest, step { s with host := .read (Config.base + off) 4 :: rest } = .next { s with host := rest, lastRead := some v }

/-! The streams as bits. -/

/-- R61: the bits of bytes, in stream order. -/
def streamBits (l : List Byte) : List Bool := l.flatMap bitsOf

/-- R50: the bits of RBUF not yet consumed, RBUF[8 - RCNT] first. -/
def InPort.bufferedBits (p : InPort) : List Bool := (bitsOf p.rbuf).drop (8 - p.rcnt.toNat)

/-- The bits ReadBit has still to give. -/
def InPort.bits (p : InPort) : List Bool := p.bufferedBits ++ streamBits p.rest

/-- R49: the bits accumulated in WBUF. -/
def OutPort.pendingBits (o : OutPort) : List Bool := (bitsOf o.wbuf).take o.wcnt.toNat

/-- Every bit written to the output so far. -/
def OutPort.bits (o : OutPort) : List Bool := streamBits o.data ++ o.pendingBits

/-- The zero bits that fill the last byte (R90, R125 (4)). -/
def padding (l : List Bool) : List Bool := List.replicate ((8 - l.length % 8) % 8) false

/-- WBUF[7:WCNT] = 0 (R49). -/
abbrev OutPort.ZeroAbove (o : OutPort) : Prop := o.wbuf.toNat < 2 ^ o.wcnt.toNat

/-- R42, R51: OUT_CNT counts up by the bytes appended. -/
def OutPort.CountsFrom (o q : OutPort) : Prop :=
  ∃ l, q.data = o.data ++ l ∧ q.cnt = o.cnt + BitVec.ofNat 64 l.length

/-- What a run of writes does to the output port: it appends bits, keeps the writer well formed and OUT_CLOSED, and
counts what it appends. -/
structure OutPort.Appends (o : OutPort) (l : List Bool) (q : OutPort) : Prop where
  bits : q.bits = o.bits ++ l
  closed : q.closed = o.closed
  zeroAbove : o.ZeroAbove → q.ZeroAbove
  counts : o.CountsFrom q

/-- The inputs that IN_POS can count (log 14). -/
def InPort.Short (p : InPort) : Prop := p.data.length < 2 ^ 64

/-- The bits are those of `l` cut off before the end. -/
def CutShort (x l : List Bool) : Prop := x <+: l ∧ x.length < l.length

/-! Trees. -/

/-- A strict binary tree with a byte at each leaf and the slot of each internal node. -/
inductive Shape where
  | leaf (b : Byte)
  | node (i : NodeIdx) (l r : Shape)
  deriving DecidableEq, Repr

/-- R44: the slot of the root of a shape. -/
def Shape.index : Shape → NodeIdx
  | .leaf b => leafIdx b
  | .node i _ _ => i

/-- The leaf bytes, left to right. -/
def Shape.leaves : Shape → List Byte
  | .leaf b => [b]
  | .node _ l r => l.leaves ++ r.leaves

/-- The slots of the internal nodes, in pre-order. -/
def Shape.internals : Shape → List NodeIdx
  | .leaf _ => []
  | .node i l r => i :: (l.internals ++ r.internals)

/-- Every slot of a shape. -/
def Shape.slots (sh : Shape) : List NodeIdx := sh.leaves.map leafIdx ++ sh.internals

/-- R113: the tree section, pre-order: 0 and the byte for a leaf, 1 and the two children for an internal node. -/
def Shape.preorder : Shape → List Bool
  | .leaf b => false :: bitsOf b
  | .node _ l r => true :: (l.preorder ++ r.preorder)

/-- R121: the choices on the path from the root down to the leaf of b, 1 for RIGHT. -/
def Shape.path : Shape → Byte → Option (List Bool)
  | .leaf c, b => if c = b then some [] else none
  | .node _ l r, b =>
    match l.path b with
    | some p => some (false :: p)
    | none => (r.path b).map (true :: ·)

/-- R118: the code of b, empty where b has no leaf. -/
def Shape.codeFor (sh : Shape) (b : Byte) : List Bool := (sh.path b).getD []

/-- The node reached from `n` by a sequence of choices, 1 for RIGHT. -/
def Tree.follow (t : Tree) : NodeIdx → List Bool → NodeIdx
  | n, [] => n
  | n, b :: l => t.follow (if b then (t.nodeAt n).right else (t.nodeAt n).left) l

/-- R117: the same tree but for the slots of internal nodes. -/
def Shape.same : Shape → Shape → Bool
  | .leaf b, .leaf c => b == c
  | .node _ l r, .node _ l' r' => l.same l' && r.same r'
  | .leaf _, .node _ _ _ => false
  | .node _ _ _, .leaf _ => false

/-- R45, R53 (1): the store holds the shape below the parent `p` (none for the root): each leaf a valid leaf slot with
no links, each internal node a valid slot above 255 whose children are the two shapes below it, each with the parent
link that R45 gives it. -/
def Shape.Holds (t : Tree) : Option NodeIdx → Shape → Prop
  | p, .leaf b =>
    (t.nodeAt (leafIdx b)).valid = true ∧ (t.nodeAt (leafIdx b)).internal = false ∧
      (t.nodeAt (leafIdx b)).left = 0#9 ∧ (t.nodeAt (leafIdx b)).right = 0#9 ∧
      (t.nodeAt (leafIdx b)).hasParent = p.isSome ∧ (t.nodeAt (leafIdx b)).parent = p.getD 0#9
  | p, .node i l r =>
    256 ≤ i.toNat ∧ (t.nodeAt i).valid = true ∧ (t.nodeAt i).internal = true ∧
      (t.nodeAt i).left = l.index ∧ (t.nodeAt i).right = r.index ∧
      (t.nodeAt i).hasParent = p.isSome ∧ (t.nodeAt i).parent = p.getD 0#9 ∧
      Shape.Holds t (some i) l ∧ Shape.Holds t (some i) r

/-- R53 (1): the store is the tree `sh` and nothing else. -/
structure Tree.Is (t : Tree) (sh : Shape) : Prop where
  rootValid : t.rootValid = true
  root : t.root = sh.index
  holds : sh.Holds t none
  leavesDistinct : sh.leaves.Nodup
  internalsDistinct : sh.internals.Nodup
  /-- Every valid node is reachable from ROOT. -/
  reachable : ∀ n, (t.nodeAt n).valid = true → n ∈ sh.slots
  /-- R45: an invalid slot has every field 0. -/
  invalidEmpty : ∀ n, (t.nodeAt n).valid = false → t.nodeAt n = Node.empty
  nint : t.nint.toNat = sh.internals.length
  nleaf : t.nleaf.toNat = sh.leaves.length

/-- R53 (1), (2): with ROOT_VALID = 1 a strict binary tree, with ROOT_VALID = 0 nothing at all. -/
def Tree.Wf (t : Tree) : Prop := if t.rootValid then ∃ sh, t.Is sh else t = Tree.empty

/-- R47, R121: the table holds the codes of a shape. -/
def Codes.Hold (c : Codes) (sh : Shape) : Prop :=
  ∀ b, c.lenAt b = BitVec.ofNat 8 (sh.codeFor b).length ∧ c.bitsAt b = ofBits 256 (sh.codeFor b)

/-- R53 (3), R48: a valid code table is that of the current tree, an invalid one is all 0. -/
def State.CodesWf (s : State) : Prop :=
  if s.codes.valid then ∃ sh, s.tree.Is sh ∧ s.codes.Hold sh else s.codes = Codes.empty

/-! The tree section of an archive as it is read (R114). -/

/-- R114: what one call of Des reads: the marker of an internal node, or a leaf's marker and its byte. -/
inductive Mark where
  | inner
  | leaf (b : Byte)
  deriving DecidableEq, Repr

/-- R113: the bits of a mark. -/
def Mark.bits : Mark → List Bool
  | .inner => [true]
  | .leaf b => false :: bitsOf b

/-- The bytes of the leaves among marks, in order. -/
def leafMarks : List Mark → List Byte
  | [] => []
  | .inner :: l => leafMarks l
  | .leaf b :: l => b :: leafMarks l

/-- The number of internal nodes among marks. -/
def innerMarks : List Mark → Nat
  | [] => 0
  | .inner :: l => innerMarks l + 1
  | .leaf _ :: l => innerMarks l

/-- R114: marks that DES_TREE takes without an error and that are no whole tree yet. -/
structure Unfinished (l : List Mark) : Prop where
  /-- A tree is whole as soon as its leaves are one more than its internal nodes. -/
  needs : ∀ m ∈ l.inits, (leafMarks m).length ≤ innerMarks m
  distinct : (leafMarks l).Nodup
  room : innerMarks l ≤ 255

/-- R114: the bits end where a marker or a leaf's byte cannot be read. -/
def TreeCut (x : List Bool) : Prop :=
  ∃ (l : List Mark) (r : List Bool), Unfinished l ∧ x = l.flatMap Mark.bits ++ r ∧ (r = [] ∨ ∃ v, r = false :: v ∧ v.length < 8)

/-- R114: the bits hold a 256th internal node or a leaf's byte a second time, and `rest` follows. -/
def TreeCorrupt (x rest : List Bool) : Prop :=
  ∃ (l : List Mark) (m : Mark), Unfinished l ∧ x = l.flatMap Mark.bits ++ m.bits ++ rest ∧
    ((m = .inner ∧ innerMarks l = 255) ∨ ∃ b ∈ leafMarks l, m = .leaf b)

/-- R127: the bits are a tree, the codes of the bytes of `l` and a code cut short. -/
def ContentCut (x : List Bool) (sh : Shape) (l : List Byte) : Prop :=
  sh.leaves.Nodup ∧ (∀ c ∈ l, c ∈ sh.leaves) ∧
    ∃ b ∈ sh.leaves, ∃ y, x = sh.preorder ++ l.flatMap sh.codeFor ++ y ∧ CutShort y (sh.codeFor b)

/-! The adapter. -/

/-- R53 (4), R50: an aligned reader shows RBUF = 0. -/
def InPort.Wf (p : InPort) : Prop := p.rcnt = 0#3 → p.rbuf = 0#8

/-- R51, R138 (3): the counter of IN_POS stands in the input. No command leaves it; the host's load of an input that ends
before it does (log 15). -/
def InPort.InRange (p : InPort) : Prop := p.pos.toNat ≤ p.data.length

/-- R53 (4), R49, R90, R51: WBUF[7:WCNT] = 0, a closed output has no partial byte, and OUT_CNT counts no more bytes than
OUT_DATA has. -/
structure OutPort.Wf (o : OutPort) : Prop where
  zeroAbove : o.wbuf.toNat < 2 ^ o.wcnt.toNat
  closedAligned : o.closed = true → o.wcnt = 0#3
  counted : o.cnt.toNat ≤ o.data.length

/-- R29 to R32, R81, R142: codes 9 to 15 do not occur, a running command shows no result, and TRUNCATED_ARCHIVE comes
with EOF. -/
structure Status.Wf (st : Status) : Prop where
  errcode : st.errcode.toNat ≤ 8
  running : st.busy = true → st.done = false ∧ st.errcode = 0#4 ∧ st.eof = false
  truncated : st.errcode = 2#4 → st.eof = true

/-- R53, the invariants of R51 and the bounds of STATUS: what holds between any two turns. -/
structure State.Inv (s : State) : Prop where
  status : s.status.Wf
  inp : s.inp.Wf
  /-- R51, R138 (3). -/
  inRange : s.inp.position.toNat ≤ s.inp.data.length
  out : s.out.Wf
  tree : s.tree.Wf
  codes : s.CodesWf

/-- A step that no walk of the tree stops (R18, R140). -/
def safeStep (s : State) : Prop := step s ≠ .fault .walkOverflow

/-- The number of byte values that occur (R109's L). -/
def symbolCount (f : Vector Dword 256) : Nat := (allBytes.filter fun b => freqAt f b ≠ 0#64).length


end Sys2Proof.Machine
end

