-- ==== Sys2Proof/Certificates/Slice0/Obligations.lean ====
section
/-! DEFINITION. The statements for the provers, in the order of the rules they rest on (OBLIGATIONS.json). -/

open Sys2Proof Sys2Proof.Machine

/-! Command words (spec/30_encoding.md). -/

/-- R76, R77, R79: words written out from the fields and the opcode map, of every family and every operand class, and
what they stand for. -/
def Obligations.DecodeSamples : Prop :=
  decode 0x00000000#32 = .ok .nop ∧ decode 0x00000001#32 = .ok .encode ∧ decode 0x00000002#32 = .ok .decode ∧
    decode 0x00000003#32 = .ok .clear ∧ decode 0x00000008#32 = .ok .openStreams ∧
    decode 0x00000009#32 = .ok .seekIn ∧ decode 0x00000110#32 = .ok (.wrBit true) ∧
    decode 0x0000FF11#32 = .ok (.wrByte 0xFF#8) ∧ decode 0x00000020#32 = .ok .count ∧
    decode 0x00000028#32 = .ok .serTree ∧ decode 0x00004131#32 = .ok (.encSym 0x41#8) ∧
    decode 0x00004138#32 = .ok (.peekFreq 0x41#8) ∧ decode 0x0001FE39#32 = .ok (.peekNode 510#9) ∧
    decode 0x0006413A#32 = .ok (.peekCode 0x41#8 3#2)

/-- R76, R77, R79: the decoder gives back every command from its word, with every operand at every value. -/
def Obligations.DecodeEncode : Prop := ∀ i : Instr, i.WellFormed → decode (encode i) = .ok i

/-- R76, R77, R79: each word that decodes is the one word of its command, and its operands are legal. -/
def Obligations.DecodeOnlyEncoded : Prop :=
  ∀ (w : Word) (i : Instr), decode w = .ok i → i.WellFormed ∧ encode i = w

/-- R80: the mask and match rows and the one exclusion are exactly the legal words. -/
def Obligations.LegalByMaskAndMatch : Prop :=
  ∀ w : Word, (∃ i, decode w = .ok i) ↔ (∃ r ∈ maskMatch, w &&& r.1 = r.2) ∧ w ≠ 0x0001FF39#32

/-- R82, R83: an illegal word completes with code 7 and changes nothing else; a legal one runs its command. -/
def Obligations.IllegalWordOnlyReports : Prop :=
  ∀ s : State, s.coreMoves = true →
    (¬ LegalWord s.latch →
      step s = .next { s with status := { s.status with busy := false, done := true, errcode := 7#4 } }) ∧
    (LegalWord s.latch → ∃ i, decode s.latch = .ok i ∧ encode i = s.latch ∧ step s = exec i s)

/-- R81, R82 (log 2, log 3): when the word in the latch decodes to a command and the CORE moves, one step is exec of that
command, with nothing added; and that is the step that withFetchWord prepares. -/
def Obligations.StepRunsDecodedCommand : Prop :=
  (∀ (s : State) (i : Instr), s.status.busy = true → (s.host = [] ∨ ∃ rest, s.host = .wait :: rest) →
    decode s.latch = .ok i → step s = exec i s) ∧
  ∀ (s : State) (i : Instr), i.WellFormed →
    step (s.withFetchWord 32 (encode i).toNat) =
      exec i { s with
        latch := encode i
        status := { s.status with busy := true, done := false, errcode := 0#4, eof := false }
        host := .wait :: s.host }

/-- R81: a write of CMD with BUSY = 0 issues the command, with BUSY = 1 it is refused; and then the CORE's step decodes the
latch and executes it. -/
def Obligations.CommandIssue : Prop :=
  (∀ (s : State) (v : Word) (rest : List HostAction), s.host = .write (Config.base + 0x04) 4 v :: rest →
    (s.status.busy = false →
      step s = .next { s with
        host := rest
        latch := v
        status := { s.status with busy := true, done := false, errcode := 0#4, eof := false } }) ∧
    (s.status.busy = true →
      step s = .next { s with host := rest, status := { s.status with overrun := true } })) ∧
  ∀ s : State, s.coreMoves = true →
    step s =
      match decode s.latch with
      | .ok i => exec i s
      | .error _ => .next { s with status := { s.status with busy := false, done := true, errcode := 7#4 } }

/-! Registers (spec/10_state.md, spec/20_memory.md). -/

/-- R33: writes refused while BUSY = 1 set OVERRUN and are discarded; OVERRUN stays until CLEAR or reset. -/
def Obligations.OverrunSticky : Prop :=
  (∀ (s : State) (off : Nat) (v : Word) (rest : List HostAction), s.status.busy = true →
    off ∈ [0x04, 0x10, 0x14] → s.host = .write (Config.base + off) 4 v :: rest →
    step s = .next { s with host := rest, status := { s.status with overrun := true } }) ∧
  (∀ s t : State, step s = .next t → s.status.overrun = true → t.status.overrun = false →
    (s.coreMoves = true ∧ decode s.latch = .ok .clear) ∨ (s.coreMoves = false ∧ ∃ rest, s.host = .reset :: rest)) ∧
  (∀ s t : State, exec .clear s = .next t → t.status.overrun = false) ∧
  ∀ (s : State) (rest : List HostAction), s.host = .reset :: rest → ∃ t, step s = .next t ∧ t.status.overrun = false

/-- R36, R62: the host writes the halves of DATA, no command but CLEAR changes it, no command but WR_I64 reads it, and it is
0 after reset. -/
def Obligations.DataRegister : Prop :=
  (∀ (s : State) (v : Word) (rest : List HostAction), s.status.busy = false →
    s.host = .write (Config.base + 0x10) 4 v :: rest →
    ∃ d : Dword, step s = .next { s with host := rest, data := d } ∧
      d.extractLsb' 0 32 = v ∧ d.extractLsb' 32 32 = s.data.extractLsb' 32 32) ∧
  (∀ (s : State) (v : Word) (rest : List HostAction), s.status.busy = false →
    s.host = .write (Config.base + 0x14) 4 v :: rest →
    ∃ d : Dword, step s = .next { s with host := rest, data := d } ∧
      d.extractLsb' 32 32 = v ∧ d.extractLsb' 0 32 = s.data.extractLsb' 0 32) ∧
  (∀ (i : Instr) (s t : State), exec i s = .next t → t.data = if i = .clear then 0#64 else s.data) ∧
  (∀ (i : Instr) (s t : State) (d : Dword), i ≠ .wrI64 → exec i s = .next t →
    exec i { s with data := d } = .next { t with data := if i = .clear then 0#64 else d }) ∧
  State.reset.data = 0#64

/-- R25: read-only registers and offsets with no register ignore writes; CMD and those offsets read 0; DATA reads back what
was written; reserved bits read 0; while BUSY = 1 a write to CMD or DATA only sets OVERRUN. -/
def Obligations.RegisterAccessClasses : Prop :=
  (∀ (s : State) (k : Nat) (v : Word) (rest : List HostAction), k < 64 → 4 * k ∉ [0x04, 0x10, 0x14] →
    s.host = .write (Config.base + 4 * k) 4 v :: rest → step s = .next { s with host := rest }) ∧
  (∀ (s : State) (k : Nat), s.status.busy = false → k < 64 → 4 * k ∈ [0x04, 0x0C] ∨ 0x44 ≤ 4 * k →
    ReadsAs s (4 * k) 0#32) ∧
  (∀ (s t : State) (off : Nat) (v : Word) (rest : List HostAction), s.status.busy = false → off ∈ [0x10, 0x14] →
    s.host = .write (Config.base + off) 4 v :: rest → step s = .next t → ReadsAs t off v) ∧
  (∀ s : State, s.status.busy = false →
    (∀ w, ReadsAs s 0x08 w → w.getLsbD 7 = false ∧ w.extractLsb' 12 20 = 0#20) ∧
    (∀ w, ReadsAs s 0x28 w → w.getLsbD 11 = false ∧ w.extractLsb' 29 3 = 0#3) ∧
    (∀ w, ReadsAs s 0x2C w → w.extractLsb' 3 5 = 0#5 ∧ w.extractLsb' 19 5 = 0#5)) ∧
  ∀ (s : State) (off : Nat) (v : Word) (rest : List HostAction), s.status.busy = true → off ∈ [0x04, 0x10, 0x14] →
    s.host = .write (Config.base + off) 4 v :: rest →
    step s = .next { s with host := rest, status := { s.status with overrun := true } }

/-- R25 to R42, R51, R62, R67: with BUSY = 0 every register reads the state it shows, and reading changes nothing. IN_POS
reads at most IN_LEN (R51); that it reads IN_LEN where the counter stands beyond the input is the model's choice
(DEDUCED, log 15). -/
def Obligations.IdleReads : Prop :=
  ∀ s : State, s.status.busy = false →
    ReadsAs s 0x00 0x48554646#32 ∧ ReadsAs s 0x04 0#32 ∧
    (∃ w, ReadsAs s 0x08 w ∧ w.getLsbD 0 = false ∧ w.getLsbD 1 = s.status.done ∧
      w.getLsbD 2 = decide (s.status.errcode ≠ 0#4) ∧ w.getLsbD 3 = s.status.eof ∧ w.getLsbD 4 = s.status.overrun ∧
      w.getLsbD 5 = s.out.closed ∧ w.getLsbD 6 = s.inp.seekable ∧ w.getLsbD 7 = false ∧
      w.extractLsb' 8 4 = s.status.errcode ∧ w.extractLsb' 12 20 = 0#20) ∧
    ReadsAs s 0x10 (s.data.extractLsb' 0 32) ∧ ReadsAs s 0x14 (s.data.extractLsb' 32 32) ∧
    ReadsAs s 0x18 (s.result.extractLsb' 0 32) ∧ ReadsAs s 0x1C (s.result.extractLsb' 32 32) ∧
    ReadsAs s 0x20 (s.length.extractLsb' 0 32) ∧ ReadsAs s 0x24 (s.length.extractLsb' 32 32) ∧
    (∃ w, ReadsAs s 0x28 w ∧ w.extractLsb' 0 9 = s.tree.root ∧ w.getLsbD 9 = s.tree.rootValid ∧
      w.getLsbD 10 = s.codes.valid ∧ w.getLsbD 11 = false ∧ w.extractLsb' 12 8 = s.tree.nint ∧
      w.extractLsb' 20 9 = s.tree.nleaf ∧ w.extractLsb' 29 3 = 0#3) ∧
    (∃ w, ReadsAs s 0x2C w ∧ w.extractLsb' 0 3 = s.out.wcnt ∧ w.extractLsb' 3 5 = 0#5 ∧
      w.extractLsb' 8 8 = s.out.wbuf ∧ w.extractLsb' 16 3 = s.inp.rcnt ∧ w.extractLsb' 19 5 = 0#5 ∧
      w.extractLsb' 24 8 = s.inp.rbuf) ∧
    (∃ p : Dword, ReadsAs s 0x30 (p.extractLsb' 0 32) ∧ ReadsAs s 0x34 (p.extractLsb' 32 32) ∧
      p.toNat ≤ s.inp.data.length ∧ (s.inp.pos.toNat ≤ s.inp.data.length → p = s.inp.pos) ∧
      (s.inp.data.length < s.inp.pos.toNat → p.toNat = s.inp.data.length)) ∧
    ReadsAs s 0x38 (s.out.cnt.extractLsb' 0 32) ∧ ReadsAs s 0x3C (s.out.cnt.extractLsb' 32 32) ∧
    ReadsAs s 0x40 s.aux

/-- R29, R67 (H6 of R161; log 6, log 7): a read while BUSY = 1 changes nothing of HCORE, and a read of STATUS shows BUSY and
DONE as they are. Nothing is said of the other bits, nor of the other registers. -/
def Obligations.BusyReads : Prop :=
  ∀ (s : State) (k : Nat) (rest : List HostAction), s.status.busy = true → k < 64 →
    s.host = .read (Config.base + 4 * k) 4 :: rest →
    ∃ w : Word, step s = .next { s with host := rest, lastRead := some w, draws := s.draws + 1 } ∧
      (4 * k = 0x08 → w.getLsbD 0 = true ∧ w.getLsbD 1 = s.status.done)

/-- R55, R161 (log 9, log 10): what the host must not do stops the run. A bus access of another width, or inside the window
at an offset that is no multiple of 4, is refused, reads and writes alike; loading the input or copying the output while a
command runs is no move. -/
def Obligations.HostStops : Prop :=
  (∀ (s : State) (addr size : Nat) (v : Word) (rest : List HostAction), size ≠ 4 →
    (s.host = .read addr size :: rest ∨ s.host = .write addr size v :: rest) →
    step s = .refused .busAccessSize) ∧
  (∀ (s : State) (off : Nat) (v : Word) (rest : List HostAction), off < 256 → off % 4 ≠ 0 →
    (s.host = .read (Config.base + off) 4 :: rest ∨ s.host = .write (Config.base + off) 4 v :: rest) →
    step s = .refused .busAccessMisaligned) ∧
  (∀ (s : State) (l : List Byte) (seek : Bool) (rest : List HostAction), s.status.busy = true →
    s.host = .loadIn l seek :: rest → step s = .fault .loadWhileBusy) ∧
  ∀ (s : State) (rest : List HostAction), s.status.busy = true → s.host = .copyOut :: rest →
    step s = .fault .copyWhileBusy

/-! Reset (spec/70_reset_and_hazards.md). -/

/-- R158 (log 11 for an abandoned command): reset puts every piece of HCORE state into the table's value, whatever the
state. IN_DATA and IN_SEEKABLE stay, and OUT_DATA stays when no command runs. When one is abandoned, OUT_DATA is what it
was or some of what the command would have made of it, and what a command that does not truncate found there stays. -/
def Obligations.ResetEvent : Prop :=
  ∀ (s : State) (rest : List HostAction), s.host = .reset :: rest →
    ∃ t, step s = .next t ∧
      t.latch = 0#32 ∧ t.status = ⟨false, false, false, false, 0#4⟩ ∧ t.data = 0#64 ∧ t.result = 0#64 ∧ t.aux = 0#32 ∧
      t.length = 0#64 ∧ (∀ b, freqAt t.freq b = 0#64) ∧ (∀ n, t.tree.nodeAt n = Node.empty) ∧ t.tree.root = 0#9 ∧
      t.tree.rootValid = false ∧ t.tree.nint = 0#8 ∧ t.tree.nleaf = 0#9 ∧
      (∀ b, t.codes.lenAt b = 0#8 ∧ t.codes.bitsAt b = 0#256) ∧ t.codes.valid = false ∧
      t.inp = { s.inp with pos := 0#64, rbuf := 0#8, rcnt := 0#3 } ∧ t.out.cnt = 0#64 ∧ t.out.closed = false ∧
      t.out.wbuf = 0#8 ∧ t.out.wcnt = 0#3 ∧ t.host = rest ∧ ReadsAs t 0x00 0x48554646#32 ∧
      (s.status.busy = false → t.out.data = s.out.data) ∧
      (t.out.data = s.out.data ∨ ∃ u, coreTurn { s with host := rest } = .next u ∧ t.out.data <+: u.out.data) ∧
      (truncates s.latch = false → s.out.data <+: t.out.data)

/-- R158: the state after reset, register by register as the host reads it (log 5 for IN_SEEKABLE, which is the host's and
which the model takes to be 0). -/
def Obligations.ResetReads : Prop :=
  ReadsAs State.reset 0x00 0x48554646#32 ∧ ∀ k, k < 64 → k ≠ 0 → ReadsAs State.reset (4 * k) 0#32

/-- R159 (log 26), with the command latch (0 after reset, the word of CLEAR after the commands) set aside as well as STATUS.DONE and
OUT_DATA: what reset leaves is what OPEN and then CLEAR leave. -/
def Obligations.ResetIsOpenThenClear : Prop :=
  ∀ (s : State) (rest : List HostAction), s.status.busy = false → s.host = .reset :: rest →
    ∃ a b, exec .openStreams ({ s with host := rest }.issue (encode .openStreams)) = .next a ∧
      exec .clear (a.issue (encode .clear)) = .next b ∧
      step s = .next { b with
        latch := 0#32
        status := { b.status with done := false }
        out := { b.out with data := s.out.data } }

/-! What every command leaves (spec/60_exceptions.md, spec/10_state.md). -/

/-- R30, R31, R142, R144: a command that ends has cleared BUSY and set DONE, ERRCODE is at most 8, and the latch, the
host's side of the input and the model's own fields are as they were. IN_POS stays in the input (R51, R138). -/
def Obligations.Completion : Prop :=
  ∀ (i : Instr) (s t : State), exec i s = .next t →
    t.status.busy = false ∧ t.status.done = true ∧ t.status.errcode.toNat ≤ 8 ∧ t.latch = s.latch ∧
      t.inp.data = s.inp.data ∧ t.inp.seekable = s.inp.seekable ∧ t.host = s.host ∧ t.lastRead = s.lastRead ∧
      t.hostCopy = s.hostCopy ∧ t.draws = s.draws ∧
      (s.inp.pos.toNat ≤ s.inp.data.length → t.inp.pos.toNat ≤ t.inp.data.length)

/-- R32, R33, R36 to R39, R43, R47, R48, R51, R54: which commands write which state; every other command leaves it. OUT_DATA is
only appended to, but for the three commands that open the output. -/
def Obligations.WritersOfState : Prop :=
  ∀ (i : Instr) (s t : State), exec i s = .next t →
    (i ≠ .clear → t.status.overrun = s.status.overrun ∧ t.data = s.data) ∧
    (i ∉ [.rdBit, .rdByte, .rdI64, .desTree, .decSym, .encode, .decode] → t.status.eof = s.status.eof) ∧
    ((i ∉ [.rdBit, .rdByte, .rdI64, .decSym, .clear] ∧ (∀ b, i ≠ .peekFreq b) ∧ (∀ n, i ≠ .peekNode n) ∧
      ∀ b w, i ≠ .peekCode b w) → t.result = s.result) ∧
    ((i ≠ .clear ∧ (∀ b, i ≠ .peekFreq b) ∧ (∀ n, i ≠ .peekNode n) ∧ ∀ b w, i ≠ .peekCode b w) → t.aux = s.aux) ∧
    (i ∉ [.count, .encode, .decode, .clear] → t.length = s.length) ∧
    (i ∉ [.count, .encode, .clear] → t.freq = s.freq) ∧
    (i ∉ [.count, .build, .desTree, .encode, .decode, .clear] → t.tree = s.tree) ∧
    (i ∉ [.count, .build, .desTree, .codes, .encode, .decode, .clear] → t.codes = s.codes) ∧
    (i ∉ [.openStreams, .seekIn, .rdBit, .rdByte, .rdI64, .count, .desTree, .decSym, .encode, .decode] →
      t.inp = s.inp) ∧
    ((i ∉ [.openStreams, .wrI64, .wrClose, .serTree, .encode, .decode] ∧ (∀ b, i ≠ .wrBit b) ∧ (∀ b, i ≠ .wrByte b) ∧
      ∀ b, i ≠ .encSym b) → t.out = s.out) ∧
    (i ∉ [.openStreams, .encode, .decode] → s.out.data <+: t.out.data)

/-- R70, R157 (R86 and H8, H10 of R161 for the host's two moves): with BUSY = 0 only reset changes a table, RESULT, AUX,
LENGTH, the output port, the counter of IN_POS (R151) or a bit buffer; and with nothing to come HCORE keeps all
state. -/
def Obligations.IdleKeepsState : Prop :=
  (∀ s t : State, s.status.busy = false → step s = .next t → (∀ rest, s.host ≠ .reset :: rest) →
    t.result = s.result ∧ t.aux = s.aux ∧ t.length = s.length ∧ t.freq = s.freq ∧ t.tree = s.tree ∧
      t.codes = s.codes ∧ t.out = s.out ∧ t.inp.pos = s.inp.pos ∧ t.inp.rbuf = s.inp.rbuf ∧ t.inp.rcnt = s.inp.rcnt) ∧
  (∀ s : State, s.status.busy = false → s.host = [] → step s = .next s) ∧
  (∀ (s : State) (l : List Byte) (seek : Bool) (rest : List HostAction), s.status.busy = false →
    s.host = .loadIn l seek :: rest →
    step s = .next { s with host := rest, inp := { s.inp with data := l, seekable := seek } }) ∧
  ∀ (s : State) (rest : List HostAction), s.status.busy = false → s.host = .copyOut :: rest →
    step s = .next { s with host := rest, hostCopy := s.out.data }

/-! Invariants (spec/10_state.md R53). -/

/-- The reset state meets the invariant. -/
def Obligations.ResetMeetsInv : Prop := State.reset.Inv

/-- R53, R51, R142: whatever turn is taken, the CORE's or the host's, the invariant is kept. -/
def Obligations.StepKeepsInv : Prop := ∀ s t : State, s.Inv → step s = .next t → t.Inv

/-- R53, R51: what the invariant says of the tree, the codes, the bit adapter and IN_POS, clause by clause in the rules'
own terms. -/
def Obligations.InvGivesR53 : Prop :=
  ∀ s : State, s.Inv →
    (s.tree.rootValid = true →
      (s.tree.nodeAt s.tree.root).valid = true ∧ (s.tree.nodeAt s.tree.root).hasParent = false ∧
      (∀ n, (s.tree.nodeAt n).valid = true → ∃ l, s.tree.follow s.tree.root l = n) ∧
      (∀ n, (s.tree.nodeAt n).valid = true → (s.tree.nodeAt n).internal = true →
        ∀ m ∈ [(s.tree.nodeAt n).left, (s.tree.nodeAt n).right],
          (s.tree.nodeAt m).valid = true ∧ (s.tree.nodeAt m).hasParent = true ∧ (s.tree.nodeAt m).parent = n) ∧
      s.tree.nleaf.toNat = s.tree.nint.toNat + 1 ∧
      s.tree.nleaf.toNat = (allBytes.filter fun b => (s.tree.nodeAt (leafIdx b)).valid).length) ∧
    (s.tree.rootValid = false →
      (∀ n, (s.tree.nodeAt n).valid = false) ∧ s.tree.nint = 0#8 ∧ s.tree.nleaf = 0#9) ∧
    (s.codes.valid = true → s.tree.rootValid = true ∧ codesOf s.tree = some s.codes) ∧
    (∀ i, s.out.wcnt.toNat ≤ i → s.out.wbuf.getLsbD i = false) ∧ (s.inp.rcnt = 0#3 → s.inp.rbuf = 0#8) ∧
    s.inp.position.toNat ≤ s.inp.data.length

/-- R140, R144: from every state that meets the invariant every command ends, and so does every word in the latch: a WAIT
loop ends. -/
def Obligations.EveryCommandCompletes : Prop :=
  (∀ (i : Instr) (s : State), s.Inv → ∃ t, exec i s = .next t) ∧
  ∀ s : State, s.Inv → s.coreMoves = true → ∃ t, step s = .next t ∧ t.status.busy = false ∧ t.status.done = true

/-! The bitstream adapter (spec/40_bitstream.md). -/

/-- R94: the fast paths are the bit paths, for a writer and a reader that keep R53 (4). -/
def Obligations.FastPathsInvisible : Prop :=
  (∀ (o : OutPort) (v : Byte), o.ZeroAbove → o.writeByte v = o.writeBits (bitsOf v)) ∧
  (∀ (o : OutPort) (v : Dword), o.ZeroAbove → o.writeInt64 v = o.writeBits (bitsOf v)) ∧
  (∀ p : InPort, p.Wf → p.readByte = ((p.readBits 8).1.map (ofBits 8), (p.readBits 8).2)) ∧
  ∀ p : InPort, p.Wf → p.readInt64 = ((p.readBits 64).1.map (ofBits 64), (p.readBits 64).2)

/-- R95 OPEN and R96, R58 SEEK_IN. -/
def Obligations.OpenAndSeekIn : Prop :=
  encode .openStreams = 0x00000008#32 ∧ encode .seekIn = 0x00000009#32 ∧
  ∀ s : State,
    exec .openStreams s = .next ({ s with
      inp := { s.inp with pos := 0#64, rbuf := 0#8, rcnt := 0#3 }
      out := { data := [], cnt := 0#64, closed := false, wbuf := 0#8, wcnt := 0#3 } }.complete .ok) ∧
    (s.inp.seekable = true →
      exec .seekIn s = .next ({ s with inp := { s.inp with pos := 0#64, rbuf := 0#8, rcnt := 0#3 } }.complete .ok)) ∧
    (s.inp.seekable = false → exec .seekIn s = .next (s.complete .unseekableInput))

/-- R87, R97 WR_BIT: the bit goes to WBUF[WCNT], and the eighth bit sends the byte to the stream. -/
def Obligations.WrBitCommand : Prop :=
  encode (.wrBit false) = 0x00000010#32 ∧ encode (.wrBit true) = 0x00000110#32 ∧
  ∀ (s : State) (bit : Bool),
    (s.out.closed = true → exec (.wrBit bit) s = .next (s.complete .badState)) ∧
    (s.out.closed = false →
      ∃ v : Byte, (∀ i, i < 8 → v.getLsbD i = if i = s.out.wcnt.toNat then bit else s.out.wbuf.getLsbD i) ∧
        (s.out.wcnt = 7#3 →
          exec (.wrBit bit) s = .next ({ s with
            out := { s.out with data := s.out.data ++ [v], cnt := s.out.cnt + 1#64, wbuf := 0#8, wcnt := 0#3 }
            }.complete .ok)) ∧
        (s.out.wcnt ≠ 7#3 →
          exec (.wrBit bit) s = .next ({ s with
            out := { s.out with wbuf := v, wcnt := s.out.wcnt + 1#3 } }.complete .ok)))

/-- R88, R98 WR_BYTE, for a writer that keeps R53 (4): aligned, the byte itself is appended; with k bits waiting, one byte
is appended, those bits below the low part of b, and the high k bits of b wait. -/
def Obligations.WrByteCommand : Prop :=
  (∀ b : Byte, encode (.wrByte b) = 0x00000011#32 ||| (b.setWidth 32 <<< 8)) ∧
  ∀ (s : State) (b : Byte),
    (s.out.closed = true → exec (.wrByte b) s = .next (s.complete .badState)) ∧
    (s.out.closed = false → s.out.wcnt = 0#3 →
      exec (.wrByte b) s = .next ({ s with
        out := { s.out with data := s.out.data ++ [b], cnt := s.out.cnt + 1#64 } }.complete .ok)) ∧
    (s.out.closed = false → s.out.wcnt ≠ 0#3 → s.out.ZeroAbove →
      exec (.wrByte b) s = .next ({ s with
        out := { s.out with
          data := s.out.data ++ [s.out.wbuf ||| (b <<< s.out.wcnt.toNat)]
          cnt := s.out.cnt + 1#64
          wbuf := b >>> (8 - s.out.wcnt.toNat) } }.complete .ok))

/-- R59, R89, R99 WR_I64: eight bytes are appended, their bits (after those waiting) being DATA's, least significant first,
and DATA stays; aligned they are DATA's bytes, byte k holding bits 8k+7 : 8k. -/
def Obligations.WrI64Command : Prop :=
  encode .wrI64 = 0x00000012#32 ∧
  ∀ s : State,
    (s.out.closed = true → exec .wrI64 s = .next (s.complete .badState)) ∧
    (s.out.closed = false → s.out.ZeroAbove →
      ∃ o, exec .wrI64 s = .next ({ s with out := o }.complete .ok) ∧ s.out.Appends (bitsOf s.data) o ∧
        o.data.length = s.out.data.length + 8 ∧ o.wcnt = s.out.wcnt ∧
        (s.out.wcnt = 0#3 → o.wbuf = s.out.wbuf ∧
          ∀ k, k < 8 → o.data[s.out.data.length + k]? = some (s.data.extractLsb' (8 * k) 8)))

/-- R90, R100 WR_CLOSE: a partial byte is flushed with zero padding and the output is closed; closing again changes
nothing. -/
def Obligations.WrCloseCommand : Prop :=
  encode .wrClose = 0x00000013#32 ∧
  (∀ s : State, s.out.ZeroAbove →
    ∃ o, exec .wrClose s = .next ({ s with out := o }.complete .ok) ∧ o.bits = s.out.bits ++ padding s.out.bits ∧
      o.closed = true ∧ o.wcnt = 0#3 ∧ s.out.CountsFrom o ∧
      o.data = (if s.out.wcnt = 0#3 then s.out.data else s.out.data ++ [s.out.wbuf]) ∧
      o.wbuf = (if s.out.wcnt = 0#3 then s.out.wbuf else 0#8)) ∧
  ∀ s : State, s.out.Wf → s.out.closed = true → exec .wrClose s = .next (s.complete .ok)

/-- R91, R101 RD_BIT: a buffered bit, else bit 0 of the next byte, else EOF. -/
def Obligations.RdBitCommand : Prop :=
  encode .rdBit = 0x00000018#32 ∧
  ∀ s : State,
    (s.inp.rcnt ≠ 0#3 →
      exec .rdBit s = .next ({ s with
        result := if s.inp.rbuf.getLsbD (8 - s.inp.rcnt.toNat) then 1#64 else 0#64
        inp := { s.inp with
          rbuf := if s.inp.rcnt = 1#3 then 0#8 else s.inp.rbuf
          rcnt := s.inp.rcnt - 1#3 } }.complete .ok)) ∧
    (∀ b, s.inp.rcnt = 0#3 → s.inp.data[s.inp.pos.toNat]? = some b →
      exec .rdBit s = .next ({ s with
        result := if b.getLsbD 0 then 1#64 else 0#64
        inp := { s.inp with pos := s.inp.pos + 1#64, rbuf := b, rcnt := 7#3 } }.complete .ok)) ∧
    (s.inp.rcnt = 0#3 → s.inp.data.length ≤ s.inp.pos.toNat →
      exec .rdBit s = .next ({ s with
        result := 0#64
        status := { s.status with eof := true } }.complete .ok))

/-- R60, R92, R102 RD_BYTE, for a reader that keeps R53 (4) on an input that IN_POS can count: the next eight bits, least
significant first; with fewer, the rest is consumed and EOF is set. -/
def Obligations.RdByteCommand : Prop :=
  encode .rdByte = 0x00000019#32 ∧
  ∀ s : State, s.inp.Wf → s.inp.Short →
    (8 ≤ s.inp.bits.length →
      ∃ q v, exec .rdByte s = .next ({ s with inp := q, result := v.setWidth 64 }.complete .ok) ∧
        bitsOf (v : Byte) = s.inp.bits.take 8 ∧ q.bits = s.inp.bits.drop 8 ∧ q.rcnt = s.inp.rcnt ∧
        q.pos = s.inp.pos + 1#64 ∧ q.data = s.inp.data ∧ q.seekable = s.inp.seekable ∧ q.Wf) ∧
    (s.inp.bits.length < 8 →
      ∃ q, exec .rdByte s = .next ({ s with
          inp := q
          result := 0#64
          status := { s.status with eof := true } }.complete .ok) ∧
        q.bits = [] ∧ q.rcnt = 0#3 ∧ q.rbuf = 0#8 ∧ q.data = s.inp.data ∧ q.seekable = s.inp.seekable ∧
        q.position.toNat = s.inp.data.length ∧
        (s.inp.pos.toNat ≤ s.inp.data.length → q.pos.toNat = s.inp.data.length))

/-- R59, R60, R93, R103 RD_I64: the same with 64 bits, least significant first. LENGTH is not written. -/
def Obligations.RdI64Command : Prop :=
  encode .rdI64 = 0x0000001A#32 ∧
  ∀ s : State, s.inp.Wf → s.inp.Short →
    (64 ≤ s.inp.bits.length →
      ∃ q v, exec .rdI64 s = .next ({ s with inp := q, result := v }.complete .ok) ∧
        bitsOf (v : Dword) = s.inp.bits.take 64 ∧ q.bits = s.inp.bits.drop 64 ∧ q.rcnt = s.inp.rcnt ∧
        q.pos = s.inp.pos + 8#64 ∧ q.data = s.inp.data ∧ q.seekable = s.inp.seekable ∧ q.Wf) ∧
    (s.inp.bits.length < 64 →
      ∃ q, exec .rdI64 s = .next ({ s with
          inp := q
          result := 0#64
          status := { s.status with eof := true } }.complete .ok) ∧
        q.bits = [] ∧ q.rcnt = 0#3 ∧ q.rbuf = 0#8 ∧ q.data = s.inp.data ∧ q.seekable = s.inp.seekable ∧
        q.position.toNat = s.inp.data.length ∧
        (s.inp.pos.toNat ≤ s.inp.data.length → q.pos.toNat = s.inp.data.length))

/-! The tree builder (spec/41_tree_builder.md). -/

/-- R107, R138 (1) COUNT: the occurrences of each byte in the whole input, or BAD_LENGTH after 2^63 - 1 bytes, with the
byte after them consumed and not counted; nothing on an input that cannot seek. -/
def Obligations.CountCommand : Prop :=
  encode .count = 0x00000020#32 ∧
  ∀ s : State,
    (s.inp.seekable = false → exec .count s = .next (s.complete .unseekableInput)) ∧
    (s.inp.seekable = true → s.inp.data.length < 2 ^ 63 →
      ∃ f, exec .count s = .next ({ s with
          inp := { s.inp with pos := BitVec.ofNat 64 s.inp.data.length, rbuf := 0#8, rcnt := 0#3 }
          freq := f
          length := BitVec.ofNat 64 s.inp.data.length
          tree := Tree.empty
          codes := Codes.empty }.complete .ok) ∧
        ∀ b, (freqAt f b).toNat = s.inp.data.count b) ∧
    (s.inp.seekable = true → 2 ^ 63 ≤ s.inp.data.length →
      ∃ f, exec .count s = .next ({ s with
          inp := { s.inp with pos := BitVec.ofNat 64 (2 ^ 63), rbuf := 0#8, rcnt := 0#3 }
          freq := f
          length := BitVec.ofNat 64 (2 ^ 63 - 1)
          tree := Tree.empty
          codes := Codes.empty }.complete .badLength) ∧
        ∀ b, (freqAt f b).toNat = (s.inp.data.take (2 ^ 63 - 1)).count b)

/-- R104: Insert puts a node before the first entry of strictly greater frequency and after all others, so a queue in
ascending order stays so. -/
def Obligations.InsertStable : Prop :=
  ∀ (freqOf : NodeIdx → Dword) (n : NodeIdx) (q : List NodeIdx),
    insertQ freqOf n q =
      q.takeWhile (fun x => decide (freqOf x ≤ freqOf n)) ++ n :: q.dropWhile (fun x => decide (freqOf x ≤ freqOf n)) ∧
    (q.Pairwise (fun a c => freqOf a ≤ freqOf c) → (insertQ freqOf n q).Pairwise (fun a c => freqOf a ≤ freqOf c))

/-- R105: the initial queue holds the leaf of every byte with FREQ > 0, in ascending frequency, equal frequencies in
ascending byte value. -/
def Obligations.InitialQueue : Prop :=
  ∀ (f : Vector Dword 256) (t : Tree) (q : List NodeIdx), addLeaves f allBytes (Tree.empty, []) = (t, q) →
    (∀ n, n ∈ q ↔ ∃ b, n = leafIdx b ∧ freqAt f b ≠ 0#64) ∧
    (∀ b, freqAt f b ≠ 0#64 → t.nodeAt (leafIdx b) = { Node.empty with valid := true, freq := freqAt f b }) ∧
    q.Pairwise fun m n =>
      (t.nodeAt m).freq < (t.nodeAt n).freq ∨ ((t.nodeAt m).freq = (t.nodeAt n).freq ∧ m.toNat < n.toNat)

/-- R106: a merge takes the first two entries, makes the next internal node their parent, the first one left, the second
right, with the 64-bit sum of their frequencies, and inserts it. -/
def Obligations.MergeStep : Prop :=
  ∀ (k : Nat) (t : Tree) (a c : NodeIdx) (q : List NodeIdx), t.nint ≠ 255#8 → a ≠ c →
    a.toNat < 256 + t.nint.toNat → c.toNat < 256 + t.nint.toNat →
    ∃ (u : Tree) (n : NodeIdx), n.toNat = 256 + t.nint.toNat ∧
      mergeLoop (k + 1) (t, a :: c :: q) = mergeLoop k (u, insertQ (fun i => (u.nodeAt i).freq) n q) ∧
      u.nint = t.nint + 1#8 ∧ u.nleaf = t.nleaf ∧ u.root = t.root ∧ u.rootValid = t.rootValid ∧
      u.nodeAt n = { valid := true, internal := true, freq := (t.nodeAt a).freq + (t.nodeAt c).freq, left := a,
                     right := c, parent := 0#9, hasParent := false } ∧
      u.nodeAt a = { t.nodeAt a with parent := n, hasParent := true } ∧
      u.nodeAt c = { t.nodeAt c with parent := n, hasParent := true } ∧
      ∀ m, m ≠ a → m ≠ c → m ≠ n → u.nodeAt m = t.nodeAt m

/-- R111: after any number of merges the queue is in ascending frequency, and entries of equal frequency stand in the order
they were inserted in (leaves by byte value, then internal nodes as they are made, which is the order of their
indices). So each merge takes the two lowest, the one inserted first before the other. -/
def Obligations.MergeOrder : Prop :=
  ∀ (f : Vector Dword 256) (k : Nat) (t : Tree) (q : List NodeIdx),
    mergeLoop k (addLeaves f allBytes (Tree.empty, [])) = (t, q) →
    q.Pairwise fun m n =>
      (t.nodeAt m).freq < (t.nodeAt n).freq ∨ ((t.nodeAt m).freq = (t.nodeAt n).freq ∧ m.toNat < n.toNat)

/-- R109: with L byte values that occur BUILD makes L leaves and L - 1 internal nodes, NODE[256] to NODE[256 + L - 2], the
last one the root; with L = 1 the leaf is the root, with L = 0 there is no tree. -/
def Obligations.BuildCounts : Prop :=
  ∀ s : State,
    ∃ t, exec .build s = .next ({ s with tree := t, codes := Codes.empty }.complete .ok) ∧
      t.nint.toNat = symbolCount s.freq - 1 ∧ t.nleaf.toNat = symbolCount s.freq ∧ symbolCount s.freq ≤ 256 ∧
      t.rootValid = decide (symbolCount s.freq ≠ 0) ∧
      (∀ n, 256 ≤ n.toNat → ((t.nodeAt n).valid = true ↔ n.toNat + 1 < 256 + symbolCount s.freq)) ∧
      (2 ≤ symbolCount s.freq → t.root.toNat + 2 = 256 + symbolCount s.freq) ∧
      (symbolCount s.freq = 1 → ∃ b, freqAt s.freq b ≠ 0#64 ∧ t.root = leafIdx b) ∧
      (symbolCount s.freq = 0 → t = Tree.empty)

/-- R112, R53 (1): BUILD makes a strict binary tree whose leaves are the byte values with FREQ > 0, each once. FREQ and
LENGTH stay (R108). -/
def Obligations.BuildShape : Prop :=
  encode .build = 0x00000021#32 ∧
  ∀ s : State, symbolCount s.freq ≠ 0 →
    ∃ t sh, exec .build s = .next ({ s with tree := t, codes := Codes.empty }.complete .ok) ∧ t.Is sh ∧
      (∀ b, b ∈ sh.leaves ↔ freqAt s.freq b ≠ 0#64) ∧ sh.leaves.Nodup

/-- R110, R45: after BUILD a leaf has its byte's frequency and an internal node the 64-bit sum of its children's; after a
COUNT no sum wraps, and the root's frequency is LENGTH. -/
def Obligations.BuildFrequencies : Prop :=
  (∀ s t : State, exec .build s = .next t →
    (∀ b, (t.tree.nodeAt (leafIdx b)).freq = freqAt s.freq b) ∧
    ∀ n, (t.tree.nodeAt n).internal = true →
      (t.tree.nodeAt n).freq =
        (t.tree.nodeAt (t.tree.nodeAt n).left).freq + (t.tree.nodeAt (t.tree.nodeAt n).right).freq) ∧
  ∀ s a t : State, s.inp.seekable = true → s.inp.data.length < 2 ^ 63 → s.inp.data ≠ [] → exec .count s = .next a →
    exec .build a = .next t →
    (t.tree.nodeAt t.tree.root).freq = t.length ∧
    (allBytes.map fun b => (freqAt t.freq b).toNat).sum = t.length.toNat ∧
    ∀ n, (t.tree.nodeAt n).internal = true →
      (t.tree.nodeAt n).freq.toNat =
        (t.tree.nodeAt (t.tree.nodeAt n).left).freq.toNat + (t.tree.nodeAt (t.tree.nodeAt n).right).freq.toNat

/-! The tree codec (spec/42_tree_codec.md). -/

/-- R113, R116 SER_TREE: the pre-order bits of the tree are appended, 2L - 1 markers and 8L value bits; with the output
closed or no tree nothing is written. -/
def Obligations.SerTreeCommand : Prop :=
  encode .serTree = 0x00000028#32 ∧
  (∀ s : State, s.out.closed = true ∨ s.tree.rootValid = false → exec .serTree s = .next (s.complete .badState)) ∧
  ∀ (s : State) (sh : Shape), s.out.closed = false → s.tree.Is sh →
    ∃ o, exec .serTree s = .next ({ s with out := o }.complete .ok) ∧ s.out.Appends sh.preorder o ∧
      sh.preorder.length = (2 * sh.leaves.length - 1) + 8 * sh.leaves.length

/-- R114, R115 DES_TREE: what is read is the pre-order of a tree with distinct leaves, its internal nodes numbered in
pre-order from 256, or the command fails and there is no tree: with TRUNCATED_ARCHIVE and EOF just when a marker or a
leaf's byte cannot be read, with CORRUPT_TREE just when a 256th internal node or a byte for the second time is read, at
that point. FREQ and LENGTH stay and no node has a frequency. -/
def Obligations.DesTreeCommand : Prop :=
  encode .desTree = 0x00000029#32 ∧
  ∀ s : State, s.inp.Wf → s.inp.Short →
    ((∃ q t sh, exec .desTree s = .next ({ s with inp := q, tree := t, codes := Codes.empty }.complete .ok) ∧
        t.Is sh ∧ s.inp.bits = sh.preorder ++ q.bits ∧
        sh.internals.map BitVec.toNat = List.range' 256 sh.internals.length ∧ t.nint.toNat ≤ 255 ∧
        t.nleaf.toNat = t.nint.toNat + 1 ∧ (∀ n, (t.nodeAt n).freq = 0#64) ∧ q.data = s.inp.data ∧
        q.seekable = s.inp.seekable ∧ q.Wf) ∨
      ((¬ ∃ (sh : Shape) (rest : List Bool), sh.leaves.Nodup ∧ s.inp.bits = sh.preorder ++ rest) ∧
        ∃ q : InPort, q.data = s.inp.data ∧ q.seekable = s.inp.seekable ∧ q.Wf ∧
          ((exec .desTree s = .next ({ s with
              inp := q
              tree := Tree.empty
              codes := Codes.empty
              status := { s.status with eof := true } }.complete .truncatedArchive) ∧ q.bits = []) ∨
            exec .desTree s = .next ({ s with
              inp := q
              tree := Tree.empty
              codes := Codes.empty }.complete .corruptTree)))) ∧
    (TreeCut s.inp.bits ↔
      ∃ q, exec .desTree s = .next ({ s with
          inp := q
          tree := Tree.empty
          codes := Codes.empty
          status := { s.status with eof := true } }.complete .truncatedArchive)) ∧
    ∀ rest, TreeCorrupt s.inp.bits rest ↔
      ∃ q, exec .desTree s = .next ({ s with
          inp := q
          tree := Tree.empty
          codes := Codes.empty }.complete .corruptTree) ∧ q.bits = rest

/-- R115: every bit string SER_TREE can write is accepted, and the nested reading fits the stack. -/
def Obligations.DesTreeAccepts : Prop :=
  ∀ (s : State) (sh : Shape) (rest : List Bool), s.inp.Wf → s.inp.Short → sh.leaves.Nodup →
    s.inp.bits = sh.preorder ++ rest →
    ∃ q t sh', exec .desTree s = .next ({ s with inp := q, tree := t, codes := Codes.empty }.complete .ok) ∧
      q.bits = rest ∧ t.Is sh' ∧ sh'.same sh = true ∧ sh.internals.length ≤ 255 ∧ sh.leaves.length ≤ 256 ∧
      ∀ b, (sh.codeFor b).length < Config.stackDepth

/-- R117: the bits SER_TREE writes, read by DES_TREE, give an isomorphic tree with the same codes, and nothing more than
them is read. -/
def Obligations.SerThenDes : Prop :=
  ∀ (s a u : State) (sh : Shape) (rest : List Bool), s.tree.Is sh → s.out.closed = false →
    exec .serTree s = .next a → u.inp.Wf → u.inp.Short → u.inp.bits = a.out.bits.drop s.out.bits.length ++ rest →
    ∃ v sh', exec .desTree u = .next v ∧ v.status.errcode = 0#4 ∧ v.tree.Is sh' ∧ sh'.same sh = true ∧
      v.inp.bits = rest ∧ (∀ b, sh'.codeFor b = sh.codeFor b) ∧
      u.inp.bits.length = v.inp.bits.length + (10 * sh.leaves.length - 1)

/-! The content codec (spec/43_content_codec.md). -/

/-- R118, R121 CODES: every byte's code is the sequence of choices from ROOT down to its leaf, 1 for RIGHT, empty for a byte
with no leaf; with no tree nothing changes. -/
def Obligations.CodesCommand : Prop :=
  encode .codes = 0x00000030#32 ∧
  (∀ s : State, s.tree.rootValid = false → exec .codes s = .next (s.complete .badState)) ∧
  ∀ (s : State) (sh : Shape), s.tree.Is sh →
    ∃ c, exec .codes s = .next ({ s with codes := c }.complete .ok) ∧ c.valid = true ∧
      (∀ b, c.codeOf b = sh.codeFor b ∧ (c.lenAt b).toNat = (sh.codeFor b).length ∧
        ∀ i, (c.lenAt b).toNat ≤ i → (c.bitsAt b).getLsbD i = false) ∧
      ∀ b, (s.tree.nodeAt (leafIdx b)).valid = true → s.tree.follow s.tree.root (c.codeOf b) = leafIdx b

/-- R122: with at least two leaves no code is a prefix of another's, none is empty, and the code lengths satisfy Kraft's
equation. -/
def Obligations.CodesPrefixFree : Prop :=
  ∀ s t : State, s.Inv → 2 ≤ s.tree.nleaf.toNat → exec .codes s = .next t → s.tree.rootValid = true →
    (∀ b c, (t.tree.nodeAt (leafIdx b)).valid = true → (t.tree.nodeAt (leafIdx c)).valid = true → b ≠ c →
      ¬ t.codes.codeOf b <+: t.codes.codeOf c) ∧
    (∀ b, (t.tree.nodeAt (leafIdx b)).valid = true → 1 ≤ (t.codes.codeOf b).length) ∧
    ((allBytes.filter fun b => (t.tree.nodeAt (leafIdx b)).valid).map
      fun b => (1 / 2 : ℚ) ^ (t.codes.codeOf b).length).sum = 1

/-- R119 ENC_SYM: the code of b is appended; the three errors in their order, each with nothing written. -/
def Obligations.EncSymCommand : Prop :=
  (∀ b : Byte, encode (.encSym b) = 0x00000031#32 ||| (b.setWidth 32 <<< 8)) ∧
  ∀ (s : State) (b : Byte),
    (s.out.closed = true ∨ s.codes.valid = false → exec (.encSym b) s = .next (s.complete .badState)) ∧
    (s.out.closed = false → s.codes.valid = true → (s.tree.nodeAt (leafIdx b)).valid = false →
      exec (.encSym b) s = .next (s.complete .noLeaf)) ∧
    (s.out.closed = false → s.codes.valid = true → (s.tree.nodeAt (leafIdx b)).valid = true →
      ∃ o, exec (.encSym b) s = .next ({ s with out := o }.complete .ok) ∧ s.out.Appends (s.codes.codeOf b) o)

/-- R120 DEC_SYM: the byte whose code comes next, reading just that code; with the code cut short TRUNCATED_ARCHIVE, EOF
and RESULT = 0. With no tree BAD_STATE and nothing else, as R144 and R167 have it: R37's "on failure" does not cover a
refused command, the model's reading (DEDUCED, log 16). -/
def Obligations.DecSymCommand : Prop :=
  encode .decSym = 0x00000032#32 ∧
  (∀ s : State, s.tree.rootValid = false → exec .decSym s = .next (s.complete .badState)) ∧
  (∀ (s : State) (sh : Shape) (b : Byte) (rest : List Bool), s.tree.Is sh → s.inp.Wf → s.inp.Short → b ∈ sh.leaves →
    s.inp.bits = sh.codeFor b ++ rest →
    ∃ q, exec .decSym s = .next ({ s with inp := q, result := b.setWidth 64 }.complete .ok) ∧ q.bits = rest ∧
      q.data = s.inp.data ∧ q.seekable = s.inp.seekable) ∧
  ∀ (s : State) (sh : Shape) (b : Byte), s.tree.Is sh → s.inp.Wf → s.inp.Short → b ∈ sh.leaves →
    CutShort s.inp.bits (sh.codeFor b) →
    ∃ q, exec .decSym s = .next ({ s with
        inp := q
        result := 0#64
        status := { s.status with eof := true } }.complete .truncatedArchive) ∧
      q.bits = [] ∧ q.data = s.inp.data ∧ q.seekable = s.inp.seekable

/-- R123: the bits ENC_SYM b writes, read by DEC_SYM over the same tree or one alike, give b back, and just those bits are
consumed. -/
def Obligations.EncSymThenDecSym : Prop :=
  ∀ (s a u : State) (sh sh' : Shape) (b : Byte) (rest : List Bool), s.Inv → s.tree.Is sh → u.tree.Is sh' →
    sh'.same sh = true → exec (.encSym b) s = .next a → a.status.errcode = 0#4 → u.inp.Wf → u.inp.Short →
    u.inp.bits = a.out.bits.drop s.out.bits.length ++ rest →
    ∃ v, exec .decSym u = .next v ∧ v.status.errcode = 0#4 ∧ v.result = b.setWidth 64 ∧ v.inp.bits = rest ∧
      u.inp.bits.length = v.inp.bits.length + (s.codes.lenAt b).toNat

/-- R124: DEC_SYM never ends with CORRUPT_TREE. -/
def Obligations.DecSymNeverCorrupt : Prop :=
  ∀ s : State, s.Inv → ∃ t, exec .decSym s = .next t ∧ t.status.errcode ≠ 3#4

/-! The sequencers (spec/44_sequencers.md). -/

/-- R126, R132: ENCODE on an input that cannot seek, on one that is too long, and on an empty one. -/
def Obligations.EncodeWithoutContent : Prop :=
  encode .encode = 0x00000001#32 ∧
  ∀ s : State,
    (s.inp.seekable = false →
      exec .encode s = .next ({ s with
        inp := { s.inp with pos := 0#64, rbuf := 0#8, rcnt := 0#3 }
        out := { data := [], cnt := 0#64, closed := true, wbuf := 0#8, wcnt := 0#3 }
        tree := Tree.empty
        codes := Codes.empty }.complete .unseekableInput)) ∧
    (s.inp.seekable = true → 2 ^ 63 ≤ s.inp.data.length →
      ∃ f, exec .encode s = .next ({ s with
          inp := { s.inp with pos := BitVec.ofNat 64 (2 ^ 63), rbuf := 0#8, rcnt := 0#3 }
          out := { data := [], cnt := 0#64, closed := true, wbuf := 0#8, wcnt := 0#3 }
          freq := f
          length := BitVec.ofNat 64 (2 ^ 63 - 1)
          tree := Tree.empty
          codes := Codes.empty }.complete .badLength) ∧
        ∀ b, (freqAt f b).toNat = (s.inp.data.take (2 ^ 63 - 1)).count b) ∧
    (s.inp.seekable = true → s.inp.data = [] →
      ∃ f, exec .encode s = .next ({ s with
          inp := { s.inp with pos := 0#64, rbuf := 0#8, rcnt := 0#3 }
          out := { data := List.replicate 8 0#8, cnt := 8#64, closed := true, wbuf := 0#8, wcnt := 0#3 }
          freq := f
          length := 0#64
          tree := Tree.empty
          codes := Codes.empty }.complete .ok) ∧
        ∀ b, freqAt f b = 0#64)

/-- R125, R126: the archive of an input that is not empty: header, tree, content, zero padding, and its size; with the
counts in FREQ, BUILD's tree and its codes left for inspection. -/
def Obligations.EncodeArchive : Prop :=
  ∀ s : State, s.inp.seekable = true → s.inp.data ≠ [] → s.inp.data.length < 2 ^ 63 →
    ∃ o f c sh, exec .encode s = .next ({ s with
        inp := { s.inp with pos := BitVec.ofNat 64 s.inp.data.length, rbuf := 0#8, rcnt := 0#3 }
        out := o
        freq := f
        length := BitVec.ofNat 64 s.inp.data.length
        tree := buildTree f
        codes := c }.complete .ok) ∧
      (∀ b, (freqAt f b).toNat = s.inp.data.count b) ∧ (buildTree f).Is sh ∧ c.valid = true ∧
      (∀ b, c.codeOf b = sh.codeFor b) ∧ o.closed = true ∧ o.wcnt = 0#3 ∧ o.wbuf = 0#8 ∧
      o.cnt.toNat = o.data.length ∧
      (∃ bits, bits = bitsOf (BitVec.ofNat 64 s.inp.data.length) ++ sh.preorder ++ s.inp.data.flatMap sh.codeFor ∧
        streamBits o.data = bits ++ padding bits) ∧
      o.data.length = 8 + (10 * sh.leaves.length - 1 +
        (allBytes.map fun b => (freqAt f b).toNat * (c.lenAt b).toNat).sum + 7) / 8

/-- R127 DECODE on a header that is cut short, negative or zero; and R132, what a DECODE that fails after its header
leaves: LENGTH is the header, the output is closed and holds the bytes decoded so far. A tree section fails as it does
for DES_TREE and leaves no tree. That the tree stays valid when the content fails is the model's reading (log 17). -/
def Obligations.DecodeHeader : Prop :=
  encode .decode = 0x00000002#32 ∧
  ∀ s : State,
    (s.inp.data.length < 8 →
      exec .decode s = .next ({ s with
        inp := { s.inp with pos := BitVec.ofNat 64 s.inp.data.length, rbuf := 0#8, rcnt := 0#3 }
        out := { data := [], cnt := 0#64, closed := true, wbuf := 0#8, wcnt := 0#3 }
        tree := Tree.empty
        codes := Codes.empty
        status := { s.status with eof := true } }.complete .truncatedArchive)) ∧
    ∀ h : Dword, s.inp.data.take 8 = bytesOf h →
      ((h.getLsbD 63 = true →
        exec .decode s = .next ({ s with
          inp := { s.inp with pos := 8#64, rbuf := 0#8, rcnt := 0#3 }
          out := { data := [], cnt := 0#64, closed := true, wbuf := 0#8, wcnt := 0#3 }
          length := h
          tree := Tree.empty
          codes := Codes.empty }.complete .badLength)) ∧
      (h = 0#64 →
        exec .decode s = .next ({ s with
          inp := { s.inp with pos := 8#64, rbuf := 0#8, rcnt := 0#3 }
          out := { data := [], cnt := 0#64, closed := true, wbuf := 0#8, wcnt := 0#3 }
          length := 0#64
          tree := Tree.empty
          codes := Codes.empty }.complete .ok)) ∧
      (s.inp.Short → h.getLsbD 63 = false → h ≠ 0#64 →
        (TreeCut (streamBits (s.inp.data.drop 8)) →
          ∃ q, exec .decode s = .next ({ s with
              inp := q
              out := { data := [], cnt := 0#64, closed := true, wbuf := 0#8, wcnt := 0#3 }
              length := h
              tree := Tree.empty
              codes := Codes.empty
              status := { s.status with eof := true } }.complete .truncatedArchive) ∧ q.bits = []) ∧
        (∀ rest, TreeCorrupt (streamBits (s.inp.data.drop 8)) rest →
          ∃ q, exec .decode s = .next ({ s with
              inp := q
              out := { data := [], cnt := 0#64, closed := true, wbuf := 0#8, wcnt := 0#3 }
              length := h
              tree := Tree.empty
              codes := Codes.empty }.complete .corruptTree) ∧ q.bits = rest) ∧
        (∀ sh l, ContentCut (streamBits (s.inp.data.drop 8)) sh l → l.length < h.toNat →
          ∃ q t sh', exec .decode s = .next ({ s with
              inp := q
              out := { data := l, cnt := BitVec.ofNat 64 l.length, closed := true, wbuf := 0#8, wcnt := 0#3 }
              length := h
              tree := t
              codes := Codes.empty
              status := { s.status with eof := true } }.complete .truncatedArchive) ∧
            t.Is sh' ∧ sh'.same sh = true ∧ q.bits = []) ∧
        ∀ t, exec .decode s = .next t → t.status.errcode ≠ 0#4 →
          TreeCut (streamBits (s.inp.data.drop 8)) ∨ (∃ rest, TreeCorrupt (streamBits (s.inp.data.drop 8)) rest) ∨
            ∃ sh l, ContentCut (streamBits (s.inp.data.drop 8)) sh l ∧ l.length < h.toNat))

/-- R131: DECODE accepts every archive laid out as R125 says with a tree of distinct leaves, whatever order made the tree,
and gives its content; just the header, tree and content bits are read. (On an input that IN_POS can count, log 14.) -/
def Obligations.DecodeAcceptsAnyTree : Prop :=
  ∀ (s : State) (sh : Shape) (l : List Byte) (rest : List Bool), s.inp.Short → sh.leaves.Nodup → l ≠ [] →
    l.length < 2 ^ 63 → (∀ b ∈ l, b ∈ sh.leaves) →
    streamBits s.inp.data = bitsOf (BitVec.ofNat 64 l.length) ++ sh.preorder ++ l.flatMap sh.codeFor ++ rest →
    ∃ q t sh', exec .decode s = .next ({ s with
        inp := q
        out := { data := l, cnt := BitVec.ofNat 64 l.length, closed := true, wbuf := 0#8, wcnt := 0#3 }
        length := BitVec.ofNat 64 l.length
        tree := t
        codes := Codes.empty }.complete .ok) ∧
      t.Is sh' ∧ sh'.same sh = true ∧ q.bits = rest ∧ q.data = s.inp.data ∧ q.seekable = s.inp.seekable

/-- R128: DECODE of the archive ENCODE makes gives the input back, whatever the state DECODE starts in. -/
def Obligations.RoundTrip : Prop :=
  ∀ s : State, s.inp.seekable = true → s.inp.data.length < 2 ^ 63 →
    ∃ t, exec .encode s = .next t ∧ t.status.errcode = 0#4 ∧
      ∀ u : State, u.inp.data = t.out.data →
        ∃ v, exec .decode u = .next v ∧ v.status.errcode = 0#4 ∧ v.out.data = s.inp.data

/-- R129: a DECODE that ends without error has written LENGTH bytes. -/
def Obligations.DecodeLength : Prop :=
  ∀ s t : State, exec .decode s = .next t → t.status.errcode = 0#4 →
    t.out.cnt = t.length ∧ t.out.data.length = t.length.toNat

/-- R130: DECODE of an archive ENCODE made, cut off after any number of bytes, ends with TRUNCATED_ARCHIVE. -/
def Obligations.CutArchiveFails : Prop :=
  ∀ s t u : State, s.inp.seekable = true → s.inp.data.length < 2 ^ 63 → exec .encode s = .next t →
    ∀ k, k < t.out.data.length → u.inp.data = t.out.data.take k →
      ∃ v, exec .decode u = .next v ∧ v.status.errcode = 2#4 ∧ v.status.eof = true

/-- R34, R132: ENCODE and DECODE leave the output closed and its last byte flushed, however they end; and then every command
that writes the output is turned away with BAD_STATE. -/
def Obligations.SequencersClose : Prop :=
  (∀ (i : Instr) (s t : State), i = .encode ∨ i = .decode → exec i s = .next t →
    t.out.closed = true ∧ t.out.wcnt = 0#3 ∧ t.out.wbuf = 0#8 ∧ t.out.cnt = BitVec.ofNat 64 t.out.data.length) ∧
  ∀ (i : Instr) (s : State), s.out.closed = true →
    ((∃ b, i = .wrBit b) ∨ (∃ b, i = .wrByte b) ∨ (∃ b, i = .encSym b) ∨ i = .wrI64 ∨ i = .serTree) →
    exec i s = .next (s.complete .badState)

/-! Control and inspection (spec/45_control.md). -/

/-- R133 NOP, and R134, R48 CLEAR: every table and operand register, and OVERRUN, return to their reset values; the adapter
and the ports are not touched. -/
def Obligations.NopAndClear : Prop :=
  encode .nop = 0x00000000#32 ∧ encode .clear = 0x00000003#32 ∧ (∀ s : State, exec .nop s = .next (s.complete .ok)) ∧
  ∀ s : State,
    ∃ f t c, exec .clear s = .next { s with
        freq := f
        tree := t
        codes := c
        length := 0#64
        data := 0#64
        result := 0#64
        aux := 0#32
        status := { s.status with busy := false, done := true, errcode := 0#4, overrun := false } } ∧
      (∀ b, freqAt f b = 0#64) ∧ (∀ n, t.nodeAt n = Node.empty) ∧ t.root = 0#9 ∧ t.rootValid = false ∧
      t.nint = 0#8 ∧ t.nleaf = 0#9 ∧ (∀ b, c.lenAt b = 0#8 ∧ c.bitsAt b = 0#256) ∧ c.valid = false

/-- R135 PEEK_FREQ, R136 PEEK_NODE and R63, R137 PEEK_CODE: RESULT and the fields of AUX; and between commands (R53) an
invalid slot and a byte with no leaf read 0, and so does a word of code above the length. -/
def Obligations.PeekCommands : Prop :=
  (∀ b : Byte, encode (.peekFreq b) = 0x00000038#32 ||| (b.setWidth 32 <<< 8)) ∧
  (∀ i : NodeIdx, encode (.peekNode i) = 0x00000039#32 ||| (i.setWidth 32 <<< 8)) ∧
  (∀ (b : Byte) (w : BitVec 2),
    encode (.peekCode b w) = 0x0000003A#32 ||| (b.setWidth 32 <<< 8) ||| (w.setWidth 32 <<< 17)) ∧
  (∀ (s : State) (b : Byte),
    exec (.peekFreq b) s = .next ({ s with result := s.freq[b.toNat]'b.isLt, aux := 0#32 }.complete .ok)) ∧
  (∀ (s : State) (i : NodeIdx) (h : i.toNat < 511),
    ∃ x : Word, exec (.peekNode i) s = .next ({ s with result := s.tree.node[i.toNat].freq, aux := x }.complete .ok) ∧
      x.extractLsb' 0 9 = s.tree.node[i.toNat].left ∧ x.extractLsb' 9 9 = s.tree.node[i.toNat].right ∧
      x.extractLsb' 18 9 = s.tree.node[i.toNat].parent ∧ x.getLsbD 27 = s.tree.node[i.toNat].hasParent ∧
      x.getLsbD 28 = s.tree.node[i.toNat].internal ∧ x.getLsbD 29 = s.tree.node[i.toNat].valid ∧
      x.extractLsb' 30 2 = 0#2) ∧
  (∀ (s : State) (i : NodeIdx), s.Inv → i.toNat < 511 → (s.tree.nodeAt i).valid = false →
    exec (.peekNode i) s = .next ({ s with result := 0#64, aux := 0#32 }.complete .ok)) ∧
  (∀ (s : State) (b : Byte) (w : BitVec 2), s.Inv → s.codes.valid = true →
    ((s.tree.nodeAt (leafIdx b)).valid = false →
      exec (.peekCode b w) s = .next ({ s with result := 0#64, aux := 0#32 }.complete .ok)) ∧
    ((s.codes.lenAt b).toNat ≤ 64 * w.toNat →
      ∃ x, exec (.peekCode b w) s = .next ({ s with result := 0#64, aux := x }.complete .ok)) ∧
    (s.codes.bitsAt b).getLsbD 255 = false) ∧
  ∀ (s : State) (b : Byte) (w : BitVec 2),
    (s.codes.valid = false →
      exec (.peekCode b w) s = .next ({ s with result := 0#64, aux := 0#32 }.complete .badState)) ∧
    (s.codes.valid = true →
      ∃ (r : Dword) (x : Word), exec (.peekCode b w) s = .next ({ s with result := r, aux := x }.complete .ok) ∧
        (∀ i, i < 64 → r.getLsbD i = (s.codes.bitsAt b).getLsbD (64 * w.toNat + i)) ∧
        x.extractLsb' 0 8 = s.codes.lenAt b ∧ x.getLsbD 8 = (s.tree.nodeAt (leafIdx b)).valid ∧
        x.extractLsb' 9 23 = 0#23)
end

