-- ==== Sys2Proof/Laws/Bits.lean ====
section
/-! SUPPORT. Bits and bytes of a value (Machine/Operands.lean): a value is the number of its bits, and of its bytes. -/

namespace Sys2Proof.Machine

@[simp] theorem length_bitsOf {w : Nat} (v : BitVec w) : (bitsOf v).length = w := by simp [bitsOf]

theorem getElem?_bitsOf {w : Nat} (v : BitVec w) (i : Nat) :
    (bitsOf v)[i]? = if i < w then some (v.getLsbD i) else none := by
  by_cases h : i < w <;> simp [bitsOf, h]

theorem testBit_natOfBits (l : List Bool) (i : Nat) : (natOfBits l).testBit i = l.getD i false := by
  induction l generalizing i with
  | nil => simp [natOfBits]
  | cons b rest ih =>
    cases i with
    | zero => cases b <;> simp [natOfBits, Nat.testBit_zero, Nat.add_mul_mod_self_left]
    | succ i =>
      have h : (b.toNat + 2 * natOfBits rest) / 2 = natOfBits rest := by cases b <;> (simp; try omega)
      rw [natOfBits, Nat.testBit_succ, h, ih]
      simp

theorem getLsbD_ofBits (w : Nat) (l : List Bool) (i : Nat) :
    (ofBits w l).getLsbD i = (decide (i < w) && l.getD i false) := by
  simp [ofBits, BitVec.getLsbD_ofNat, testBit_natOfBits]

theorem ofBits_bitsOf {w : Nat} (v : BitVec w) : ofBits w (bitsOf v) = v := by
  refine BitVec.eq_of_getLsbD_eq fun i h => ?_
  rw [getLsbD_ofBits, List.getD_eq_getElem?_getD, getElem?_bitsOf]
  simp [h]

theorem bitsOf_ofBits (l : List Bool) : bitsOf (ofBits l.length l) = l := by
  refine List.ext_getElem? fun i => ?_
  rw [getElem?_bitsOf]
  by_cases h : i < l.length
  · rw [if_pos h, getLsbD_ofBits]
    simp [h]
  · simp [h]

theorem bitsOf_ofBits_of_length {w : Nat} {l : List Bool} (h : l.length = w) : bitsOf (ofBits w l) = l := by
  subst h; exact bitsOf_ofBits l

theorem bitsOf_injective {w : Nat} {u v : BitVec w} (h : bitsOf u = bitsOf v) : u = v := by
  rw [← ofBits_bitsOf u, h, ofBits_bitsOf]

/-! Streams. -/

@[simp] theorem streamBits_nil : streamBits [] = [] := rfl

@[simp] theorem streamBits_cons (b : Byte) (l : List Byte) : streamBits (b :: l) = bitsOf b ++ streamBits l := rfl

@[simp] theorem streamBits_append (l m : List Byte) : streamBits (l ++ m) = streamBits l ++ streamBits m := by
  simp [streamBits]

@[simp] theorem length_streamBits (l : List Byte) : (streamBits l).length = 8 * l.length := by
  induction l with
  | nil => rfl
  | cons b l ih => simp [ih]; omega

theorem streamBits_injective {l m : List Byte} (h : streamBits l = streamBits m) : l = m := by
  induction l generalizing m with
  | nil =>
    cases m with
    | nil => rfl
    | cons b m => exact absurd (congrArg List.length h) (by simp; omega)
  | cons a l ih =>
    cases m with
    | nil => exact absurd (congrArg List.length h) (by simp)
    | cons b m =>
      have hb := List.append_inj h (by simp)
      rw [bitsOf_injective hb.1, ih hb.2]

/-! The bytes of a 64-bit value (R59): its bits are the bits of its bytes in order. -/

theorem streamBits_bytesOf (v : Dword) : streamBits (bytesOf v) = bitsOf v := by
  have h8 : List.range 8 = [0, 1, 2, 3, 4, 5, 6, 7] := rfl
  have h64 : List.range 64 = (List.range 8).flatMap fun k => (List.range 8).map (8 * k + ·) := rfl
  rw [bitsOf, h64, List.map_flatMap, streamBits, bytesOf, List.flatMap_map]
  refine List.flatMap_congr fun k hk => ?_
  rw [bitsOf, List.map_map]
  refine List.map_congr_left fun i hi => ?_
  have : i < 8 := List.mem_range.mp hi
  simp [this]

theorem natOfBytes_eq_natOfBits (l : List Byte) : natOfBytes l = natOfBits (streamBits l) := by
  have key : ∀ (m n : List Bool), natOfBits (m ++ n) = natOfBits m + 2 ^ m.length * natOfBits n := by
    intro m n
    induction m with
    | nil => simp [natOfBits]
    | cons b m ih => simp [natOfBits, ih, Nat.pow_succ]; ring
  induction l with
  | nil => rfl
  | cons b l ih =>
    have hb : natOfBits (bitsOf b) = b.toNat := by
      have h1 : (BitVec.ofNat 8 (natOfBits (bitsOf b))).toNat = b.toNat := congrArg BitVec.toNat (ofBits_bitsOf b)
      have h2 : natOfBits (bitsOf b) < 2 ^ 8 := by
        refine Nat.lt_pow_two_of_testBit _ fun i hi => ?_
        rw [testBit_natOfBits]
        simp [List.getD_eq_getElem?_getD, hi]
      rwa [BitVec.toNat_ofNat, Nat.mod_eq_of_lt h2] at h1
    rw [natOfBytes, streamBits_cons, key, hb, ih]
    simp

/-- R59, R60: bytes assembled lowest first are their bits assembled least significant first. -/
theorem ofBytes_eq_ofBits (l : List Byte) : ofBytes l = ofBits 64 (streamBits l) := by
  rw [ofBytes, ofBits, natOfBytes_eq_natOfBits]

end Sys2Proof.Machine
end

