-- ==== Sys2Proof/Laws/State.lean ====
section
/-! SUPPORT. One lemma for each field of each update of State and of its parts (Machine/Ops.lean, Flags.lean and the
families): what the update leaves and what it writes. -/

namespace Sys2Proof.Machine

/-! State.complete -/

@[simp] theorem State.complete_latch (s : State) (e : ErrCode) : (s.complete e).latch = s.latch := rfl
@[simp] theorem State.complete_status (s : State) (e : ErrCode) : (s.complete e).status = s.status.complete e := rfl
@[simp] theorem State.complete_data (s : State) (e : ErrCode) : (s.complete e).data = s.data := rfl
@[simp] theorem State.complete_result (s : State) (e : ErrCode) : (s.complete e).result = s.result := rfl
@[simp] theorem State.complete_aux (s : State) (e : ErrCode) : (s.complete e).aux = s.aux := rfl
@[simp] theorem State.complete_length (s : State) (e : ErrCode) : (s.complete e).length = s.length := rfl
@[simp] theorem State.complete_freq (s : State) (e : ErrCode) : (s.complete e).freq = s.freq := rfl
@[simp] theorem State.complete_tree (s : State) (e : ErrCode) : (s.complete e).tree = s.tree := rfl
@[simp] theorem State.complete_codes (s : State) (e : ErrCode) : (s.complete e).codes = s.codes := rfl
@[simp] theorem State.complete_inp (s : State) (e : ErrCode) : (s.complete e).inp = s.inp := rfl
@[simp] theorem State.complete_out (s : State) (e : ErrCode) : (s.complete e).out = s.out := rfl
@[simp] theorem State.complete_host (s : State) (e : ErrCode) : (s.complete e).host = s.host := rfl
@[simp] theorem State.complete_lastRead (s : State) (e : ErrCode) : (s.complete e).lastRead = s.lastRead := rfl
@[simp] theorem State.complete_hostCopy (s : State) (e : ErrCode) : (s.complete e).hostCopy = s.hostCopy := rfl
@[simp] theorem State.complete_draws (s : State) (e : ErrCode) : (s.complete e).draws = s.draws := rfl

/-! State.setEof -/

@[simp] theorem State.setEof_latch (s : State) : (s.setEof).latch = s.latch := rfl
@[simp] theorem State.setEof_status (s : State) : (s.setEof).status = { s.status with eof := true } := rfl
@[simp] theorem State.setEof_data (s : State) : (s.setEof).data = s.data := rfl
@[simp] theorem State.setEof_result (s : State) : (s.setEof).result = s.result := rfl
@[simp] theorem State.setEof_aux (s : State) : (s.setEof).aux = s.aux := rfl
@[simp] theorem State.setEof_length (s : State) : (s.setEof).length = s.length := rfl
@[simp] theorem State.setEof_freq (s : State) : (s.setEof).freq = s.freq := rfl
@[simp] theorem State.setEof_tree (s : State) : (s.setEof).tree = s.tree := rfl
@[simp] theorem State.setEof_codes (s : State) : (s.setEof).codes = s.codes := rfl
@[simp] theorem State.setEof_inp (s : State) : (s.setEof).inp = s.inp := rfl
@[simp] theorem State.setEof_out (s : State) : (s.setEof).out = s.out := rfl
@[simp] theorem State.setEof_host (s : State) : (s.setEof).host = s.host := rfl
@[simp] theorem State.setEof_lastRead (s : State) : (s.setEof).lastRead = s.lastRead := rfl
@[simp] theorem State.setEof_hostCopy (s : State) : (s.setEof).hostCopy = s.hostCopy := rfl
@[simp] theorem State.setEof_draws (s : State) : (s.setEof).draws = s.draws := rfl

/-! State.issue -/

@[simp] theorem State.issue_latch (s : State) (w : Word) : (s.issue w).latch = w := rfl
@[simp] theorem State.issue_status (s : State) (w : Word) : (s.issue w).status = s.status.issue := rfl
@[simp] theorem State.issue_data (s : State) (w : Word) : (s.issue w).data = s.data := rfl
@[simp] theorem State.issue_result (s : State) (w : Word) : (s.issue w).result = s.result := rfl
@[simp] theorem State.issue_aux (s : State) (w : Word) : (s.issue w).aux = s.aux := rfl
@[simp] theorem State.issue_length (s : State) (w : Word) : (s.issue w).length = s.length := rfl
@[simp] theorem State.issue_freq (s : State) (w : Word) : (s.issue w).freq = s.freq := rfl
@[simp] theorem State.issue_tree (s : State) (w : Word) : (s.issue w).tree = s.tree := rfl
@[simp] theorem State.issue_codes (s : State) (w : Word) : (s.issue w).codes = s.codes := rfl
@[simp] theorem State.issue_inp (s : State) (w : Word) : (s.issue w).inp = s.inp := rfl
@[simp] theorem State.issue_out (s : State) (w : Word) : (s.issue w).out = s.out := rfl
@[simp] theorem State.issue_host (s : State) (w : Word) : (s.issue w).host = s.host := rfl
@[simp] theorem State.issue_lastRead (s : State) (w : Word) : (s.issue w).lastRead = s.lastRead := rfl
@[simp] theorem State.issue_hostCopy (s : State) (w : Word) : (s.issue w).hostCopy = s.hostCopy := rfl
@[simp] theorem State.issue_draws (s : State) (w : Word) : (s.issue w).draws = s.draws := rfl

/-! State.overrun -/

@[simp] theorem State.overrun_latch (s : State) : (s.overrun).latch = s.latch := rfl
@[simp] theorem State.overrun_status (s : State) : (s.overrun).status = { s.status with overrun := true } := rfl
@[simp] theorem State.overrun_data (s : State) : (s.overrun).data = s.data := rfl
@[simp] theorem State.overrun_result (s : State) : (s.overrun).result = s.result := rfl
@[simp] theorem State.overrun_aux (s : State) : (s.overrun).aux = s.aux := rfl
@[simp] theorem State.overrun_length (s : State) : (s.overrun).length = s.length := rfl
@[simp] theorem State.overrun_freq (s : State) : (s.overrun).freq = s.freq := rfl
@[simp] theorem State.overrun_tree (s : State) : (s.overrun).tree = s.tree := rfl
@[simp] theorem State.overrun_codes (s : State) : (s.overrun).codes = s.codes := rfl
@[simp] theorem State.overrun_inp (s : State) : (s.overrun).inp = s.inp := rfl
@[simp] theorem State.overrun_out (s : State) : (s.overrun).out = s.out := rfl
@[simp] theorem State.overrun_host (s : State) : (s.overrun).host = s.host := rfl
@[simp] theorem State.overrun_lastRead (s : State) : (s.overrun).lastRead = s.lastRead := rfl
@[simp] theorem State.overrun_hostCopy (s : State) : (s.overrun).hostCopy = s.hostCopy := rfl
@[simp] theorem State.overrun_draws (s : State) : (s.overrun).draws = s.draws := rfl

/-! State.invalidateCodes -/

@[simp] theorem State.invalidateCodes_latch (s : State) : (s.invalidateCodes).latch = s.latch := rfl
@[simp] theorem State.invalidateCodes_status (s : State) : (s.invalidateCodes).status = s.status := rfl
@[simp] theorem State.invalidateCodes_data (s : State) : (s.invalidateCodes).data = s.data := rfl
@[simp] theorem State.invalidateCodes_result (s : State) : (s.invalidateCodes).result = s.result := rfl
@[simp] theorem State.invalidateCodes_aux (s : State) : (s.invalidateCodes).aux = s.aux := rfl
@[simp] theorem State.invalidateCodes_length (s : State) : (s.invalidateCodes).length = s.length := rfl
@[simp] theorem State.invalidateCodes_freq (s : State) : (s.invalidateCodes).freq = s.freq := rfl
@[simp] theorem State.invalidateCodes_tree (s : State) : (s.invalidateCodes).tree = s.tree := rfl
@[simp] theorem State.invalidateCodes_codes (s : State) : (s.invalidateCodes).codes = Codes.empty := rfl
@[simp] theorem State.invalidateCodes_inp (s : State) : (s.invalidateCodes).inp = s.inp := rfl
@[simp] theorem State.invalidateCodes_out (s : State) : (s.invalidateCodes).out = s.out := rfl
@[simp] theorem State.invalidateCodes_host (s : State) : (s.invalidateCodes).host = s.host := rfl
@[simp] theorem State.invalidateCodes_lastRead (s : State) : (s.invalidateCodes).lastRead = s.lastRead := rfl
@[simp] theorem State.invalidateCodes_hostCopy (s : State) : (s.invalidateCodes).hostCopy = s.hostCopy := rfl
@[simp] theorem State.invalidateCodes_draws (s : State) : (s.invalidateCodes).draws = s.draws := rfl

/-! State.invalidateTree -/

@[simp] theorem State.invalidateTree_latch (s : State) : (s.invalidateTree).latch = s.latch := rfl
@[simp] theorem State.invalidateTree_status (s : State) : (s.invalidateTree).status = s.status := rfl
@[simp] theorem State.invalidateTree_data (s : State) : (s.invalidateTree).data = s.data := rfl
@[simp] theorem State.invalidateTree_result (s : State) : (s.invalidateTree).result = s.result := rfl
@[simp] theorem State.invalidateTree_aux (s : State) : (s.invalidateTree).aux = s.aux := rfl
@[simp] theorem State.invalidateTree_length (s : State) : (s.invalidateTree).length = s.length := rfl
@[simp] theorem State.invalidateTree_freq (s : State) : (s.invalidateTree).freq = s.freq := rfl
@[simp] theorem State.invalidateTree_tree (s : State) : (s.invalidateTree).tree = Tree.empty := rfl
@[simp] theorem State.invalidateTree_codes (s : State) : (s.invalidateTree).codes = Codes.empty := rfl
@[simp] theorem State.invalidateTree_inp (s : State) : (s.invalidateTree).inp = s.inp := rfl
@[simp] theorem State.invalidateTree_out (s : State) : (s.invalidateTree).out = s.out := rfl
@[simp] theorem State.invalidateTree_host (s : State) : (s.invalidateTree).host = s.host := rfl
@[simp] theorem State.invalidateTree_lastRead (s : State) : (s.invalidateTree).lastRead = s.lastRead := rfl
@[simp] theorem State.invalidateTree_hostCopy (s : State) : (s.invalidateTree).hostCopy = s.hostCopy := rfl
@[simp] theorem State.invalidateTree_draws (s : State) : (s.invalidateTree).draws = s.draws := rfl

/-! State.openStreams -/

@[simp] theorem State.openStreams_latch (s : State) : (s.openStreams).latch = s.latch := rfl
@[simp] theorem State.openStreams_status (s : State) : (s.openStreams).status = s.status := rfl
@[simp] theorem State.openStreams_data (s : State) : (s.openStreams).data = s.data := rfl
@[simp] theorem State.openStreams_result (s : State) : (s.openStreams).result = s.result := rfl
@[simp] theorem State.openStreams_aux (s : State) : (s.openStreams).aux = s.aux := rfl
@[simp] theorem State.openStreams_length (s : State) : (s.openStreams).length = s.length := rfl
@[simp] theorem State.openStreams_freq (s : State) : (s.openStreams).freq = s.freq := rfl
@[simp] theorem State.openStreams_tree (s : State) : (s.openStreams).tree = s.tree := rfl
@[simp] theorem State.openStreams_codes (s : State) : (s.openStreams).codes = s.codes := rfl
@[simp] theorem State.openStreams_inp (s : State) : (s.openStreams).inp = s.inp.seek0 := rfl
@[simp] theorem State.openStreams_out (s : State) : (s.openStreams).out = s.out.reopen := rfl
@[simp] theorem State.openStreams_host (s : State) : (s.openStreams).host = s.host := rfl
@[simp] theorem State.openStreams_lastRead (s : State) : (s.openStreams).lastRead = s.lastRead := rfl
@[simp] theorem State.openStreams_hostCopy (s : State) : (s.openStreams).hostCopy = s.hostCopy := rfl
@[simp] theorem State.openStreams_draws (s : State) : (s.openStreams).draws = s.draws := rfl

/-! State.counted -/

@[simp] theorem State.counted_latch (s : State) (c : Counting) : (s.counted c).latch = s.latch := rfl
@[simp] theorem State.counted_status (s : State) (c : Counting) : (s.counted c).status = s.status := rfl
@[simp] theorem State.counted_data (s : State) (c : Counting) : (s.counted c).data = s.data := rfl
@[simp] theorem State.counted_result (s : State) (c : Counting) : (s.counted c).result = s.result := rfl
@[simp] theorem State.counted_aux (s : State) (c : Counting) : (s.counted c).aux = s.aux := rfl
@[simp] theorem State.counted_length (s : State) (c : Counting) : (s.counted c).length = c.length := rfl
@[simp] theorem State.counted_freq (s : State) (c : Counting) : (s.counted c).freq = c.freq := rfl
@[simp] theorem State.counted_tree (s : State) (c : Counting) : (s.counted c).tree = s.tree := rfl
@[simp] theorem State.counted_codes (s : State) (c : Counting) : (s.counted c).codes = s.codes := rfl
@[simp] theorem State.counted_inp (s : State) (c : Counting) : (s.counted c).inp = c.inp := rfl
@[simp] theorem State.counted_out (s : State) (c : Counting) : (s.counted c).out = s.out := rfl
@[simp] theorem State.counted_host (s : State) (c : Counting) : (s.counted c).host = s.host := rfl
@[simp] theorem State.counted_lastRead (s : State) (c : Counting) : (s.counted c).lastRead = s.lastRead := rfl
@[simp] theorem State.counted_hostCopy (s : State) (c : Counting) : (s.counted c).hostCopy = s.hostCopy := rfl
@[simp] theorem State.counted_draws (s : State) (c : Counting) : (s.counted c).draws = s.draws := rfl

/-! State.build -/

@[simp] theorem State.build_latch (s : State) : (s.build).latch = s.latch := rfl
@[simp] theorem State.build_status (s : State) : (s.build).status = s.status := rfl
@[simp] theorem State.build_data (s : State) : (s.build).data = s.data := rfl
@[simp] theorem State.build_result (s : State) : (s.build).result = s.result := rfl
@[simp] theorem State.build_aux (s : State) : (s.build).aux = s.aux := rfl
@[simp] theorem State.build_length (s : State) : (s.build).length = s.length := rfl
@[simp] theorem State.build_freq (s : State) : (s.build).freq = s.freq := rfl
@[simp] theorem State.build_tree (s : State) : (s.build).tree = buildTree s.freq := rfl
@[simp] theorem State.build_codes (s : State) : (s.build).codes = Codes.empty := rfl
@[simp] theorem State.build_inp (s : State) : (s.build).inp = s.inp := rfl
@[simp] theorem State.build_out (s : State) : (s.build).out = s.out := rfl
@[simp] theorem State.build_host (s : State) : (s.build).host = s.host := rfl
@[simp] theorem State.build_lastRead (s : State) : (s.build).lastRead = s.lastRead := rfl
@[simp] theorem State.build_hostCopy (s : State) : (s.build).hostCopy = s.hostCopy := rfl
@[simp] theorem State.build_draws (s : State) : (s.build).draws = s.draws := rfl

/-! State.closeOut -/

@[simp] theorem State.closeOut_latch (s : State) : (s.closeOut).latch = s.latch := rfl
@[simp] theorem State.closeOut_status (s : State) : (s.closeOut).status = s.status := rfl
@[simp] theorem State.closeOut_data (s : State) : (s.closeOut).data = s.data := rfl
@[simp] theorem State.closeOut_result (s : State) : (s.closeOut).result = s.result := rfl
@[simp] theorem State.closeOut_aux (s : State) : (s.closeOut).aux = s.aux := rfl
@[simp] theorem State.closeOut_length (s : State) : (s.closeOut).length = s.length := rfl
@[simp] theorem State.closeOut_freq (s : State) : (s.closeOut).freq = s.freq := rfl
@[simp] theorem State.closeOut_tree (s : State) : (s.closeOut).tree = s.tree := rfl
@[simp] theorem State.closeOut_codes (s : State) : (s.closeOut).codes = s.codes := rfl
@[simp] theorem State.closeOut_inp (s : State) : (s.closeOut).inp = s.inp := rfl
@[simp] theorem State.closeOut_out (s : State) : (s.closeOut).out = s.out.closeOut := rfl
@[simp] theorem State.closeOut_host (s : State) : (s.closeOut).host = s.host := rfl
@[simp] theorem State.closeOut_lastRead (s : State) : (s.closeOut).lastRead = s.lastRead := rfl
@[simp] theorem State.closeOut_hostCopy (s : State) : (s.closeOut).hostCopy = s.hostCopy := rfl
@[simp] theorem State.closeOut_draws (s : State) : (s.closeOut).draws = s.draws := rfl

/-! State.loadIn -/

@[simp] theorem State.loadIn_latch (s : State) (l : List Byte) (k : Bool) : (s.loadIn l k).latch = s.latch := rfl
@[simp] theorem State.loadIn_status (s : State) (l : List Byte) (k : Bool) : (s.loadIn l k).status = s.status := rfl
@[simp] theorem State.loadIn_data (s : State) (l : List Byte) (k : Bool) : (s.loadIn l k).data = s.data := rfl
@[simp] theorem State.loadIn_result (s : State) (l : List Byte) (k : Bool) : (s.loadIn l k).result = s.result := rfl
@[simp] theorem State.loadIn_aux (s : State) (l : List Byte) (k : Bool) : (s.loadIn l k).aux = s.aux := rfl
@[simp] theorem State.loadIn_length (s : State) (l : List Byte) (k : Bool) : (s.loadIn l k).length = s.length := rfl
@[simp] theorem State.loadIn_freq (s : State) (l : List Byte) (k : Bool) : (s.loadIn l k).freq = s.freq := rfl
@[simp] theorem State.loadIn_tree (s : State) (l : List Byte) (k : Bool) : (s.loadIn l k).tree = s.tree := rfl
@[simp] theorem State.loadIn_codes (s : State) (l : List Byte) (k : Bool) : (s.loadIn l k).codes = s.codes := rfl
@[simp] theorem State.loadIn_inp (s : State) (l : List Byte) (k : Bool) :
    (s.loadIn l k).inp = { s.inp with data := l, seekable := k } := rfl
@[simp] theorem State.loadIn_out (s : State) (l : List Byte) (k : Bool) : (s.loadIn l k).out = s.out := rfl
@[simp] theorem State.loadIn_host (s : State) (l : List Byte) (k : Bool) : (s.loadIn l k).host = s.host := rfl
@[simp] theorem State.loadIn_lastRead (s : State) (l : List Byte) (k : Bool) :
    (s.loadIn l k).lastRead = s.lastRead := rfl
@[simp] theorem State.loadIn_hostCopy (s : State) (l : List Byte) (k : Bool) :
    (s.loadIn l k).hostCopy = s.hostCopy := rfl
@[simp] theorem State.loadIn_draws (s : State) (l : List Byte) (k : Bool) : (s.loadIn l k).draws = s.draws := rfl

/-! State.withCommand -/

@[simp] theorem State.withCommand_latch (s : State) (w : Word) : (s.withCommand w).latch = w := rfl
@[simp] theorem State.withCommand_status (s : State) (w : Word) : (s.withCommand w).status = s.status.issue := rfl
@[simp] theorem State.withCommand_data (s : State) (w : Word) : (s.withCommand w).data = s.data := rfl
@[simp] theorem State.withCommand_result (s : State) (w : Word) : (s.withCommand w).result = s.result := rfl
@[simp] theorem State.withCommand_aux (s : State) (w : Word) : (s.withCommand w).aux = s.aux := rfl
@[simp] theorem State.withCommand_length (s : State) (w : Word) : (s.withCommand w).length = s.length := rfl
@[simp] theorem State.withCommand_freq (s : State) (w : Word) : (s.withCommand w).freq = s.freq := rfl
@[simp] theorem State.withCommand_tree (s : State) (w : Word) : (s.withCommand w).tree = s.tree := rfl
@[simp] theorem State.withCommand_codes (s : State) (w : Word) : (s.withCommand w).codes = s.codes := rfl
@[simp] theorem State.withCommand_inp (s : State) (w : Word) : (s.withCommand w).inp = s.inp := rfl
@[simp] theorem State.withCommand_out (s : State) (w : Word) : (s.withCommand w).out = s.out := rfl
@[simp] theorem State.withCommand_host (s : State) (w : Word) : (s.withCommand w).host = .wait :: s.host := rfl
@[simp] theorem State.withCommand_lastRead (s : State) (w : Word) : (s.withCommand w).lastRead = s.lastRead := rfl
@[simp] theorem State.withCommand_hostCopy (s : State) (w : Word) : (s.withCommand w).hostCopy = s.hostCopy := rfl
@[simp] theorem State.withCommand_draws (s : State) (w : Word) : (s.withCommand w).draws = s.draws := rfl

/-! Status.issue -/

@[simp] theorem Status.issue_busy (st : Status) : (st.issue).busy = true := rfl
@[simp] theorem Status.issue_done (st : Status) : (st.issue).done = false := rfl
@[simp] theorem Status.issue_eof (st : Status) : (st.issue).eof = false := rfl
@[simp] theorem Status.issue_overrun (st : Status) : (st.issue).overrun = st.overrun := rfl
@[simp] theorem Status.issue_errcode (st : Status) : (st.issue).errcode = 0#4 := rfl

/-! Status.complete -/

@[simp] theorem Status.complete_busy (st : Status) (e : ErrCode) : (st.complete e).busy = false := rfl
@[simp] theorem Status.complete_done (st : Status) (e : ErrCode) : (st.complete e).done = true := rfl
@[simp] theorem Status.complete_eof (st : Status) (e : ErrCode) : (st.complete e).eof = st.eof := rfl
@[simp] theorem Status.complete_overrun (st : Status) (e : ErrCode) : (st.complete e).overrun = st.overrun := rfl
@[simp] theorem Status.complete_errcode (st : Status) (e : ErrCode) : (st.complete e).errcode = e.code := rfl

/-! InPort.advance -/

@[simp] theorem InPort.advance_data (p : InPort) : (p.advance).data = p.data := rfl
@[simp] theorem InPort.advance_seekable (p : InPort) : (p.advance).seekable = p.seekable := rfl
@[simp] theorem InPort.advance_pos (p : InPort) : (p.advance).pos = p.pos + 1#64 := rfl
@[simp] theorem InPort.advance_rbuf (p : InPort) : (p.advance).rbuf = p.rbuf := rfl
@[simp] theorem InPort.advance_rcnt (p : InPort) : (p.advance).rcnt = p.rcnt := rfl

/-! InPort.seek0 -/

@[simp] theorem InPort.seek0_data (p : InPort) : (p.seek0).data = p.data := rfl
@[simp] theorem InPort.seek0_seekable (p : InPort) : (p.seek0).seekable = p.seekable := rfl
@[simp] theorem InPort.seek0_pos (p : InPort) : (p.seek0).pos = 0#64 := rfl
@[simp] theorem InPort.seek0_rbuf (p : InPort) : (p.seek0).rbuf = 0#8 := rfl
@[simp] theorem InPort.seek0_rcnt (p : InPort) : (p.seek0).rcnt = 0#3 := rfl

/-! OutPort.outByte -/

@[simp] theorem OutPort.outByte_data (o : OutPort) (b : Byte) : (o.outByte b).data = o.data ++ [b] := rfl
@[simp] theorem OutPort.outByte_cnt (o : OutPort) (b : Byte) : (o.outByte b).cnt = o.cnt + 1#64 := rfl
@[simp] theorem OutPort.outByte_closed (o : OutPort) (b : Byte) : (o.outByte b).closed = o.closed := rfl
@[simp] theorem OutPort.outByte_wbuf (o : OutPort) (b : Byte) : (o.outByte b).wbuf = o.wbuf := rfl
@[simp] theorem OutPort.outByte_wcnt (o : OutPort) (b : Byte) : (o.outByte b).wcnt = o.wcnt := rfl

/-! OutPort.reopen -/

@[simp] theorem OutPort.reopen_data (o : OutPort) : (o.reopen).data = [] := rfl
@[simp] theorem OutPort.reopen_cnt (o : OutPort) : (o.reopen).cnt = 0#64 := rfl
@[simp] theorem OutPort.reopen_closed (o : OutPort) : (o.reopen).closed = false := rfl
@[simp] theorem OutPort.reopen_wbuf (o : OutPort) : (o.reopen).wbuf = 0#8 := rfl
@[simp] theorem OutPort.reopen_wcnt (o : OutPort) : (o.reopen).wcnt = 0#3 := rfl

/-! OutPort.closeOut -/

@[simp] theorem OutPort.closeOut_data (o : OutPort) : (o.closeOut).data = o.flush.data := rfl
@[simp] theorem OutPort.closeOut_cnt (o : OutPort) : (o.closeOut).cnt = o.flush.cnt := rfl
@[simp] theorem OutPort.closeOut_closed (o : OutPort) : (o.closeOut).closed = true := rfl
@[simp] theorem OutPort.closeOut_wbuf (o : OutPort) : (o.closeOut).wbuf = o.flush.wbuf := rfl
@[simp] theorem OutPort.closeOut_wcnt (o : OutPort) : (o.closeOut).wcnt = o.flush.wcnt := rfl

/-! Tree.withRoot -/

@[simp] theorem Tree.withRoot_node (t : Tree) (r : NodeIdx) : (t.withRoot r).node = t.node := rfl
@[simp] theorem Tree.withRoot_root (t : Tree) (r : NodeIdx) : (t.withRoot r).root = r := rfl
@[simp] theorem Tree.withRoot_rootValid (t : Tree) (r : NodeIdx) : (t.withRoot r).rootValid = true := rfl
@[simp] theorem Tree.withRoot_nint (t : Tree) (r : NodeIdx) : (t.withRoot r).nint = t.nint := rfl
@[simp] theorem Tree.withRoot_nleaf (t : Tree) (r : NodeIdx) : (t.withRoot r).nleaf = t.nleaf := rfl

/-! What a meaning answers. -/

@[simp] theorem finish_eq (s : State) : finish s = .next (s.complete .ok) := rfl

@[simp] theorem raise_eq (e : ErrCode) (s : State) : raise e s = .next (s.complete e) := rfl

theorem raiseReading_eq (e : ErrCode) (s : State) :
    raiseReading e s = .next ((if e = .truncatedArchive then s.setEof else s).complete e) := by
  by_cases h : e = .truncatedArchive <;> simp [raiseReading, h]

end Sys2Proof.Machine
end

