-- ==== Sys2Proof/Laws/Reader.lean ====
section
/-! SUPPORT. The bit reader (Machine/Ops.lean, spec/40_bitstream.md R91 to R93): each read takes its bits from the front of
the input's bit sequence, and reports end of stream exactly when there are too few. IN_POS is a 64-bit counter, so the
laws speak of inputs shorter than 2^64 bytes (log 14). -/

namespace Sys2Proof.Machine

/-- What a read leaves of the port: IN_DATA and IN_SEEKABLE (R51). -/
def InPort.SameStream (p q : InPort) : Prop := q.data = p.data ∧ q.seekable = p.seekable

theorem InPort.SameStream.refl (p : InPort) : p.SameStream p := ⟨rfl, rfl⟩

theorem InPort.SameStream.trans {p q r : InPort} (h : p.SameStream q) (k : q.SameStream r) : p.SameStream r :=
  ⟨k.1.trans h.1, k.2.trans h.2⟩

theorem InPort.SameStream.short {p q : InPort} (h : p.SameStream q) (hp : p.Short) : q.Short := by
  rw [InPort.Short, h.1]; exact hp

/-- R56: InByte gives the head of what is left. -/
theorem InPort.inByte_none {p : InPort} : p.inByte = none ↔ p.rest = [] := by
  unfold InPort.inByte InPort.rest
  cases h : p.data[p.pos.toNat]? with
  | none => simpa [List.drop_eq_nil_iff] using h
  | some b =>
    obtain ⟨h1, -⟩ := List.getElem?_eq_some_iff.mp h
    simpa [List.drop_eq_nil_iff] using h1

theorem InPort.advance_rest {p : InPort} (hs : p.Short) {b : Byte} {l : List Byte} (h : p.rest = b :: l) :
    p.advance.rest = l := by
  have hlt : p.pos.toNat < p.data.length := by
    by_contra hge
    rw [InPort.rest, List.drop_eq_nil_of_le (Nat.not_lt.mp hge)] at h
    cases h
  have hp : (p.pos + 1#64).toNat = p.pos.toNat + 1 := by
    have h2 : p.data.length < 2 ^ 64 := hs
    rw [BitVec.toNat_add]
    simp only [BitVec.reduceToNat]
    omega
  rw [InPort.rest, InPort.advance_pos, hp, InPort.advance_data, ← List.tail_drop]
  rw [InPort.rest] at h
  rw [h]; rfl

theorem InPort.inByte_cons {p : InPort} {b : Byte} {l : List Byte} (h : p.rest = b :: l) :
    p.inByte = some (b, p.advance) := by
  have h0 : p.data[p.pos.toNat]? = some b := by
    have := congrArg (·[0]?) h
    simpa [InPort.rest] using this
  simp [InPort.inByte, h0]

/-- R56: what InByte gives it takes from IN_DATA, and IN_POS moves on. -/
theorem InPort.inByte_some {p q : InPort} {b : Byte} (h : p.inByte = some (b, q)) :
    q = p.advance ∧ ∃ l, p.rest = b :: l := by
  cases hr : p.rest with
  | nil => rw [InPort.inByte_none.mpr hr] at h; cases h
  | cons c l =>
    rw [InPort.inByte_cons hr] at h
    cases h
    exact ⟨rfl, l, rfl⟩

theorem InPort.bits_of_aligned {p : InPort} (h : p.rcnt = 0#3) : p.bits = streamBits p.rest := by
  simp [InPort.bits, InPort.bufferedBits, h]

theorem rcnt_ne_zero {c : BitVec 3} (h : c ≠ 0#3) : 0 < c.toNat :=
  Nat.pos_of_ne_zero fun e => h (BitVec.eq_of_toNat_eq e)

/-- The buffered bits of an unaligned reader: the next one, then those of the reader one bit on. -/
theorem drop_bitsOf (v : Byte) {k : Nat} (h : k < 8) : (bitsOf v).drop k = v.getLsbD k :: (bitsOf v).drop (k + 1) := by
  rw [List.drop_eq_getElem_cons (by simpa using h)]
  simp [bitsOf]

theorem InPort.readBit_unaligned {p : InPort} (h : p.rcnt ≠ 0#3) :
    p.readBit = some (p.rbuf.getLsbD (8 - p.rcnt.toNat),
      if p.rcnt = 1#3 then { p with rbuf := 0#8, rcnt := 0#3 } else { p with rcnt := p.rcnt - 1#3 }) := by
  by_cases h1 : p.rcnt = 1#3 <;> simp [InPort.readBit, h, h1]

theorem InPort.rest_congr {p q : InPort} (h : q.data = p.data) (k : q.pos = p.pos) : q.rest = p.rest := by
  rw [InPort.rest, InPort.rest, h, k]

/-- R91: no bit is left: ReadBit answers none, and changes nothing (it answers no port). -/
theorem InPort.readBit_nil {p : InPort} (h : p.bits = []) : p.readBit = none := by
  by_cases h0 : p.rcnt = 0#3
  · rw [InPort.bits_of_aligned h0] at h
    have : p.rest = [] := by
      cases hr : p.rest with
      | nil => rfl
      | cons b l => rw [hr] at h; exact absurd (congrArg List.length h) (by simp)
    simp [InPort.readBit, h0, InPort.inByte_none.mpr this]
  · have hc := rcnt_ne_zero h0
    have hl := p.rcnt.isLt
    have := congrArg List.length h
    simp [InPort.bits, InPort.bufferedBits] at this
    omega

/-- R91: ReadBit gives the next bit. -/
theorem InPort.readBit_cons {p : InPort} (hs : p.Short) {b : Bool} {l : List Bool} (h : p.bits = b :: l) :
    ∃ q, p.readBit = some (b, q) ∧ q.bits = l ∧ p.SameStream q ∧ q.Wf := by
  by_cases h0 : p.rcnt = 0#3
  · rw [InPort.bits_of_aligned h0] at h
    cases hr : p.rest with
    | nil => rw [hr] at h; cases h
    | cons c r =>
      rw [hr, streamBits_cons, ← List.drop_zero (l := bitsOf c), drop_bitsOf c (by decide)] at h
      injection h with hb hl
      refine ⟨{ p.advance with rbuf := c, rcnt := 7#3 }, ?_, ?_, ⟨rfl, rfl⟩, ?_⟩
      · simp [InPort.readBit, h0, InPort.inByte_cons hr, ← hb]
      · have hrest : ({ p.advance with rbuf := c, rcnt := 7#3 } : InPort).rest = p.advance.rest := rfl
        rw [InPort.bits, hrest, InPort.advance_rest hs hr, ← hl]
        rfl
      · intro h7; exact absurd h7 (show (7#3 : BitVec 3) ≠ 0#3 by decide)
  · have hc := rcnt_ne_zero h0
    have hlt := p.rcnt.isLt
    rw [InPort.bits, InPort.bufferedBits, drop_bitsOf _ (by omega)] at h
    injection h with hb hl
    rw [InPort.readBit_unaligned h0, hb]
    refine ⟨_, rfl, ?_, ?_, ?_⟩
    · rw [← hl]
      by_cases h1 : p.rcnt = 1#3
      · simp only [InPort.bits, InPort.bufferedBits, h1, if_true, InPort.rest]
        have h8 : ∀ v : Byte, (bitsOf v).drop 8 = [] := fun v => List.drop_of_length_le (by simp)
        exact (congrArg (· ++ _) (h8 0#8)).trans (congrArg (· ++ _) (h8 p.rbuf)).symm
      · have hn : p.rcnt.toNat ≠ 1 := fun e => h1 (BitVec.eq_of_toNat_eq e)
        have hsub : (p.rcnt - 1#3).toNat = p.rcnt.toNat - 1 := by
          rw [BitVec.toNat_sub]; simp only [BitVec.reduceToNat]; omega
        rw [if_neg h1]
        simp only [InPort.bits, InPort.bufferedBits, InPort.rest, hsub]
        congr 2
        omega
    · by_cases h1 : p.rcnt = 1#3 <;> simp [h1, InPort.SameStream]
    · by_cases h1 : p.rcnt = 1#3
      · simp [h1, InPort.Wf]
      · have hn : p.rcnt.toNat ≠ 1 := fun e => h1 (BitVec.eq_of_toNat_eq e)
        simp only [h1, InPort.Wf, if_false]
        intro hz
        have := congrArg BitVec.toNat hz
        rw [BitVec.toNat_sub] at this
        simp only [BitVec.reduceToNat] at this
        omega

/-- R91: a bit given is the next one, also for a stream of any length: the reader stays well formed. -/
theorem InPort.readBit_some {p q : InPort} {b : Bool} (h : p.readBit = some (b, q)) : p.SameStream q ∧ q.Wf := by
  by_cases h0 : p.rcnt = 0#3
  · rw [InPort.readBit, if_pos h0] at h
    cases hb : p.inByte with
    | none => rw [hb] at h; cases h
    | some r =>
      obtain ⟨c, r⟩ := r
      rw [hb] at h
      obtain ⟨rfl, -⟩ := InPort.inByte_some hb
      cases h
      exact ⟨⟨rfl, rfl⟩, fun h7 => absurd h7 (show (7#3 : BitVec 3) ≠ 0#3 by decide)⟩
  · rw [InPort.readBit_unaligned h0] at h
    have hc := rcnt_ne_zero h0
    have hlt := p.rcnt.isLt
    by_cases h1 : p.rcnt = 1#3
    · simp only [h1, if_true] at h
      cases h
      exact ⟨⟨rfl, rfl⟩, fun _ => rfl⟩
    · simp only [h1, if_false] at h
      cases h
      refine ⟨⟨rfl, rfl⟩, fun hz => ?_⟩
      have hn : p.rcnt.toNat ≠ 1 := fun e => h1 (BitVec.eq_of_toNat_eq e)
      have := congrArg BitVec.toNat hz
      rw [BitVec.toNat_sub] at this
      simp only [BitVec.reduceToNat] at this
      omega

/-- R92, R93: enough bits: they are given in order and taken. -/
theorem InPort.readBits_some {p : InPort} (hs : p.Short) {k : Nat} (h : k ≤ p.bits.length) (hw : p.Wf) :
    ∃ q, p.readBits k = (some (p.bits.take k), q) ∧ q.bits = p.bits.drop k ∧ p.SameStream q ∧ q.Wf := by
  induction k generalizing p with
  | zero => exact ⟨p, by simp [InPort.readBits], by simp, .refl p, hw⟩
  | succ k ih =>
    cases hb : p.bits with
    | nil => rw [hb] at h; simp at h
    | cons b l =>
      obtain ⟨q, hq, hqb, hqs, hqw⟩ := InPort.readBit_cons hs hb
      obtain ⟨r, hr, hrb, hrs, hrw⟩ := ih (p := q) (hqs.short hs) (by rw [hqb]; rw [hb] at h; simpa using h) hqw
      refine ⟨r, ?_, ?_, hqs.trans hrs, hrw⟩
      · simp [InPort.readBits, hq, hr, hqb]
      · simp [hrb, hqb]

/-- R92, R93: too few bits: none, and every bit is consumed. -/
theorem InPort.readBits_none {p : InPort} (hs : p.Short) {k : Nat} (h : p.bits.length < k) (hw : p.Wf) :
    ∃ q, p.readBits k = (none, q) ∧ q.bits = [] ∧ p.SameStream q ∧ q.Wf := by
  induction k generalizing p with
  | zero => omega
  | succ k ih =>
    cases hb : p.bits with
    | nil => exact ⟨p, by simp [InPort.readBits, InPort.readBit_nil hb], hb, .refl p, hw⟩
    | cons b l =>
      obtain ⟨q, hq, hqb, hqs, hqw⟩ := InPort.readBit_cons hs hb
      obtain ⟨r, hr, hrb, hrs, hrw⟩ := ih (p := q) (hqs.short hs) (by rw [hqb]; rw [hb] at h; simpa using h) hqw
      exact ⟨r, by simp [InPort.readBits, hq, hr], hrb, hqs.trans hrs, hrw⟩

/-- A reader is known from its bits: none left means an aligned reader at the end of the stream. -/
theorem InPort.aligned_of_bits_nil {p : InPort} (h : p.bits = []) : p.rcnt = 0#3 := by
  by_contra h0
  have hc := rcnt_ne_zero h0
  have hl := p.rcnt.isLt
  have := congrArg List.length h
  simp [InPort.bits, InPort.bufferedBits] at this
  omega

theorem InPort.inBytes_some {p : InPort} (hs : p.Short) {k : Nat} (h : k ≤ p.rest.length) :
    ∃ q, p.inBytes k = (some (p.rest.take k), q) ∧ q.rest = p.rest.drop k ∧ p.SameStream q ∧ q.rbuf = p.rbuf ∧
      q.rcnt = p.rcnt := by
  induction k generalizing p with
  | zero => exact ⟨p, by simp [InPort.inBytes], by simp, .refl p, rfl, rfl⟩
  | succ k ih =>
    cases hr : p.rest with
    | nil => rw [hr] at h; simp at h
    | cons b l =>
      have ha := InPort.advance_rest hs hr
      obtain ⟨q, hq, hqr, hqs, h1, h2⟩ := ih (p := p.advance) hs (by rw [ha]; rw [hr] at h; simpa using h)
      refine ⟨q, ?_, ?_, hqs, h1, h2⟩
      · simp [InPort.inBytes, InPort.inByte_cons hr, hq, ha]
      · simp [hqr, ha]

theorem InPort.inBytes_none {p : InPort} (hs : p.Short) {k : Nat} (h : p.rest.length < k) :
    ∃ q, p.inBytes k = (none, q) ∧ q.rest = [] ∧ p.SameStream q ∧ q.rbuf = p.rbuf ∧ q.rcnt = p.rcnt := by
  induction k generalizing p with
  | zero => omega
  | succ k ih =>
    cases hr : p.rest with
    | nil => exact ⟨p, by simp [InPort.inBytes, InPort.inByte_none.mpr hr], hr, .refl p, rfl, rfl⟩
    | cons b l =>
      have ha := InPort.advance_rest hs hr
      obtain ⟨q, hq, hqr, hqs, h1, h2⟩ := ih (p := p.advance) hs (by rw [ha]; rw [hr] at h; simpa using h)
      exact ⟨q, by simp [InPort.inBytes, InPort.inByte_cons hr, hq], hqr, hqs, h1, h2⟩

theorem InPort.Wf.congr {p q : InPort} (h : p.Wf) (h1 : q.rbuf = p.rbuf) (h2 : q.rcnt = p.rcnt) : q.Wf := by
  intro h0; rw [h1]; exact h (h2 ▸ h0)

/-- R92: ReadByte takes eight bits, on both paths. -/
theorem InPort.readByte_some {p : InPort} (hs : p.Short) (hw : p.Wf) (h : 8 ≤ p.bits.length) :
    ∃ q, p.readByte = (some (ofBits 8 (p.bits.take 8)), q) ∧ q.bits = p.bits.drop 8 ∧ p.SameStream q ∧ q.Wf := by
  by_cases h0 : p.rcnt = 0#3
  · have hb := InPort.bits_of_aligned h0
    cases hr : p.rest with
    | nil => rw [hb, hr] at h; simp at h
    | cons b l =>
      have ha := InPort.advance_rest hs hr
      have hq : p.advance.rcnt = 0#3 := h0
      refine ⟨p.advance, ?_, ?_, ⟨rfl, rfl⟩, hw.congr rfl rfl⟩
      · simp [InPort.readByte, h0, InPort.inByte_cons hr, hb, hr, ofBits_bitsOf]
      · rw [InPort.bits_of_aligned hq, ha, hb, hr]; simp
  · obtain ⟨q, hq, hqb, hqs, hqw⟩ := InPort.readBits_some hs h hw
    exact ⟨q, by simp [InPort.readByte, h0, hq], hqb, hqs, hqw⟩

theorem InPort.readByte_none {p : InPort} (hs : p.Short) (hw : p.Wf) (h : p.bits.length < 8) :
    ∃ q, p.readByte = (none, q) ∧ q.bits = [] ∧ p.SameStream q ∧ q.Wf := by
  by_cases h0 : p.rcnt = 0#3
  · have hb := InPort.bits_of_aligned h0
    have hr : p.rest = [] := by
      cases hr : p.rest with
      | nil => rfl
      | cons b l => rw [hb, hr] at h; simp at h
    exact ⟨p, by simp [InPort.readByte, h0, InPort.inByte_none.mpr hr], by simp [hb, hr], .refl p, hw⟩
  · obtain ⟨q, hq, hqb, hqs, hqw⟩ := InPort.readBits_none hs h hw
    exact ⟨q, by simp [InPort.readByte, h0, hq], hqb, hqs, hqw⟩

/-- R93: ReadInt64 takes 64 bits, on both paths. -/
theorem InPort.readInt64_some {p : InPort} (hs : p.Short) (hw : p.Wf) (h : 64 ≤ p.bits.length) :
    ∃ q, p.readInt64 = (some (ofBits 64 (p.bits.take 64)), q) ∧ q.bits = p.bits.drop 64 ∧ p.SameStream q ∧ q.Wf := by
  by_cases h0 : p.rcnt = 0#3
  · have hb := InPort.bits_of_aligned h0
    have h8 : 8 ≤ p.rest.length := by rw [hb, length_streamBits] at h; omega
    obtain ⟨q, hq, hqr, hqs, h1, h2⟩ := InPort.inBytes_some hs h8
    have hsplit : streamBits p.rest = streamBits (p.rest.take 8) ++ streamBits (p.rest.drop 8) := by
      rw [← streamBits_append, List.take_append_drop]
    have hl : (streamBits (p.rest.take 8)).length = 64 := by simp; omega
    refine ⟨q, ?_, ?_, hqs, hw.congr h1 h2⟩
    · rw [hb, hsplit, List.take_left' hl]
      simp [InPort.readInt64, h0, hq, ofBytes_eq_ofBits]
    · rw [InPort.bits_of_aligned (h2.trans h0), hb, hqr, hsplit, List.drop_left' hl]
  · obtain ⟨q, hq, hqb, hqs, hqw⟩ := InPort.readBits_some hs h hw
    exact ⟨q, by simp [InPort.readInt64, h0, hq], hqb, hqs, hqw⟩

theorem InPort.readInt64_none {p : InPort} (hs : p.Short) (hw : p.Wf) (h : p.bits.length < 64) :
    ∃ q, p.readInt64 = (none, q) ∧ q.bits = [] ∧ p.SameStream q ∧ q.Wf := by
  by_cases h0 : p.rcnt = 0#3
  · have hb := InPort.bits_of_aligned h0
    have h8 : p.rest.length < 8 := by rw [hb, length_streamBits] at h; omega
    obtain ⟨q, hq, hqr, hqs, h1, h2⟩ := InPort.inBytes_none hs h8
    exact ⟨q, by simp [InPort.readInt64, h0, hq], by rw [InPort.bits_of_aligned (h2.trans h0), hqr]; rfl, hqs,
      hw.congr h1 h2⟩
  · obtain ⟨q, hq, hqb, hqs, hqw⟩ := InPort.readBits_none hs h hw
    exact ⟨q, by simp [InPort.readInt64, h0, hq], hqb, hqs, hqw⟩

/-! Whatever the stream's length: reading leaves IN_DATA and IN_SEEKABLE, and the reader well formed. -/

/-- R51, R53 (4): what every read keeps. -/
structure InPort.Keeps (p q : InPort) : Prop where
  stream : p.SameStream q
  wf : p.Wf → q.Wf
  inRange : p.InRange → q.InRange

theorem InPort.Keeps.refl (p : InPort) : p.Keeps p := ⟨.refl p, id, id⟩

theorem InPort.Keeps.trans {p q r : InPort} (h : p.Keeps q) (k : q.Keeps r) : p.Keeps r :=
  ⟨h.stream.trans k.stream, fun hw => k.wf (h.wf hw), fun hr => k.inRange (h.inRange hr)⟩

theorem InPort.seek0_wf (p : InPort) : p.seek0.Wf := fun _ => rfl

theorem InPort.seek0_inRange (p : InPort) : p.seek0.InRange := Nat.zero_le _

/-- R56, R138 (3): the position after a byte that is there. -/
theorem InPort.advance_inRange {p : InPort} {b : Byte} {l : List Byte} (h : p.rest = b :: l) : p.advance.InRange := by
  have hlt : p.pos.toNat < p.data.length := by
    have := congrArg List.length h
    simp only [InPort.rest, List.length_drop, List.length_cons] at this
    omega
  have : (p.pos + 1#64).toNat ≤ p.pos.toNat + 1 := by
    rw [BitVec.toNat_add]; exact Nat.mod_le _ _
  exact Nat.le_trans this hlt

/-- R51: where the counter stands in the input, IN_POS is the counter. -/
theorem InPort.position_of_inRange {p : InPort} (h : p.InRange) : p.position = p.pos := if_pos h

/-- R51: an input that ends before the counter. -/
theorem InPort.toNat_position_of_lt {p : InPort} (h : p.data.length < p.pos.toNat) :
    p.position.toNat = p.data.length := by
  have := p.pos.isLt
  rw [InPort.position, if_neg (Nat.not_le.mpr h), BitVec.toNat_ofNat]
  exact Nat.mod_eq_of_lt (by omega)

/-- R51, R138 (3): IN_POS never exceeds IN_LEN. -/
theorem InPort.position_le (p : InPort) : p.position.toNat ≤ p.data.length := by
  by_cases h : p.InRange
  · rw [InPort.position_of_inRange h]; exact h
  · exact Nat.le_of_eq (InPort.toNat_position_of_lt (Nat.not_le.mp h))

/-- R56: the byte InByte gives is the byte at IN_POS. -/
theorem InPort.getElem?_position (p : InPort) : p.data[p.position.toNat]? = p.data[p.pos.toNat]? := by
  by_cases h : p.InRange
  · rw [InPort.position_of_inRange h]
  · have h := Nat.not_le.mp h
    rw [InPort.toNat_position_of_lt h, List.getElem?_eq_none (Nat.le_refl _), List.getElem?_eq_none (Nat.le_of_lt h)]

theorem InPort.inByte_keeps {p q : InPort} {b : Byte} (h : p.inByte = some (b, q)) : p.Keeps q := by
  obtain ⟨rfl, l, hl⟩ := InPort.inByte_some h
  exact ⟨⟨rfl, rfl⟩, fun hw => hw.congr rfl rfl, fun _ => InPort.advance_inRange hl⟩

theorem InPort.readBit_keeps {p q : InPort} {b : Bool} (h : p.readBit = some (b, q)) : p.Keeps q := by
  refine ⟨(InPort.readBit_some h).1, fun _ => (InPort.readBit_some h).2, fun hr => ?_⟩
  by_cases h0 : p.rcnt = 0#3
  · simp only [InPort.readBit, h0, if_true] at h
    split at h
    · cases h
    · next hb => cases h; exact (InPort.inByte_keeps hb).inRange hr
  · rw [InPort.readBit_unaligned h0] at h
    cases h
    split <;> exact hr

theorem InPort.readBits_keeps (k : Nat) (p : InPort) : p.Keeps (p.readBits k).2 := by
  induction k generalizing p with
  | zero => exact .refl p
  | succ k ih =>
    rw [InPort.readBits]
    cases h : p.readBit with
    | none => exact .refl p
    | some r =>
      obtain ⟨b, q⟩ := r
      have hk := (InPort.readBit_keeps h).trans (ih q)
      simp only
      split <;> simp_all

theorem InPort.inBytes_keeps (k : Nat) (p : InPort) : p.Keeps (p.inBytes k).2 := by
  induction k generalizing p with
  | zero => exact .refl p
  | succ k ih =>
    rw [InPort.inBytes]
    cases h : p.inByte with
    | none => exact .refl p
    | some r =>
      obtain ⟨b, q⟩ := r
      have hk := (InPort.inByte_keeps h).trans (ih q)
      simp only
      split <;> simp_all

theorem InPort.readByte_keeps (p : InPort) : p.Keeps p.readByte.2 := by
  rw [InPort.readByte]
  split
  · split
    · exact .refl p
    · next h => exact InPort.inByte_keeps h
  · have h := InPort.readBits_keeps 8 p
    split <;> simp_all

theorem InPort.readInt64_keeps (p : InPort) : p.Keeps p.readInt64.2 := by
  rw [InPort.readInt64]
  split
  · have h := InPort.inBytes_keeps 8 p
    split <;> simp_all
  · have h := InPort.readBits_keeps 64 p
    split <;> simp_all

end Sys2Proof.Machine
end

