-- ==== Sys2Proof/Laws/Store.lean ====
section
/-! SUPPORT. The node store (Machine/Operands.lean) and the shape it holds (Safety.lean): reading a slot after a write, and
what of the store a shape depends on. -/

namespace Sys2Proof.Machine

/-! Slots. -/

theorem toNat_leafIdx (b : Byte) : (leafIdx b).toNat = b.toNat := by
  have := b.isLt
  simp [leafIdx, BitVec.toNat_setWidth]
  omega

theorem leafIdx_injective {b c : Byte} (h : leafIdx b = leafIdx c) : b = c := by
  refine BitVec.eq_of_toNat_eq ?_
  rw [← toNat_leafIdx, ← toNat_leafIdx, h]

theorem leafIdx_lt (b : Byte) : (leafIdx b).toNat < 256 := by
  rw [toNat_leafIdx]; exact b.isLt

@[simp] theorem leafByte_leafIdx (b : Byte) : leafByte (leafIdx b) = b := by
  refine BitVec.eq_of_toNat_eq ?_
  rw [leafByte, BitVec.toNat_setWidth, toNat_leafIdx]
  exact Nat.mod_eq_of_lt b.isLt

theorem toNat_internalIdx (k : BitVec 8) : (internalIdx k).toNat = 256 + k.toNat := by
  have := k.isLt
  rw [internalIdx, BitVec.toNat_add, BitVec.toNat_setWidth]
  simp only [BitVec.reduceToNat]
  omega

/-! Reading after writing. -/

theorem Tree.nodeAt_setNode (t : Tree) (n m : NodeIdx) (v : Node) :
    (t.setNode n v).nodeAt m = if m = n ∧ n.toNat < 511 then v else t.nodeAt m := by
  unfold Tree.setNode Tree.nodeAt
  by_cases hn : n.toNat < 511
  · by_cases h : m = n
    · subst h; simp [hn]
    · have hne : n.toNat ≠ m.toNat := fun e => h (BitVec.eq_of_toNat_eq e).symm
      by_cases hm : m.toNat < 511 <;> simp [hn, h, hm, hne]
  · simp [hn]

theorem Tree.nodeAt_setNode_self {t : Tree} {n : NodeIdx} (h : n.toNat < 511) (v : Node) :
    (t.setNode n v).nodeAt n = v := by
  simp [Tree.nodeAt_setNode, h]

theorem Tree.nodeAt_setNode_ne {t : Tree} {n m : NodeIdx} (h : m ≠ n) (v : Node) :
    (t.setNode n v).nodeAt m = t.nodeAt m := by
  simp [Tree.nodeAt_setNode, h]

@[simp] theorem Tree.setNode_root (t : Tree) (n : NodeIdx) (v : Node) : (t.setNode n v).root = t.root := by
  unfold Tree.setNode; split <;> rfl

@[simp] theorem Tree.setNode_rootValid (t : Tree) (n : NodeIdx) (v : Node) :
    (t.setNode n v).rootValid = t.rootValid := by
  unfold Tree.setNode; split <;> rfl

@[simp] theorem Tree.setNode_nint (t : Tree) (n : NodeIdx) (v : Node) : (t.setNode n v).nint = t.nint := by
  unfold Tree.setNode; split <;> rfl

@[simp] theorem Tree.setNode_nleaf (t : Tree) (n : NodeIdx) (v : Node) : (t.setNode n v).nleaf = t.nleaf := by
  unfold Tree.setNode; split <;> rfl

@[simp] theorem Tree.setLeft_nint (t : Tree) (n l : NodeIdx) : (t.setLeft n l).nint = t.nint := by
  simp [Tree.setLeft]

@[simp] theorem Tree.setLeft_nleaf (t : Tree) (n l : NodeIdx) : (t.setLeft n l).nleaf = t.nleaf := by
  simp [Tree.setLeft]

@[simp] theorem Tree.setRight_nint (t : Tree) (n l : NodeIdx) : (t.setRight n l).nint = t.nint := by
  simp [Tree.setRight]

@[simp] theorem Tree.setRight_nleaf (t : Tree) (n l : NodeIdx) : (t.setRight n l).nleaf = t.nleaf := by
  simp [Tree.setRight]

@[simp] theorem Tree.setParent_nint (t : Tree) (n : NodeIdx) (p : Option NodeIdx) :
    (t.setParent n p).nint = t.nint := by
  cases p <;> simp [Tree.setParent]

@[simp] theorem Tree.setParent_nleaf (t : Tree) (n : NodeIdx) (p : Option NodeIdx) :
    (t.setParent n p).nleaf = t.nleaf := by
  cases p <;> simp [Tree.setParent]

@[simp] theorem Tree.setParent_rootValid (t : Tree) (n : NodeIdx) (p : Option NodeIdx) :
    (t.setParent n p).rootValid = t.rootValid := by
  cases p <;> simp [Tree.setParent]

theorem Tree.setParent_eq (t : Tree) (n : NodeIdx) (p : Option NodeIdx) :
    t.setParent n p = t.setNode n { t.nodeAt n with parent := p.getD 0#9, hasParent := p.isSome } := by
  cases p <;> rfl

@[simp] theorem Tree.nodeAt_counts (t : Tree) (k : BitVec 8) (l : BitVec 9) (n : NodeIdx) :
    Tree.nodeAt { t with nint := k, nleaf := l } n = t.nodeAt n := rfl

@[simp] theorem Tree.nodeAt_withRoot (t : Tree) (r n : NodeIdx) : (t.withRoot r).nodeAt n = t.nodeAt n := rfl

@[simp] theorem Tree.nodeAt_empty (n : NodeIdx) : Tree.empty.nodeAt n = Node.empty := by
  unfold Tree.nodeAt Tree.empty
  split <;> simp

/-- Only the slots 0 to 510 hold a node. -/
theorem Tree.lt_of_valid {t : Tree} {n : NodeIdx} (h : (t.nodeAt n).valid = true) : n.toNat < 511 := by
  by_contra hn
  simp [Tree.nodeAt, hn, Node.empty] at h

/-! Shapes. -/

@[simp] theorem Shape.index_leaf (b : Byte) : (Shape.leaf b).index = leafIdx b := rfl

@[simp] theorem Shape.index_node (i : NodeIdx) (l r : Shape) : (Shape.node i l r).index = i := rfl

theorem Shape.index_mem_slots (sh : Shape) : sh.index ∈ sh.slots := by
  cases sh <;> simp [Shape.index, Shape.slots, Shape.leaves, Shape.internals]

theorem Shape.mem_slots_left {i : NodeIdx} {l r : Shape} {n : NodeIdx} (h : n ∈ l.slots) :
    n ∈ (Shape.node i l r).slots := by
  simp only [Shape.slots, Shape.leaves, Shape.internals, List.mem_append, List.map_append, List.mem_cons] at *
  tauto

theorem Shape.mem_slots_right {i : NodeIdx} {l r : Shape} {n : NodeIdx} (h : n ∈ r.slots) :
    n ∈ (Shape.node i l r).slots := by
  simp only [Shape.slots, Shape.leaves, Shape.internals, List.mem_append, List.map_append, List.mem_cons] at *
  tauto

theorem Shape.mem_slots_node {i : NodeIdx} {l r : Shape} {n : NodeIdx} :
    n ∈ (Shape.node i l r).slots ↔ n = i ∨ n ∈ l.slots ∨ n ∈ r.slots := by
  simp only [Shape.slots, Shape.leaves, Shape.internals, List.mem_append, List.map_append, List.mem_cons]
  tauto

/-- A shape is held by the slots it names and by no others. -/
theorem Shape.Holds.congr {t u : Tree} {p : Option NodeIdx} {sh : Shape} (h : sh.Holds t p)
    (hu : ∀ n ∈ sh.slots, u.nodeAt n = t.nodeAt n) : sh.Holds u p := by
  induction sh generalizing p with
  | leaf b =>
    have := hu (leafIdx b) (Shape.index_mem_slots (.leaf b))
    simp only [Shape.Holds] at *
    rwa [this]
  | node i l r ihl ihr =>
    have hi := hu i (Shape.index_mem_slots (.node i l r))
    simp only [Shape.Holds] at *
    obtain ⟨h1, h2, h3, h4, h5, h6, h7, h8, h9⟩ := h
    rw [hi]
    exact ⟨h1, h2, h3, h4, h5, h6, h7, ihl h8 fun n hn => hu n (Shape.mem_slots_left hn),
      ihr h9 fun n hn => hu n (Shape.mem_slots_right hn)⟩

theorem Shape.Holds.valid {t : Tree} {p : Option NodeIdx} {sh : Shape} (h : sh.Holds t p) {n : NodeIdx}
    (hn : n ∈ sh.slots) : (t.nodeAt n).valid = true := by
  induction sh generalizing p with
  | leaf b =>
    simp only [Shape.slots, Shape.leaves, Shape.internals, List.map_cons, List.map_nil, List.append_nil,
      List.mem_singleton] at hn
    subst hn
    exact h.1
  | node i l r ihl ihr =>
    obtain ⟨-, h2, -, -, -, -, -, h8, h9⟩ := h
    rcases Shape.mem_slots_node.mp hn with rfl | hl | hr
    · exact h2
    · exact ihl h8 hl
    · exact ihr h9 hr

theorem Shape.Holds.internal_range {t : Tree} {p : Option NodeIdx} {sh : Shape} (h : sh.Holds t p) {n : NodeIdx}
    (hn : n ∈ sh.internals) : 256 ≤ n.toNat ∧ n.toNat < 511 := by
  induction sh generalizing p with
  | leaf b => simp [Shape.internals] at hn
  | node i l r ihl ihr =>
    obtain ⟨h1, h2, -, -, -, -, -, h8, h9⟩ := h
    simp only [Shape.internals, List.mem_cons, List.mem_append] at hn
    rcases hn with rfl | hl | hr
    · exact ⟨h1, Tree.lt_of_valid h2⟩
    · exact ihl h8 hl
    · exact ihr h9 hr

/-- R112: one leaf more than internal nodes. -/
theorem Shape.length_leaves (sh : Shape) : sh.leaves.length = sh.internals.length + 1 := by
  induction sh with
  | leaf b => rfl
  | node i l r ihl ihr => simp [Shape.leaves, Shape.internals, ihl, ihr]; omega

/-- R11: a path has no more edges than there are internal nodes. -/
theorem Shape.length_path {sh : Shape} {b : Byte} {l : List Bool} (h : sh.path b = some l) :
    l.length ≤ sh.internals.length := by
  induction sh generalizing l with
  | leaf c =>
    by_cases hc : c = b <;> simp [Shape.path, hc] at h
    subst h; simp
  | node i x y ihx ihy =>
    simp only [Shape.path] at h
    cases hx : x.path b with
    | some p =>
      simp only [hx] at h; cases h
      have := ihx hx
      simp [Shape.internals]; omega
    | none =>
      simp only [hx] at h
      cases hy : y.path b with
      | none => simp [hy] at h
      | some p =>
        simp only [hy, Option.map_some] at h; cases h
        have := ihy hy
        simp [Shape.internals]; omega

theorem Shape.path_isSome {sh : Shape} {b : Byte} : (sh.path b).isSome = true ↔ b ∈ sh.leaves := by
  induction sh with
  | leaf c =>
    by_cases h : c = b
    · simp [Shape.path, Shape.leaves, h]
    · simp [Shape.path, Shape.leaves, h, Ne.symm h]
  | node i l r ihl ihr =>
    simp only [Shape.path, Shape.leaves, List.mem_append, ← ihl, ← ihr]
    cases l.path b <;> simp

theorem Shape.path_eq_none {sh : Shape} {b : Byte} : sh.path b = none ↔ b ∉ sh.leaves := by
  rw [← Shape.path_isSome]; cases sh.path b <;> simp

/-- A walk through a held shape meets at most 255 internal nodes (R10, R11). -/
theorem length_internals_le {l : List NodeIdx} (hd : l.Nodup) (hr : ∀ n ∈ l, 256 ≤ n.toNat ∧ n.toNat < 511) :
    l.length ≤ 255 := by
  have h1 : (l.map fun n => n.toNat - 256).Nodup := by
    refine (List.nodup_map_iff_inj_on hd).mpr fun a ha b hb hab => BitVec.eq_of_toNat_eq ?_
    have := hr a ha; have := hr b hb
    omega
  have h2 : ∀ k ∈ l.map fun n => n.toNat - 256, k < 255 := by
    intro k hk
    obtain ⟨n, hn, rfl⟩ := List.mem_map.mp hk
    have := hr n hn
    omega
  have := (List.subperm_of_subset h1 fun k hk => List.mem_range.mpr (h2 k hk)).length_le
  simpa using this

end Sys2Proof.Machine
end

