-- ==== Sys2Proof/Laws/Writer.lean ====
section
/-! SUPPORT. The bit writer (Machine/Ops.lean, spec/40_bitstream.md R87 to R90): each write appends its bits to the output's
bit sequence, keeps the writer well formed, and leaves OUT_CLOSED as it is. -/

namespace Sys2Proof.Machine

theorem OutPort.wcnt_lt (o : OutPort) : o.wcnt.toNat < 8 := o.wcnt.isLt

theorem getLsbD_filled (o : OutPort) (b : Bool) {i : Nat} (hi : i < 8) :
    (o.filled b).getLsbD i = if i = o.wcnt.toNat then b else o.wbuf.getLsbD i := by
  have hw := o.wcnt_lt
  have h1 : (1#8 <<< o.wcnt.toNat).getLsbD i = decide (i = o.wcnt.toNat) := by
    rw [BitVec.getLsbD_shiftLeft]
    by_cases h : i = o.wcnt.toNat
    · subst h; simp [hi]
    · by_cases h2 : i < o.wcnt.toNat
      · simp [h2, h]
      · have : i - o.wcnt.toNat ≠ 0 := by omega
        simp [h, h2, hi, BitVec.getLsbD_one, this]
  have hz : ((if b then 1#8 else 0#8) <<< o.wcnt.toNat).getLsbD i = (b && decide (i = o.wcnt.toNat)) := by
    cases b
    · simp
    · simpa using h1
  rw [OutPort.filled, BitVec.getLsbD_or, BitVec.getLsbD_and, BitVec.getLsbD_not, hz, h1]
  by_cases h : i = o.wcnt.toNat
  · simp [h]
  · simp [h, hi]

theorem toNat_lt_two_pow {w : Nat} {v : BitVec w} {n : Nat} (h : ∀ i, n ≤ i → i < w → v.getLsbD i = false) :
    v.toNat < 2 ^ n := by
  refine Nat.lt_pow_two_of_testBit _ fun i hi => ?_
  rw [BitVec.testBit_toNat]
  by_cases hw : i < w
  · exact h i hi hw
  · exact BitVec.getLsbD_of_ge v i (Nat.not_lt.mp hw)

theorem getLsbD_of_toNat_lt {w : Nat} {v : BitVec w} {n i : Nat} (h : v.toNat < 2 ^ n) (hi : n ≤ i) :
    v.getLsbD i = false := by
  rw [← BitVec.testBit_toNat]
  exact Nat.testBit_lt_two_pow (Nat.lt_of_lt_of_le h (Nat.pow_le_pow_right (by decide) hi))

/-- R87: the accumulated bits after a bit, the byte not yet full. -/
theorem take_bitsOf_filled (o : OutPort) (b : Bool) :
    (bitsOf (o.filled b)).take (o.wcnt.toNat + 1) = (bitsOf o.wbuf).take o.wcnt.toNat ++ [b] := by
  have hw := o.wcnt_lt
  refine List.ext_getElem (by simp; omega) fun i h1 h2 => ?_
  simp only [List.length_take, length_bitsOf] at h1
  have hi : i < 8 := by omega
  rw [List.getElem_take, List.getElem_append]
  have hf : (bitsOf (o.filled b))[i]'(by simp; omega) = (o.filled b).getLsbD i := by simp [bitsOf]
  rw [hf, getLsbD_filled o b hi]
  by_cases h : i = o.wcnt.toNat
  · subst h; simp
  · have : i < o.wcnt.toNat := by omega
    simp [h, this, bitsOf]
    omega

theorem wcnt_eq_seven {c : BitVec 3} : c = 7#3 ↔ c.toNat = 7 := by
  constructor
  · rintro rfl; rfl
  · intro h; exact BitVec.eq_of_toNat_eq h

theorem wcnt_succ {c : BitVec 3} (h : c ≠ 7#3) : (c + 1#3).toNat = c.toNat + 1 := by
  have h1 := c.isLt
  have h2 : c.toNat ≠ 7 := fun e => h (wcnt_eq_seven.mpr e)
  rw [BitVec.toNat_add]
  simp only [BitVec.reduceToNat] at *
  omega

/-- R87: WriteBit appends its bit. -/
theorem OutPort.writeBit_bits (o : OutPort) (b : Bool) : (o.writeBit b).bits = o.bits ++ [b] := by
  have ht := take_bitsOf_filled o b
  by_cases h : o.wcnt = 7#3
  · have h7 := wcnt_eq_seven.mp h
    rw [h7, List.take_of_length_le (by simp)] at ht
    simp [OutPort.writeBit, h, OutPort.bits, OutPort.pendingBits, ht]
  · simp [OutPort.writeBit, h, OutPort.bits, OutPort.pendingBits, wcnt_succ h, ht]

theorem OutPort.writeBit_zeroAbove {o : OutPort} (hz : o.ZeroAbove) (b : Bool) : (o.writeBit b).ZeroAbove := by
  by_cases h : o.wcnt = 7#3
  · simp [OutPort.writeBit, h, OutPort.ZeroAbove]
  · simp only [OutPort.writeBit, h, OutPort.ZeroAbove, if_false, wcnt_succ h]
    refine toNat_lt_two_pow fun i h1 h2 => ?_
    rw [getLsbD_filled o b h2, if_neg (by omega)]
    exact getLsbD_of_toNat_lt hz (by omega)

@[simp] theorem OutPort.writeBit_closed (o : OutPort) (b : Bool) : (o.writeBit b).closed = o.closed := by
  by_cases h : o.wcnt = 7#3 <;> simp [OutPort.writeBit, h]

@[simp] theorem OutPort.writeBits_nil (o : OutPort) : o.writeBits [] = o := rfl

@[simp] theorem OutPort.writeBits_cons (o : OutPort) (b : Bool) (l : List Bool) :
    o.writeBits (b :: l) = (o.writeBit b).writeBits l := rfl

theorem OutPort.writeBits_append (o : OutPort) (l m : List Bool) :
    o.writeBits (l ++ m) = (o.writeBits l).writeBits m := List.foldl_append ..

theorem OutPort.writeBits_bits (o : OutPort) (l : List Bool) : (o.writeBits l).bits = o.bits ++ l := by
  induction l generalizing o with
  | nil => simp
  | cons b l ih => simp [ih, OutPort.writeBit_bits]

theorem OutPort.writeBits_zeroAbove {o : OutPort} (hz : o.ZeroAbove) (l : List Bool) : (o.writeBits l).ZeroAbove := by
  induction l generalizing o with
  | nil => exact hz
  | cons b l ih => exact ih (writeBit_zeroAbove hz b)

@[simp] theorem OutPort.writeBits_closed (o : OutPort) (l : List Bool) : (o.writeBits l).closed = o.closed := by
  induction l generalizing o with
  | nil => rfl
  | cons b l ih => simp [ih]

/-! The output port is known from its bits: two well-formed writers with the same bits hold the same bytes and the same
partial byte. -/

theorem OutPort.length_pendingBits (o : OutPort) : o.pendingBits.length = o.wcnt.toNat := by
  have := o.wcnt_lt
  simp [OutPort.pendingBits]; omega

theorem OutPort.wbuf_eq_ofBits {o : OutPort} (hz : o.ZeroAbove) : o.wbuf = ofBits 8 o.pendingBits := by
  refine BitVec.eq_of_getLsbD_eq fun i h => ?_
  rw [getLsbD_ofBits, OutPort.pendingBits, List.getD_eq_getElem?_getD, List.getElem?_take]
  by_cases hi : i < o.wcnt.toNat
  · rw [if_pos hi, getElem?_bitsOf]; simp [h]
  · simp [hi, getLsbD_of_toNat_lt hz (Nat.not_lt.mp hi)]

theorem OutPort.eq_of_bits {o q : OutPort} (ho : o.ZeroAbove) (hq : q.ZeroAbove) (h : o.bits = q.bits) :
    o.data = q.data ∧ o.wcnt = q.wcnt ∧ o.wbuf = q.wbuf := by
  have hl := congrArg List.length h
  simp only [OutPort.bits, List.length_append, length_streamBits, OutPort.length_pendingBits] at hl
  have h1 := o.wcnt_lt
  have h2 := q.wcnt_lt
  have hd : o.data.length = q.data.length := by omega
  have hw : o.wcnt = q.wcnt := BitVec.eq_of_toNat_eq (by omega)
  have hs := List.append_inj h (by simp [hd])
  refine ⟨streamBits_injective hs.1, hw, ?_⟩
  rw [OutPort.wbuf_eq_ofBits ho, OutPort.wbuf_eq_ofBits hq, hs.2]

theorem OutPort.CountsFrom.refl (o : OutPort) : o.CountsFrom o := ⟨[], by simp⟩

theorem OutPort.CountsFrom.trans {o q r : OutPort} (h : o.CountsFrom q) (k : q.CountsFrom r) : o.CountsFrom r := by
  obtain ⟨l, hd, hc⟩ := h
  obtain ⟨m, kd, kc⟩ := k
  refine ⟨l ++ m, by simp [kd, hd], ?_⟩
  rw [kc, hc, List.length_append, BitVec.ofNat_add, BitVec.add_assoc]

theorem OutPort.outByte_countsFrom (o : OutPort) (b : Byte) : o.CountsFrom (o.outByte b) := ⟨[b], by simp⟩

theorem OutPort.writeBit_countsFrom (o : OutPort) (b : Bool) : o.CountsFrom (o.writeBit b) := by
  by_cases h : o.wcnt = 7#3
  · exact ⟨[o.filled b], by simp [OutPort.writeBit, h]⟩
  · exact ⟨[], by simp [OutPort.writeBit, h]⟩

theorem OutPort.writeBits_countsFrom (o : OutPort) (l : List Bool) : o.CountsFrom (o.writeBits l) := by
  induction l generalizing o with
  | nil => exact .refl o
  | cons b l ih => exact (o.writeBit_countsFrom b).trans (ih _)

/-! R88, R89: the fast paths. -/

theorem OutPort.outBytes_data (o : OutPort) (l : List Byte) :
    (l.foldl OutPort.outByte o).data = o.data ++ l ∧ (l.foldl OutPort.outByte o).wbuf = o.wbuf ∧
      (l.foldl OutPort.outByte o).wcnt = o.wcnt ∧ (l.foldl OutPort.outByte o).closed = o.closed ∧
      o.CountsFrom (l.foldl OutPort.outByte o) := by
  induction l generalizing o with
  | nil => simp [OutPort.CountsFrom.refl]
  | cons b l ih =>
    obtain ⟨h1, h2, h3, h4, h5⟩ := ih (o.outByte b)
    refine ⟨?_, ?_, ?_, ?_, (o.outByte_countsFrom b).trans h5⟩ <;> simp_all

theorem OutPort.bits_of_aligned {o : OutPort} (h : o.wcnt = 0#3) : o.bits = streamBits o.data := by
  simp [OutPort.bits, OutPort.pendingBits, h]

theorem OutPort.writeByte_bits (o : OutPort) (v : Byte) : (o.writeByte v).bits = o.bits ++ bitsOf v := by
  by_cases h : o.wcnt = 0#3
  · simp only [OutPort.writeByte, h, if_true]
    rw [OutPort.bits_of_aligned (by simpa using h), OutPort.bits_of_aligned h]; simp
  · simp [OutPort.writeByte, h, OutPort.writeBits_bits]

theorem OutPort.writeByte_zeroAbove {o : OutPort} (hz : o.ZeroAbove) (v : Byte) : (o.writeByte v).ZeroAbove := by
  by_cases h : o.wcnt = 0#3
  · simpa [OutPort.writeByte, h, OutPort.ZeroAbove] using hz
  · simpa [OutPort.writeByte, h] using writeBits_zeroAbove hz _

@[simp] theorem OutPort.writeByte_closed (o : OutPort) (v : Byte) : (o.writeByte v).closed = o.closed := by
  by_cases h : o.wcnt = 0#3 <;> simp [OutPort.writeByte, h]

theorem OutPort.writeByte_countsFrom (o : OutPort) (v : Byte) : o.CountsFrom (o.writeByte v) := by
  by_cases h : o.wcnt = 0#3
  · simpa [OutPort.writeByte, h] using o.outByte_countsFrom v
  · simpa [OutPort.writeByte, h] using o.writeBits_countsFrom _

theorem OutPort.writeInt64_bits (o : OutPort) (v : Dword) : (o.writeInt64 v).bits = o.bits ++ bitsOf v := by
  by_cases h : o.wcnt = 0#3
  · obtain ⟨h1, -, h3, -, -⟩ := o.outBytes_data (bytesOf v)
    simp only [OutPort.writeInt64, h, if_true]
    rw [OutPort.bits_of_aligned (h3.trans h), OutPort.bits_of_aligned h, h1, streamBits_append, streamBits_bytesOf]
  · simp [OutPort.writeInt64, h, OutPort.writeBits_bits]

theorem OutPort.writeInt64_zeroAbove {o : OutPort} (hz : o.ZeroAbove) (v : Dword) : (o.writeInt64 v).ZeroAbove := by
  by_cases h : o.wcnt = 0#3
  · obtain ⟨-, h2, h3, -, -⟩ := o.outBytes_data (bytesOf v)
    simp only [OutPort.writeInt64, h, if_true, OutPort.ZeroAbove, h2, h3]
    simpa [OutPort.ZeroAbove, h] using hz
  · simpa [OutPort.writeInt64, h] using writeBits_zeroAbove hz _

@[simp] theorem OutPort.writeInt64_closed (o : OutPort) (v : Dword) : (o.writeInt64 v).closed = o.closed := by
  by_cases h : o.wcnt = 0#3
  · simpa [OutPort.writeInt64, h] using (o.outBytes_data (bytesOf v)).2.2.2.1
  · simp [OutPort.writeInt64, h]

theorem OutPort.writeInt64_countsFrom (o : OutPort) (v : Dword) : o.CountsFrom (o.writeInt64 v) := by
  by_cases h : o.wcnt = 0#3
  · simpa [OutPort.writeInt64, h] using (o.outBytes_data (bytesOf v)).2.2.2.2
  · simpa [OutPort.writeInt64, h] using o.writeBits_countsFrom _

/-! R90: the partial byte. -/

@[simp] theorem OutPort.flush_wcnt (o : OutPort) : o.flush.wcnt = 0#3 := by
  by_cases h : o.wcnt = 0#3 <;> simp [OutPort.flush, h]

@[simp] theorem OutPort.flush_closed (o : OutPort) : o.flush.closed = o.closed := by
  by_cases h : o.wcnt = 0#3 <;> simp [OutPort.flush, h]

theorem OutPort.flush_zeroAbove {o : OutPort} (hz : o.ZeroAbove) : o.flush.ZeroAbove := by
  by_cases h : o.wcnt = 0#3
  · simpa [OutPort.flush, h] using hz
  · simp [OutPort.flush, h, OutPort.ZeroAbove]

theorem OutPort.flush_countsFrom (o : OutPort) : o.CountsFrom o.flush := by
  by_cases h : o.wcnt = 0#3
  · simpa [OutPort.flush, h] using OutPort.CountsFrom.refl o
  · exact ⟨[o.wbuf], by simp [OutPort.flush, h]⟩

/-- R90, R125 (4): flushing fills the last byte with zero bits. -/
theorem OutPort.flush_bits {o : OutPort} (hz : o.ZeroAbove) : o.flush.bits = o.bits ++ padding o.bits := by
  have hw := o.wcnt_lt
  have hlen : o.bits.length = 8 * o.data.length + o.wcnt.toNat := by
    simp [OutPort.bits, OutPort.length_pendingBits]
  by_cases h : o.wcnt = 0#3
  · simp [OutPort.flush, h, padding, hlen]
  · have h0 : o.wcnt.toNat ≠ 0 := fun e => h (BitVec.eq_of_toNat_eq e)
    have hp : (8 - o.bits.length % 8) % 8 = 8 - o.wcnt.toNat := by omega
    rw [OutPort.bits_of_aligned (by simp), padding, hp]
    simp only [OutPort.flush, h, if_false, OutPort.outByte_data, streamBits_append, streamBits_cons, streamBits_nil,
      List.append_nil, OutPort.bits, List.append_assoc]
    congr 1
    refine List.ext_getElem (by simp [OutPort.pendingBits]; omega) fun i h1 h2 => ?_
    rw [List.getElem_append]
    have hi : i < 8 := by simpa using h1
    by_cases hlt : i < o.wcnt.toNat
    · rw [dif_pos (by simpa [OutPort.length_pendingBits] using hlt)]
      simp [OutPort.pendingBits]
    · rw [dif_neg (by simpa [OutPort.length_pendingBits] using hlt)]
      simpa [bitsOf] using getLsbD_of_toNat_lt hz (Nat.not_lt.mp hlt)

end Sys2Proof.Machine
end

