-- ==== Sys2Proof/Laws/Walks.lean ====
section
/-! SUPPORT. The walks over a store that holds a shape: SER_TREE's (R113), CODES' (R118) and DEC_SYM's (R120), each fitting
the walk stack when the shape does. -/

namespace Sys2Proof.Machine

theorem OutPort.Appends.trans {o q r : OutPort} {l m : List Bool} (h : o.Appends l q) (k : q.Appends m r) :
    o.Appends (l ++ m) r :=
  ⟨by rw [k.bits, h.bits, List.append_assoc], k.closed.trans h.closed, fun hz => k.zeroAbove (h.zeroAbove hz),
    h.counts.trans k.counts⟩

theorem OutPort.Appends.refl (o : OutPort) : o.Appends [] o := ⟨by simp, rfl, id, .refl o⟩

theorem OutPort.writeBit_appends (o : OutPort) (b : Bool) : o.Appends [b] (o.writeBit b) :=
  ⟨o.writeBit_bits b, o.writeBit_closed b, fun hz => writeBit_zeroAbove hz b, o.writeBit_countsFrom b⟩

theorem OutPort.writeBits_appends (o : OutPort) (l : List Bool) : o.Appends l (o.writeBits l) :=
  ⟨o.writeBits_bits l, o.writeBits_closed l, fun hz => writeBits_zeroAbove hz l, o.writeBits_countsFrom l⟩

theorem OutPort.writeByte_appends (o : OutPort) (v : Byte) : o.Appends (bitsOf v) (o.writeByte v) :=
  ⟨o.writeByte_bits v, o.writeByte_closed v, fun hz => writeByte_zeroAbove hz v, o.writeByte_countsFrom v⟩

theorem OutPort.writeInt64_appends (o : OutPort) (v : Dword) : o.Appends (bitsOf v) (o.writeInt64 v) :=
  ⟨o.writeInt64_bits v, o.writeInt64_closed v, fun hz => writeInt64_zeroAbove hz v, o.writeInt64_countsFrom v⟩

/-! R113. -/

/-- Whatever the store: if the walk fits the stack, it appends some bits. -/
theorem ser_appends (t : Tree) (d : Nat) (n : NodeIdx) (o q : OutPort) (h : ser t d n o = some q) :
    ∃ l, o.Appends l q := by
  induction d generalizing n o q with
  | zero => simp [ser] at h
  | succ d ih =>
    simp only [ser] at h
    split at h
    · split at h
      · cases h
      · next o1 h1 =>
        obtain ⟨l1, hl1⟩ := ih _ _ _ h1
        obtain ⟨l2, hl2⟩ := ih _ _ _ h
        exact ⟨_, ((o.writeBit_appends true).trans hl1).trans hl2⟩
    · cases h
      exact ⟨_, (o.writeBit_appends false).trans (OutPort.writeByte_appends _ _)⟩

/-- R113: a held shape is written in pre-order. -/
theorem ser_holds {t : Tree} {p : Option NodeIdx} {sh : Shape} (h : sh.Holds t p) (d : Nat)
    (hd : sh.internals.length < d) (o : OutPort) :
    ∃ q, ser t d sh.index o = some q ∧ o.Appends sh.preorder q := by
  induction sh generalizing p d o with
  | leaf b =>
    obtain ⟨-, h2, -⟩ := h
    cases d with
    | zero => omega
    | succ d =>
      refine ⟨(o.writeBit false).writeByte b, ?_, (o.writeBit_appends false).trans (OutPort.writeByte_appends _ b)⟩
      simp [ser, h2]
  | node i l r ihl ihr =>
    obtain ⟨-, -, h3, h4, h5, -, -, h8, h9⟩ := h
    simp only [Shape.internals, List.length_cons, List.length_append] at hd
    cases d with
    | zero => omega
    | succ d =>
      obtain ⟨q1, e1, a1⟩ := ihl h8 d (by omega) (o.writeBit true)
      obtain ⟨q2, e2, a2⟩ := ihr h9 d (by omega) q1
      refine ⟨q2, ?_, ?_⟩
      · simp [ser, h3, h4, h5, e1, e2]
      · have := ((o.writeBit_appends true).trans a1).trans a2
        simpa [Shape.preorder] using this

/-! R118. -/

/-- The walk from a leaf up to the root of a held shape gives the path down. -/
theorem walkUp_holds {t : Tree} {p : Option NodeIdx} {sh : Shape} (h : sh.Holds t p) (hd : sh.slots.Nodup) {b : Byte}
    {l : List Bool} (hl : sh.path b = some l) (k : Nat) (acc : List Bool) :
    walkUp t (k + l.length) (leafIdx b) acc = walkUp t k sh.index (l ++ acc) := by
  induction sh generalizing p l k acc with
  | leaf c =>
    by_cases hc : c = b <;> simp [Shape.path, hc] at hl
    subst hl hc
    rfl
  | node i x y ihx ihy =>
    obtain ⟨-, -, -, h4, h5, -, -, h8, h9⟩ := h
    have hxy : x.slots.Nodup ∧ y.slots.Nodup ∧ ∀ n ∈ x.slots, n ∉ y.slots := by
      simp only [Shape.slots, Shape.leaves, Shape.internals, List.map_append] at hd ⊢
      simp only [List.nodup_append, List.nodup_cons, List.mem_append, List.mem_cons] at hd ⊢
      grind
    have child : ∀ (z : Shape) (bit : Bool), z.Holds t (some i) → decide ((t.nodeAt i).right = z.index) = bit →
        ∀ (k : Nat) (acc : List Bool), walkUp t (k + 1) z.index acc = walkUp t k i (bit :: acc) := by
      intro z bit hz hb k acc
      have hp : (t.nodeAt z.index).hasParent = true ∧ (t.nodeAt z.index).parent = i := by
        cases z with
        | leaf c => obtain ⟨-, -, -, -, e, f⟩ := hz; exact ⟨by simpa using e, by simpa using f⟩
        | node j u v => obtain ⟨-, -, -, -, -, e, f, -⟩ := hz; exact ⟨by simpa using e, by simpa using f⟩
      simp [walkUp, hp.1, hp.2, hb]
    simp only [Shape.path] at hl
    cases hx : x.path b with
    | some m =>
      simp only [hx] at hl; cases hl
      have hne : (t.nodeAt i).right ≠ x.index := by
        rw [h5]; intro e
        exact hxy.2.2 _ x.index_mem_slots (e ▸ y.index_mem_slots)
      rw [List.length_cons, show k + (m.length + 1) = k + 1 + m.length by omega, ihx h8 hxy.1 hx (k + 1) acc,
        child x false h8 (by simpa using hne) k (m ++ acc)]
      rfl
    | none =>
      simp only [hx] at hl
      cases hy : y.path b with
      | none => simp [hy] at hl
      | some m =>
        simp only [hy, Option.map_some] at hl; cases hl
        rw [List.length_cons, show k + (m.length + 1) = k + 1 + m.length by omega, ihy h9 hxy.2.1 hy (k + 1) acc,
          child y true h9 (by simp [h5]) k (m ++ acc)]
        rfl

/-! R120. -/

/-- A descent through a held shape ends at a leaf or for want of a bit, whatever the stream. -/
theorem descend_holds {t : Tree} {p : Option NodeIdx} {sh : Shape} (h : sh.Holds t p) (d : Nat)
    (hd : sh.internals.length < d) (q : InPort) :
    (∃ b r, b ∈ sh.leaves ∧ descend t d sh.index q = .leaf (leafIdx b) r ∧ q.Keeps r) ∨
      ∃ r, descend t d sh.index q = .stop .truncatedArchive r ∧ q.Keeps r := by
  induction sh generalizing p d q with
  | leaf b =>
    obtain ⟨-, h2, -⟩ := h
    cases d with
    | zero => omega
    | succ d => exact .inl ⟨b, q, by simp [Shape.leaves], by simp [descend, h2], .refl q⟩
  | node i l r ihl ihr =>
    obtain ⟨-, -, h3, h4, h5, -, -, h8, h9⟩ := h
    simp only [Shape.internals, List.length_cons, List.length_append] at hd
    cases d with
    | zero => omega
    | succ d =>
      cases hb : q.readBit with
      | none => exact .inr ⟨q, by simp [descend, h3, hb], .refl q⟩
      | some x =>
        obtain ⟨bit, q1⟩ := x
        have hk := InPort.readBit_keeps hb
        cases bit with
        | false =>
          have hv := h8.valid l.index_mem_slots
          rcases ihl h8 d (by omega) q1 with ⟨b, r1, hb1, e, k1⟩ | ⟨r1, e, k1⟩
          · exact .inl ⟨b, r1, by simp [Shape.leaves, hb1], by simp [descend, h3, h4, hb, hv, e], hk.trans k1⟩
          · exact .inr ⟨r1, by simp [descend, h3, h4, hb, hv, e], hk.trans k1⟩
        | true =>
          have hv := h9.valid r.index_mem_slots
          rcases ihr h9 d (by omega) q1 with ⟨b, r1, hb1, e, k1⟩ | ⟨r1, e, k1⟩
          · exact .inl ⟨b, r1, by simp [Shape.leaves, hb1], by simp [descend, h3, h5, hb, hv, e], hk.trans k1⟩
          · exact .inr ⟨r1, by simp [descend, h3, h5, hb, hv, e], hk.trans k1⟩

/-- R120, R123: the bits of a leaf's path lead to that leaf, and no more bits are read. -/
theorem descend_path {t : Tree} {p : Option NodeIdx} {sh : Shape} (h : sh.Holds t p) (hdis : sh.leaves.Nodup) (d : Nat)
    (hd : sh.internals.length < d) {b : Byte} {l : List Bool} (hl : sh.path b = some l) {q : InPort} (hs : q.Short)
    (hw : q.Wf) {rest : List Bool} (hq : q.bits = l ++ rest) :
    ∃ r, descend t d sh.index q = .leaf (leafIdx b) r ∧ r.bits = rest ∧ q.SameStream r ∧ r.Wf := by
  induction sh generalizing p d l q with
  | leaf c =>
    obtain ⟨-, h2, -⟩ := h
    by_cases hc : c = b <;> simp [Shape.path, hc] at hl
    subst hl hc
    cases d with
    | zero => omega
    | succ d => exact ⟨q, by simp [descend, h2], by simpa using hq, .refl q, hw⟩
  | node i x y ihx ihy =>
    obtain ⟨-, -, h3, h4, h5, -, -, h8, h9⟩ := h
    simp only [Shape.internals, List.length_cons, List.length_append] at hd
    simp only [Shape.leaves, List.nodup_append] at hdis
    cases d with
    | zero => omega
    | succ d =>
      simp only [Shape.path] at hl
      cases hx : x.path b with
      | some m =>
        simp only [hx] at hl; cases hl
        obtain ⟨q1, e1, b1, s1, w1⟩ := InPort.readBit_cons hs (l := m ++ rest) (b := false) (by rw [hq]; rfl)
        obtain ⟨r, e, br, sr, wr⟩ := ihx h8 hdis.1 d (by omega) hx (s1.short hs) w1 b1
        have hv := h8.valid x.index_mem_slots
        exact ⟨r, by simp [descend, h3, h4, e1, hv, e], br, s1.trans sr, wr⟩
      | none =>
        simp only [hx] at hl
        cases hy : y.path b with
        | none => simp [hy] at hl
        | some m =>
          simp only [hy, Option.map_some] at hl; cases hl
          obtain ⟨q1, e1, b1, s1, w1⟩ := InPort.readBit_cons hs (l := m ++ rest) (b := true) (by rw [hq]; rfl)
          obtain ⟨r, e, br, sr, wr⟩ := ihy h9 hdis.2.1 d (by omega) hy (s1.short hs) w1 b1
          have hv := h9.valid y.index_mem_slots
          exact ⟨r, by simp [descend, h3, h5, e1, hv, e], br, s1.trans sr, wr⟩

/-- Whatever the store: a descent keeps the stream and the reader. -/
theorem descend_keeps (t : Tree) (d : Nat) (n : NodeIdx) (p : InPort) :
    (∀ m q, descend t d n p = .leaf m q → p.Keeps q) ∧ ∀ e q, descend t d n p = .stop e q → p.Keeps q := by
  induction d generalizing n p with
  | zero => simp [descend]
  | succ d ih =>
    by_cases hi : (t.nodeAt n).internal = true
    · cases hb : p.readBit with
      | none =>
        simp only [descend, hi, hb, if_true]
        exact ⟨fun _ _ h => (by cases h), fun _ _ h => (by cases h; exact .refl p)⟩
      | some x =>
        obtain ⟨bit, q⟩ := x
        have hk := InPort.readBit_keeps hb
        simp only [descend, hi, hb, if_true]
        generalize (if bit = true then (t.nodeAt n).right else (t.nodeAt n).left) = c
        by_cases hv : (t.nodeAt c).valid = true
        · rw [if_pos hv]
          exact ⟨fun m r h => hk.trans ((ih _ q).1 m r h), fun e r h => hk.trans ((ih _ q).2 e r h)⟩
        · rw [if_neg hv]
          exact ⟨fun _ _ h => (by cases h), fun _ _ h => (by cases h; exact hk)⟩
    · simp only [descend, hi]
      exact ⟨fun _ _ h => (by cases h; exact .refl p), fun _ _ h => (by cases h)⟩

end Sys2Proof.Machine
end

