-- ==== Sys2Proof/Laws/ReadTree.lean ====
section
/-! SUPPORT. The reading of a tree (Machine/TreeCodec.lean, spec/42_tree_codec.md R114 to R117): what it builds, that the walk
stack suffices, and that every pre-order of distinct leaves is accepted. -/

namespace Sys2Proof.Machine

/-- A store in the making: empty slots are all 0, and the internal slots in use are the first NINT (R44, R45). -/
structure Tree.Partial (t : Tree) : Prop where
  invalidEmpty : ∀ n, (t.nodeAt n).valid = false → t.nodeAt n = Node.empty
  allocated : ∀ n, 256 ≤ n.toNat → ((t.nodeAt n).valid = true ↔ n.toNat < 256 + t.nint.toNat)

theorem Tree.empty_partial : Tree.empty.Partial :=
  ⟨fun n _ => Tree.nodeAt_empty n, fun n h => by
    have h0 : Tree.empty.nint.toNat = 0 := rfl
    rw [Tree.nodeAt_empty, h0]
    simpa [Node.empty] using h⟩

theorem Shape.slots_node_perm (i : NodeIdx) (l r : Shape) :
    (Shape.node i l r).slots.Perm (i :: (l.slots ++ r.slots)) := by
  simp only [Shape.slots, Shape.leaves, Shape.internals, List.map_append]
  refine List.perm_iff_count.mpr fun a => ?_
  simp only [List.count_append, List.count_cons]
  omega

theorem Shape.nodup_node {i : NodeIdx} {l r : Shape} (hl : l.slots.Nodup) (hr : r.slots.Nodup) (hil : i ∉ l.slots)
    (hir : i ∉ r.slots) (hd : ∀ n ∈ l.slots, n ∉ r.slots) : (Shape.node i l r).slots.Nodup := by
  rw [(Shape.slots_node_perm i l r).nodup_iff, List.nodup_cons, List.nodup_append]
  refine ⟨by simp [hil, hir], hl, hr, fun a ha b hb e => hd a ha (e ▸ hb)⟩

theorem Shape.nodup_parts {sh : Shape} (h : sh.slots.Nodup) : sh.leaves.Nodup ∧ sh.internals.Nodup := by
  rw [Shape.slots, List.nodup_append] at h
  exact ⟨h.1.of_map, h.2.1⟩

/-! The two ways a node is opened. -/

theorem nint_succ {k : BitVec 8} (h : k ≠ 255#8) : (k + 1#8).toNat = k.toNat + 1 := by
  have h1 := k.isLt
  have h2 : k.toNat ≠ 255 := fun e => h (BitVec.eq_of_toNat_eq e)
  rw [BitVec.toNat_add]
  simp only [BitVec.reduceToNat]
  omega

theorem internalIdx_lt {k : BitVec 8} (h : k ≠ 255#8) : (internalIdx k).toNat < 511 := by
  have h1 := k.isLt
  have h2 : k.toNat ≠ 255 := fun e => h (BitVec.eq_of_toNat_eq e)
  rw [toNat_internalIdx]
  omega

/-- R114: what opening an internal node writes. -/
theorem Tree.nodeAt_openInternal {t : Tree} (h : t.nint ≠ 255#8) (p : Option NodeIdx) (m : NodeIdx) :
    (t.openInternal p).nodeAt m =
      if m = internalIdx t.nint then
        { Node.empty with valid := true, internal := true, parent := p.getD 0#9, hasParent := p.isSome }
      else t.nodeAt m := by
  have hn := internalIdx_lt h
  simp only [Tree.openInternal, Tree.setParent_eq]
  by_cases hm : m = internalIdx t.nint
  · subst hm
    rw [Tree.nodeAt_setNode_self hn, Tree.nodeAt_setNode_self hn, if_pos rfl]
  · rw [Tree.nodeAt_setNode_ne hm, Tree.nodeAt_setNode_ne hm, if_neg hm]
    rfl

@[simp] theorem Tree.openInternal_nint (t : Tree) (p : Option NodeIdx) : (t.openInternal p).nint = t.nint + 1#8 := by
  simp [Tree.openInternal]

@[simp] theorem Tree.openInternal_nleaf (t : Tree) (p : Option NodeIdx) : (t.openInternal p).nleaf = t.nleaf := by
  simp [Tree.openInternal]

/-- R114: what opening a leaf writes. -/
theorem Tree.nodeAt_openLeaf (t : Tree) (v : Byte) (p : Option NodeIdx) (m : NodeIdx) :
    (t.openLeaf v p).nodeAt m =
      if m = leafIdx v then { Node.empty with valid := true, parent := p.getD 0#9, hasParent := p.isSome }
      else t.nodeAt m := by
  have hn : (leafIdx v).toNat < 511 := Nat.lt_trans (leafIdx_lt v) (by decide)
  simp only [Tree.openLeaf, Tree.setParent_eq]
  by_cases hm : m = leafIdx v
  · subst hm
    rw [Tree.nodeAt_setNode_self hn, Tree.nodeAt_setNode_self hn, if_pos rfl]
  · rw [Tree.nodeAt_setNode_ne hm, Tree.nodeAt_setNode_ne hm, if_neg hm]
    rfl

@[simp] theorem Tree.openLeaf_nint (t : Tree) (v : Byte) (p : Option NodeIdx) : (t.openLeaf v p).nint = t.nint := by
  simp [Tree.openLeaf]

@[simp] theorem Tree.openLeaf_nleaf (t : Tree) (v : Byte) (p : Option NodeIdx) :
    (t.openLeaf v p).nleaf = t.nleaf + 1#9 := by
  simp [Tree.openLeaf]

theorem Tree.Partial.openInternal {t : Tree} (ht : t.Partial) (h : t.nint ≠ 255#8) (p : Option NodeIdx) :
    (t.openInternal p).Partial := by
  refine ⟨fun n hn => ?_, fun n hn => ?_⟩
  · rw [Tree.nodeAt_openInternal h] at hn ⊢
    by_cases hm : n = internalIdx t.nint
    · simp [hm] at hn
    · rw [if_neg hm] at hn ⊢; exact ht.invalidEmpty n hn
  · rw [Tree.nodeAt_openInternal h, Tree.openInternal_nint, nint_succ h]
    by_cases hm : n = internalIdx t.nint
    · subst hm; simp [toNat_internalIdx]
    · rw [if_neg hm, ht.allocated n hn]
      have : n.toNat ≠ 256 + t.nint.toNat := fun e => hm (BitVec.eq_of_toNat_eq (by rw [toNat_internalIdx, e]))
      omega

theorem Tree.Partial.openLeaf {t : Tree} (ht : t.Partial) (v : Byte) (p : Option NodeIdx) :
    (t.openLeaf v p).Partial := by
  refine ⟨fun n hn => ?_, fun n hn => ?_⟩
  · rw [Tree.nodeAt_openLeaf] at hn ⊢
    by_cases hm : n = leafIdx v
    · simp [hm] at hn
    · rw [if_neg hm] at hn ⊢; exact ht.invalidEmpty n hn
  · rw [Tree.nodeAt_openLeaf, Tree.openLeaf_nint]
    have hm : n ≠ leafIdx v := fun e => by have := leafIdx_lt v; rw [← e] at this; omega
    rw [if_neg hm]; exact ht.allocated n hn

/-- A link written into a valid slot keeps the store in order. -/
theorem Tree.Partial.setNode {t : Tree} (ht : t.Partial) {n : NodeIdx} (hn : (t.nodeAt n).valid = true) {v : Node}
    (hv : v.valid = true) : (t.setNode n v).Partial := by
  have h511 := Tree.lt_of_valid hn
  refine ⟨fun m hm => ?_, fun m hm => ?_⟩
  · by_cases e : m = n
    · subst e; rw [Tree.nodeAt_setNode_self h511, hv] at hm; cases hm
    · rw [Tree.nodeAt_setNode_ne e] at hm ⊢; exact ht.invalidEmpty m hm
  · by_cases e : m = n
    · subst e; rw [Tree.nodeAt_setNode_self h511, Tree.setNode_nint, hv, ← ht.allocated m hm, hn]
    · rw [Tree.nodeAt_setNode_ne e, Tree.setNode_nint]; exact ht.allocated m hm

/-! What reading builds. -/

/-- R114: a shape read into a store: it is held with the parent given, in slots that were free, and nothing else
changed. -/
structure Tree.Grows (t : Tree) (par : Option NodeIdx) (sh : Shape) (u : Tree) : Prop where
  inOrder : u.Partial
  holds : sh.Holds u par
  fresh : ∀ n ∈ sh.slots, (t.nodeAt n).valid = false
  distinct : sh.slots.Nodup
  frame : ∀ n, n ∉ sh.slots → u.nodeAt n = t.nodeAt n
  nint : u.nint.toNat = t.nint.toNat + sh.internals.length
  nleaf : u.nleaf = t.nleaf + BitVec.ofNat 9 sh.leaves.length
  /-- R114: internal nodes are numbered in pre-order. -/
  numbered : sh.internals.map BitVec.toNat = List.range' (256 + t.nint.toNat) sh.internals.length

theorem Tree.grows_leaf {t : Tree} (ht : t.Partial) {v : Byte} (hv : (t.nodeAt (leafIdx v)).valid = false)
    (par : Option NodeIdx) : t.Grows par (.leaf v) (t.openLeaf v par) := by
  refine ⟨ht.openLeaf v par, ?_, ?_, ?_, ?_, ?_, ?_, rfl⟩
  · simp [Shape.Holds, Tree.nodeAt_openLeaf, Node.empty]
  · simpa [Shape.slots, Shape.leaves, Shape.internals] using hv
  · simp [Shape.slots, Shape.leaves, Shape.internals]
  · intro n hn
    simp only [Shape.slots, Shape.leaves, Shape.internals, List.map_cons, List.map_nil, List.append_nil,
      List.mem_singleton] at hn
    rw [Tree.nodeAt_openLeaf, if_neg hn]
  · simp [Shape.internals]
  · simp [Shape.leaves]

theorem Tree.grows_node {t u v : Tree} (ht : t.Partial) (h255 : t.nint ≠ 255#8) {par : Option NodeIdx} {l r : Shape}
    (hl : (t.openInternal par).Grows (some (internalIdx t.nint)) l u)
    (hr : (u.setLeft (internalIdx t.nint) l.index).Grows (some (internalIdx t.nint)) r v) :
    t.Grows par (.node (internalIdx t.nint) l r) (v.setRight (internalIdx t.nint) r.index) := by
  have hlt := internalIdx_lt h255
  have hge : 256 ≤ (internalIdx t.nint).toNat := by rw [toNat_internalIdx]; omega
  generalize hn : internalIdx t.nint = n at *
  have hopen : ∀ m, (t.openInternal par).nodeAt m = if m = n then
      { Node.empty with valid := true, internal := true, parent := par.getD 0#9, hasParent := par.isSome }
      else t.nodeAt m := fun m => by rw [Tree.nodeAt_openInternal h255, hn]
  have hnl : n ∉ l.slots := fun hm => by have := hl.fresh n hm; rw [hopen, if_pos rfl] at this; cases this
  have hnu : u.nodeAt n = { Node.empty with valid := true, internal := true, parent := par.getD 0#9, hasParent := par.isSome } := by
    rw [hl.frame n hnl, hopen, if_pos rfl]
  have hu1 : (u.setLeft n l.index).nodeAt n = { Node.empty with
      valid := true, internal := true, left := l.index, parent := par.getD 0#9, hasParent := par.isSome } := by
    rw [Tree.setLeft, Tree.nodeAt_setNode_self hlt, hnu]
  have hu2 : ∀ m, m ≠ n → (u.setLeft n l.index).nodeAt m = u.nodeAt m := fun m hm => by
    rw [Tree.setLeft, Tree.nodeAt_setNode_ne hm]
  have hnr : n ∉ r.slots := fun hm => by have := hr.fresh n hm; rw [hu1] at this; cases this
  have hvn : v.nodeAt n = { Node.empty with
      valid := true, internal := true, left := l.index, parent := par.getD 0#9, hasParent := par.isSome } := by
    rw [hr.frame n hnr, hu1]
  have hw1 : (v.setRight n r.index).nodeAt n = { Node.empty with
      valid := true, internal := true, left := l.index, right := r.index, parent := par.getD 0#9,
      hasParent := par.isSome } := by
    rw [Tree.setRight, Tree.nodeAt_setNode_self hlt, hvn]
  have hw2 : ∀ m, m ≠ n → (v.setRight n r.index).nodeAt m = v.nodeAt m := fun m hm => by
    rw [Tree.setRight, Tree.nodeAt_setNode_ne hm]
  have hlr : ∀ m ∈ l.slots, m ∉ r.slots := fun m hm hm' => by
    have h1 := hr.fresh m hm'
    have hne : m ≠ n := fun e => hnl (e ▸ hm)
    rw [hu2 m hne, hl.holds.valid hm] at h1; cases h1
  have hmem : ∀ m, m ∉ (Shape.node n l r).slots → m ≠ n ∧ m ∉ l.slots ∧ m ∉ r.slots := fun m hm => by
    rw [Shape.mem_slots_node] at hm; tauto
  have hn1 := hl.nint
  rw [Tree.openInternal_nint, nint_succ h255] at hn1
  refine ⟨?_, ?_, ?_, ?_, ?_, ?_, ?_, ?_⟩
  · exact hr.inOrder.setNode (by rw [hvn]) (by rw [hvn])
  · refine ⟨hge, by rw [hw1], by rw [hw1], by rw [hw1], by rw [hw1], by rw [hw1], by rw [hw1], ?_, ?_⟩
    · refine hl.holds.congr fun m hm => ?_
      have hne : m ≠ n := fun e => hnl (e ▸ hm)
      rw [hw2 m hne, hr.frame m (hlr m hm), hu2 m hne]
    · refine hr.holds.congr fun m hm => ?_
      have hne : m ≠ n := fun e => hnr (e ▸ hm)
      rw [hw2 m hne]
  · intro m hm
    rcases Shape.mem_slots_node.mp hm with rfl | h1 | h1
    · cases hv : (t.nodeAt m).valid with
      | false => rfl
      | true =>
        have := (ht.allocated m hge).mp hv
        rw [← hn, toNat_internalIdx] at this; omega
    · have hne : m ≠ n := fun e => hnl (e ▸ h1)
      have := hl.fresh m h1
      rwa [hopen, if_neg hne] at this
    · have hne : m ≠ n := fun e => hnr (e ▸ h1)
      have h2 := hr.fresh m h1
      have hml : m ∉ l.slots := fun h3 => hlr m h3 h1
      rwa [hu2 m hne, hl.frame m hml, hopen, if_neg hne] at h2
  · exact Shape.nodup_node hl.distinct hr.distinct hnl hnr hlr
  · intro m hm
    obtain ⟨h1, h2, h3⟩ := hmem m hm
    rw [hw2 m h1, hr.frame m h3, hu2 m h1, hl.frame m h2, hopen, if_neg h1]
  · have h1 := hl.nint
    have h2 := hr.nint
    rw [Tree.openInternal_nint, nint_succ h255] at h1
    rw [Tree.setLeft_nint] at h2
    simp only [Tree.setRight_nint, Shape.internals, List.length_cons, List.length_append]
    omega
  · have h1 := hl.nleaf
    have h2 := hr.nleaf
    rw [Tree.openInternal_nleaf] at h1
    rw [Tree.setLeft_nleaf] at h2
    rw [Tree.setRight_nleaf, h2, h1, Shape.leaves, List.length_append, BitVec.ofNat_add, BitVec.add_assoc]
  · have h1 := hl.numbered
    have h2 := hr.numbered
    rw [Tree.openInternal_nint, nint_succ h255] at h1
    rw [Tree.setLeft_nint, hn1] at h2
    rw [Shape.internals, List.map_cons, List.map_append, h1, h2, List.length_cons, List.length_append, List.range'_succ,
      ← hn, toNat_internalIdx, ← List.range'_append_1]
    simp only [Nat.add_assoc]

/-- R114: what a reading that succeeds has built, and which bits it took. -/
theorem des_node {d : Nat} {par : Option NodeIdx} {p q : InPort} {t u : Tree} {r : NodeIdx} (ht : t.Partial)
    (h : des d par p t = .node r q u) :
    ∃ sh : Shape, sh.index = r ∧ t.Grows par sh u ∧ p.Keeps q ∧
      (p.Short → p.Wf → p.bits = sh.preorder ++ q.bits) := by
  induction d generalizing par p q t u r with
  | zero => simp [des] at h
  | succ d ih =>
    rw [des] at h
    cases hb : p.readBit with
    | none => simp [hb] at h
    | some x =>
      obtain ⟨bit, p1⟩ := x
      have hk1 := InPort.readBit_keeps hb
      have hbits : p.Short → p.bits = bit :: p1.bits := fun hs => by
        cases hp : p.bits with
        | nil => rw [InPort.readBit_nil hp] at hb; cases hb
        | cons c l =>
          obtain ⟨q1, e, b1, -⟩ := InPort.readBit_cons hs hp
          rw [hb] at e; cases e; rw [b1]
      cases bit with
      | true =>
        by_cases h255 : t.nint = 255#8
        · simp [hb, h255] at h
        · simp only [hb, h255, if_false] at h
          cases hL : des d (some (internalIdx t.nint)) p1 (t.openInternal par) with
          | stop e q => simp [hL] at h
          | overflow => simp [hL] at h
          | node l p2 u2 =>
            simp only [hL] at h
            obtain ⟨shL, rfl, gL, kL, bL⟩ := ih (ht.openInternal h255 par) hL
            have hval : (u2.nodeAt (internalIdx t.nint)).valid = true := by
              have hge : 256 ≤ (internalIdx t.nint).toNat := by rw [toNat_internalIdx]; omega
              refine (gL.inOrder.allocated _ hge).mpr ?_
              rw [gL.nint, Tree.openInternal_nint, nint_succ h255, toNat_internalIdx]; omega
            have hP : (u2.setLeft (internalIdx t.nint) shL.index).Partial := gL.inOrder.setNode hval hval
            cases hR : des d (some (internalIdx t.nint)) p2 (u2.setLeft (internalIdx t.nint) shL.index) with
            | stop e q => simp [hR] at h
            | overflow => simp [hR] at h
            | node r2 p3 u3 =>
              simp only [hR] at h
              obtain ⟨shR, rfl, gR, kR, bR⟩ := ih hP hR
              cases h
              refine ⟨.node (internalIdx t.nint) shL shR, rfl, Tree.grows_node ht h255 gL gR,
                (hk1.trans kL).trans kR, fun hs hw => ?_⟩
              have hs1 := hk1.1.short hs
              have hs2 := kL.1.short hs1
              rw [hbits hs, bL hs1 (hk1.2 hw), bR hs2 (kL.2 (hk1.2 hw))]
              simp [Shape.preorder]
      | false =>
        cases hv : p1.readByte with
        | mk w p2 =>
          have hk2 := InPort.readByte_keeps p1
          rw [hv] at hk2
          cases w with
          | none => simp [hb, hv] at h
          | some v =>
            cases hval : (t.nodeAt (leafIdx v)).valid with
            | true => simp [hb, hv, hval] at h
            | false =>
              simp only [hb, hv, hval, Bool.false_eq_true, if_false] at h
              cases h
              refine ⟨.leaf v, rfl, Tree.grows_leaf ht hval par, hk1.trans hk2, fun hs hw => ?_⟩
              have hs1 := hk1.1.short hs
              have hw1 := hk1.2 hw
              rw [hbits hs]
              by_cases h8 : 8 ≤ p1.bits.length
              · obtain ⟨q1, e, b1, -, -⟩ := InPort.readByte_some hs1 hw1 h8
                rw [hv] at e; cases e
                rw [b1, Shape.preorder, bitsOf_ofBits_of_length (by simp; omega), List.cons_append,
                  List.take_append_drop]
              · obtain ⟨q1, e, -⟩ := InPort.readByte_none hs1 hw1 (Nat.lt_of_not_le h8)
                rw [hv] at e; cases e

/-- R114: how a reading fails, and what it keeps. -/
theorem des_stop {d : Nat} {par : Option NodeIdx} {p q : InPort} {t : Tree} {e : ErrCode}
    (h : des d par p t = .stop e q) : (e = .truncatedArchive ∨ e = .corruptTree) ∧ p.Keeps q := by
  have node_keeps : ∀ (d : Nat) (par : Option NodeIdx) (p : InPort) (t : Tree) (r : NodeIdx) (q : InPort) (u : Tree),
      des d par p t = .node r q u → p.Keeps q := by
    intro d
    induction d with
    | zero => intro _ _ _ _ _ _ h; simp [des] at h
    | succ d ih =>
      intro par p t r q u h
      rw [des] at h
      split at h
      · cases h
      · next p1 hb =>
        have hk := InPort.readBit_keeps hb
        split at h
        · cases h
        · dsimp only at h
          split at h
          · next l p2 u2 hL =>
            split at h
            · next r2 p3 u3 hR => cases h; exact (hk.trans (ih _ _ _ _ _ _ hL)).trans (ih _ _ _ _ _ _ hR)
            · cases h
            · cases h
          · cases h
          · cases h
      · next p1 hb =>
        have hk := (InPort.readBit_keeps hb).trans (InPort.readByte_keeps p1)
        split at h
        · cases h
        · next v p2 hv =>
          rw [hv] at hk
          split at h
          · cases h
          · cases h; exact hk
  induction d generalizing par p q t e with
  | zero => simp [des] at h
  | succ d ih =>
    rw [des] at h
    split at h
    · cases h; exact ⟨.inl rfl, .refl p⟩
    · next p1 hb =>
      have hk := InPort.readBit_keeps hb
      split at h
      · cases h; exact ⟨.inr rfl, hk⟩
      · dsimp only at h
        split at h
        · next l p2 u2 hL =>
          have hk2 := hk.trans (node_keeps _ _ _ _ _ _ _ hL)
          split at h
          · cases h
          · next hR => cases h; exact ⟨(ih hR).1, hk2.trans (ih hR).2⟩
          · cases h
        · next hL => cases h; exact ⟨(ih hL).1, hk.trans (ih hL).2⟩
        · cases h
    · next p1 hb =>
      have hk := (InPort.readBit_keeps hb).trans (InPort.readByte_keeps p1)
      split at h
      · next p2 hv => rw [hv] at hk; cases h; exact ⟨.inl rfl, hk⟩
      · next v p2 hv =>
        rw [hv] at hk
        split at h
        · cases h; exact ⟨.inr rfl, hk⟩
        · cases h

/-- R115: the depth of nested calls never exceeds NINT + 1, so the walk stack never overflows. -/
theorem des_fits {d : Nat} {par : Option NodeIdx} {p : InPort} {t : Tree} (h : 256 ≤ d + t.nint.toNat) :
    des d par p t ≠ .overflow ∧ ∀ r q u, des d par p t = .node r q u → t.nint.toNat ≤ u.nint.toNat := by
  induction d generalizing par p t with
  | zero => have := t.nint.isLt; omega
  | succ d ih =>
    rw [des]
    cases hb : p.readBit with
    | none => simp
    | some x =>
      obtain ⟨bit, p1⟩ := x
      cases bit with
      | true =>
        by_cases h255 : t.nint = 255#8
        · simp [h255]
        · have hn : (t.openInternal par).nint.toNat = t.nint.toNat + 1 := by
            rw [Tree.openInternal_nint, nint_succ h255]
          obtain ⟨h1, h2⟩ := ih (par := some (internalIdx t.nint)) (p := p1) (t := t.openInternal par) (by omega)
          simp only [h255, if_false]
          cases hL : des d (some (internalIdx t.nint)) p1 (t.openInternal par) with
          | stop e q => simp
          | overflow => exact absurd hL h1
          | node l p2 u2 =>
            have hu := h2 _ _ _ hL
            obtain ⟨h3, h4⟩ := ih (par := some (internalIdx t.nint)) (p := p2)
              (t := u2.setLeft (internalIdx t.nint) l) (by rw [Tree.setLeft_nint]; omega)
            simp only
            cases hR : des d (some (internalIdx t.nint)) p2 (u2.setLeft (internalIdx t.nint) l) with
            | stop e q => simp
            | overflow => exact absurd hR h3
            | node r p3 u3 =>
              have hv := h4 _ _ _ hR
              rw [Tree.setLeft_nint] at hv
              refine ⟨by simp, fun r q u e => ?_⟩
              cases e
              rw [Tree.setRight_nint]; omega
      | false =>
        simp only
        split
        · simp
        · split
          · simp
          · refine ⟨by simp, fun r q u e => ?_⟩
            cases e
            rw [Tree.openLeaf_nint]

/-! R117. -/

/-- The pre-order of a shape tells the shape: two shapes whose pre-orders begin the same bits are the same tree. -/
theorem Shape.preorder_same {a b : Shape} {x y : List Bool} (h : a.preorder ++ x = b.preorder ++ y) :
    a.same b = true ∧ x = y := by
  induction a generalizing b x y with
  | leaf c =>
    cases b with
    | leaf e =>
      simp only [Shape.preorder, List.cons_append, List.cons.injEq, true_and] at h
      have h1 := List.append_inj h (by simp)
      exact ⟨by simp [Shape.same, bitsOf_injective h1.1], h1.2⟩
    | node i l r => simp [Shape.preorder] at h
  | node i l r ihl ihr =>
    cases b with
    | leaf e => simp [Shape.preorder] at h
    | node j l' r' =>
      simp only [Shape.preorder, List.cons_append, List.cons.injEq, true_and, List.append_assoc] at h
      obtain ⟨h1, h2⟩ := ihl h
      obtain ⟨h3, h4⟩ := ihr h2
      exact ⟨by simp [Shape.same, h1, h3], h4⟩

theorem Shape.same_leaves {a b : Shape} (h : a.same b = true) :
    a.leaves = b.leaves ∧ a.internals.length = b.internals.length ∧ a.preorder = b.preorder ∧
      ∀ c, a.path c = b.path c := by
  induction a generalizing b with
  | leaf c =>
    cases b with
    | leaf e => simp only [Shape.same, beq_iff_eq] at h; subst h; simp
    | node i l r => simp [Shape.same] at h
  | node i l r ihl ihr =>
    cases b with
    | leaf e => simp [Shape.same] at h
    | node j l' r' =>
      simp only [Shape.same, Bool.and_eq_true] at h
      obtain ⟨h1, h2, h3, h4⟩ := ihl h.1
      obtain ⟨k1, k2, k3, k4⟩ := ihr h.2
      simp [Shape.leaves, Shape.internals, Shape.preorder, Shape.path, *]

/-- R115, R117: every pre-order of distinct leaves that the store has room for is accepted. -/
theorem des_preorder {sh : Shape} {d : Nat} {par : Option NodeIdx} {p : InPort} {t : Tree} {rest : List Bool}
    (ht : t.Partial) (hd : sh.internals.length < d) (hroom : t.nint.toNat + sh.internals.length ≤ 255)
    (hdis : sh.leaves.Nodup) (hfree : ∀ b ∈ sh.leaves, (t.nodeAt (leafIdx b)).valid = false) (hs : p.Short) (hw : p.Wf)
    (hp : p.bits = sh.preorder ++ rest) : ∃ r q u, des d par p t = .node r q u ∧ q.bits = rest := by
  suffices hnode : ∃ r q u, des d par p t = .node r q u by
    obtain ⟨r, q, u, h⟩ := hnode
    obtain ⟨sh', -, -, -, hb⟩ := des_node ht h
    exact ⟨r, q, u, h, (Shape.preorder_same ((hb hs hw).symm.trans hp)).2⟩
  induction sh generalizing d par p t rest with
  | leaf v =>
    cases d with
    | zero => omega
    | succ d =>
      obtain ⟨q1, e1, b1, s1, w1⟩ := InPort.readBit_cons hs (b := false) (l := bitsOf v ++ rest) (by rw [hp]; rfl)
      obtain ⟨q2, e2, -, -, -⟩ := InPort.readByte_some (s1.short hs) w1 (by rw [b1]; simp)
      have hv : ofBits 8 (q1.bits.take 8) = v := by
        rw [b1, List.take_left' (by simp), ofBits_bitsOf]
      rw [hv] at e2
      have hf := hfree v (by simp [Shape.leaves])
      exact ⟨leafIdx v, q2, t.openLeaf v par, by simp [des, e1, e2, hf]⟩
  | node i l r ihl ihr =>
    simp only [Shape.internals, List.length_cons, List.length_append] at hd hroom
    simp only [Shape.leaves, List.nodup_append] at hdis
    cases d with
    | zero => omega
    | succ d =>
      have h255 : t.nint ≠ 255#8 := fun e => by rw [e] at hroom; simp at hroom
      obtain ⟨q1, e1, b1, s1, w1⟩ := InPort.readBit_cons hs (b := true) (l := l.preorder ++ (r.preorder ++ rest))
        (by rw [hp]; simp [Shape.preorder])
      have hs1 := s1.short hs
      have hopen : ∀ b, (t.openInternal par).nodeAt (leafIdx b) = t.nodeAt (leafIdx b) := fun b => by
        rw [Tree.nodeAt_openInternal h255, if_neg]
        intro e
        have h1 := leafIdx_lt b
        rw [e, toNat_internalIdx] at h1; omega
      have hP1 := ht.openInternal h255 par
      obtain ⟨rl, q2, u2, eL⟩ := ihl (d := d) (par := some (internalIdx t.nint)) (t := t.openInternal par) hP1 (by omega)
        (by rw [Tree.openInternal_nint, nint_succ h255]; omega) hdis.1
        (fun b hb => by rw [hopen]; exact hfree b (by simp [Shape.leaves, hb])) hs1 w1 b1
      obtain ⟨sL, rfl, gL, kL, bL⟩ := des_node hP1 eL
      obtain ⟨hsame, hrest⟩ := Shape.preorder_same ((bL hs1 w1).symm.trans b1)
      obtain ⟨hleaves, hints, -, -⟩ := Shape.same_leaves hsame
      have hval : (u2.nodeAt (internalIdx t.nint)).valid = true := by
        refine (gL.inOrder.allocated _ (by rw [toNat_internalIdx]; omega)).mpr ?_
        rw [gL.nint, Tree.openInternal_nint, nint_succ h255, toNat_internalIdx]; omega
      have hP2 : (u2.setLeft (internalIdx t.nint) sL.index).Partial := gL.inOrder.setNode hval hval
      obtain ⟨rr, q3, u3, eR⟩ := ihr (d := d) (par := some (internalIdx t.nint))
        (t := u2.setLeft (internalIdx t.nint) sL.index) hP2 (by omega)
        (by
          rw [Tree.setLeft_nint, gL.nint, Tree.openInternal_nint, nint_succ h255]
          omega)
        hdis.2.1
        (fun b hb => by
          have hne : leafIdx b ≠ internalIdx t.nint := fun e => by
            have h1 := leafIdx_lt b
            rw [e, toNat_internalIdx] at h1; omega
          have hnot : leafIdx b ∉ sL.slots := by
            intro hm
            rw [Shape.slots, List.mem_append] at hm
            rcases hm with hm | hm
            · obtain ⟨c, hc, e⟩ := List.mem_map.mp hm
              rw [leafIdx_injective e, hleaves] at hc
              exact hdis.2.2 b hc b hb rfl
            · have h1 := (gL.holds.internal_range hm).1
              have h2 := leafIdx_lt b
              omega
          rw [Tree.setLeft, Tree.nodeAt_setNode_ne hne, gL.frame _ hnot, hopen]
          exact hfree b (by simp [Shape.leaves, hb]))
        (kL.1.short hs1) (kL.2 w1) hrest
      exact ⟨internalIdx t.nint, q3, u3.setRight (internalIdx t.nint) rr, by simp [des, e1, h255, eL, eR]⟩

/-! R114, R115: a whole tree. -/

theorem length_leaves_le {l : List Byte} (h : l.Nodup) : l.length ≤ 256 := by
  have h1 : (l.map BitVec.toNat).Nodup :=
    (List.nodup_map_iff_inj_on h).mpr fun a _ b _ e => BitVec.eq_of_toNat_eq e
  have := (List.subperm_of_subset h1 (l₂ := List.range 256) fun k hk => by
    obtain ⟨b, -, rfl⟩ := List.mem_map.mp hk
    exact List.mem_range.mpr b.isLt).length_le
  simpa using this

/-- A shape read into the empty store, made the root, is the tree. -/
theorem Tree.Grows.isTree {sh : Shape} {u : Tree} (h : Tree.empty.Grows none sh u) : (u.withRoot sh.index).Is sh := by
  obtain ⟨hl, hi⟩ := Shape.nodup_parts h.distinct
  refine ⟨rfl, rfl, h.holds.congr fun _ _ => rfl, hl, hi, fun n hn => ?_, h.inOrder.invalidEmpty, ?_, ?_⟩
  · by_contra hm
    rw [Tree.nodeAt_withRoot, h.frame n hm, Tree.nodeAt_empty] at hn
    cases hn
  · simpa [Tree.empty] using h.nint
  · have := length_leaves_le hl
    rw [Tree.withRoot_nleaf, h.nleaf]
    simp [Tree.empty]
    omega

theorem readTree_node {p q : InPort} {r : NodeIdx} {u : Tree} (h : readTree p = .node r q u) :
    ∃ sh, (u.withRoot r).Is sh ∧ p.Keeps q ∧ (p.Short → p.Wf → p.bits = sh.preorder ++ q.bits) := by
  obtain ⟨sh, rfl, hg, hk, hb⟩ := des_node Tree.empty_partial h
  exact ⟨sh, hg.isTree, hk, hb⟩

/-- R114: the internal nodes of a tree read from the input are numbered in pre-order from 256. -/
theorem readTree_numbered {p q : InPort} {r : NodeIdx} {u : Tree} (h : readTree p = .node r q u) :
    ∃ sh, (u.withRoot r).Is sh ∧ sh.internals.map BitVec.toNat = List.range' 256 sh.internals.length := by
  obtain ⟨sh, rfl, hg, -⟩ := des_node Tree.empty_partial h
  exact ⟨sh, hg.isTree, hg.numbered⟩

theorem readTree_fits (p : InPort) : readTree p ≠ .overflow :=
  (des_fits (by simp [Config.stackDepth])).1

/-- R117: the pre-order of a tree of distinct leaves is read back as the same tree. -/
theorem readTree_preorder {sh : Shape} {p : InPort} {rest : List Bool} (hdis : sh.leaves.Nodup) (hs : p.Short)
    (hw : p.Wf) (hp : p.bits = sh.preorder ++ rest) :
    ∃ r q u sh', readTree p = .node r q u ∧ q.bits = rest ∧ (u.withRoot r).Is sh' ∧ sh'.same sh = true ∧ p.Keeps q := by
  have h1 := length_leaves_le hdis
  have h2 := sh.length_leaves
  have hroom : Tree.empty.nint.toNat + sh.internals.length ≤ 255 := by simp [Tree.empty]; omega
  obtain ⟨r, q, u, e, hb⟩ := des_preorder (d := Config.stackDepth) (par := none) Tree.empty_partial
    (by simp [Config.stackDepth]; omega) hroom hdis (fun b _ => by simp [Node.empty]) hs hw hp
  obtain ⟨sh', hIs, hk, hb'⟩ := readTree_node e
  exact ⟨r, q, u, sh', e, hb, hIs, (Shape.preorder_same ((hb' hs hw).symm.trans hp)).1, hk⟩

end Sys2Proof.Machine
end

