-- ==== Sys2Proof/Laws/BuildTree.lean ====
section
/-! SUPPORT. The building of a tree (Machine/Builder.lean, spec/41_tree_builder.md R104 to R112): the queue is a forest of
disjoint trees, a merge makes one tree of its first two, and one tree is left. -/

namespace Sys2Proof.Machine

/-- What the store and the merge queue hold between two steps of BUILD: the trees `fs`, without a parent at their roots,
disjoint, and nothing else; leaf frequencies from FREQ, internal ones the sum of their children's (R110). -/
structure Forest (f : Vector Dword 256) (t : Tree) (fs : List Shape) : Prop where
  inOrder : t.Partial
  holds : ∀ sh ∈ fs, sh.Holds t none
  distinct : (fs.flatMap Shape.slots).Nodup
  reachable : ∀ n, (t.nodeAt n).valid = true → n ∈ fs.flatMap Shape.slots
  nint : t.nint.toNat = (fs.flatMap Shape.internals).length
  nleaf : t.nleaf = BitVec.ofNat 9 (fs.flatMap Shape.leaves).length
  noRoot : t.rootValid = false ∧ t.root = 0#9
  leafFreq : ∀ b, (t.nodeAt (leafIdx b)).valid = true → (t.nodeAt (leafIdx b)).freq = freqAt f b
  sums : ∀ n, 256 ≤ n.toNat → (t.nodeAt n).valid = true →
    (t.nodeAt n).freq = (t.nodeAt (t.nodeAt n).left).freq + (t.nodeAt (t.nodeAt n).right).freq

/-- R104: Insert puts the new entry somewhere and keeps the order of the others. -/
theorem insertQ_split (fr : NodeIdx → Dword) (n : NodeIdx) (q : List NodeIdx) :
    ∃ a b, q = a ++ b ∧ insertQ fr n q = a ++ n :: b := by
  induction q with
  | nil => exact ⟨[], [], rfl, rfl⟩
  | cons x q ih =>
    by_cases h : fr n < fr x
    · exact ⟨[], x :: q, rfl, by simp [insertQ, h]⟩
    · obtain ⟨a, b, e1, e2⟩ := ih
      exact ⟨x :: a, b, by simp [e1], by simp [insertQ, h, e2]⟩

/-- The queue of a forest after an Insert is the queue of the forest with the new tree put in at that place. -/
theorem insertQ_forest (fr : NodeIdx → Dword) (sh : Shape) (fs : List Shape) :
    ∃ a b, fs = a ++ b ∧ insertQ fr sh.index (fs.map Shape.index) = (a ++ sh :: b).map Shape.index := by
  obtain ⟨q1, q2, e1, e2⟩ := insertQ_split fr sh.index (fs.map Shape.index)
  refine ⟨fs.take q1.length, fs.drop q1.length, (List.take_append_drop ..).symm, ?_⟩
  have h1 : (fs.take q1.length).map Shape.index = q1 := by rw [List.map_take, e1, List.take_left']; rfl
  have h2 : (fs.drop q1.length).map Shape.index = q2 := by rw [List.map_drop, e1, List.drop_left']; rfl
  rw [e2, List.map_append, List.map_cons, h1, h2]

/-- A forest does not depend on the order of its trees. -/
theorem Forest.perm {f : Vector Dword 256} {t : Tree} {fs gs : List Shape} (h : Forest f t fs) (hp : fs.Perm gs) :
    Forest f t gs where
  inOrder := h.inOrder
  holds := fun sh hm => h.holds sh (hp.mem_iff.mpr hm)
  distinct := (hp.flatMap_right Shape.slots).nodup_iff.mp h.distinct
  reachable := fun n hn => (hp.flatMap_right Shape.slots).mem_iff.mp (h.reachable n hn)
  nint := by rw [h.nint, (hp.flatMap_right Shape.internals).length_eq]
  nleaf := by rw [h.nleaf, (hp.flatMap_right Shape.leaves).length_eq]
  noRoot := h.noRoot
  leafFreq := h.leafFreq
  sums := h.sums

theorem Forest.empty (f : Vector Dword 256) : Forest f Tree.empty [] where
  inOrder := Tree.empty_partial
  holds := by simp
  distinct := by simp
  reachable := fun n hn => by simp [Node.empty] at hn
  nint := rfl
  nleaf := rfl
  noRoot := ⟨rfl, rfl⟩
  leafFreq := fun b hb => by simp [Node.empty] at hb
  sums := fun n _ hn => by simp [Node.empty] at hn

/-! Leaves. -/

theorem Tree.nodeAt_addLeaf (t : Tree) (b : Byte) (v : Dword) (m : NodeIdx) :
    (t.addLeaf b v).nodeAt m =
      if m = leafIdx b then { Node.empty with valid := true, freq := v } else t.nodeAt m := by
  have hn : (leafIdx b).toNat < 511 := Nat.lt_trans (leafIdx_lt b) (by decide)
  rw [Tree.addLeaf]
  by_cases hm : m = leafIdx b
  · subst hm; rw [Tree.nodeAt_setNode_self hn, if_pos rfl]
  · rw [Tree.nodeAt_setNode_ne hm, if_neg hm]; rfl

@[simp] theorem Tree.addLeaf_nint (t : Tree) (b : Byte) (v : Dword) : (t.addLeaf b v).nint = t.nint := by
  simp [Tree.addLeaf]

@[simp] theorem Tree.addLeaf_nleaf (t : Tree) (b : Byte) (v : Dword) : (t.addLeaf b v).nleaf = t.nleaf + 1#9 := by
  simp [Tree.addLeaf]

/-- A free leaf slot filled: one tree more. -/
theorem Forest.addLeaf {f : Vector Dword 256} {t : Tree} {fs : List Shape} (h : Forest f t fs) {b : Byte}
    (hb : (t.nodeAt (leafIdx b)).valid = false) : Forest f (t.addLeaf b (freqAt f b)) (.leaf b :: fs) := by
  have hslots : (Shape.leaf b).slots = [leafIdx b] := rfl
  have hnot : leafIdx b ∉ fs.flatMap Shape.slots := fun hm => by
    obtain ⟨sh, h1, h2⟩ := List.mem_flatMap.mp hm
    rw [(h.holds sh h1).valid h2] at hb; cases hb
  have hne : ∀ n : NodeIdx, 256 ≤ n.toNat → n ≠ leafIdx b := fun n hn e => by
    have := leafIdx_lt b; rw [← e] at this; omega
  refine ⟨⟨fun n hn => ?_, fun n hn => ?_⟩, fun sh hm => ?_, ?_, fun n hn => ?_, ?_, ?_, ?_, fun c hc => ?_,
    fun n hn hv => ?_⟩
  · rw [Tree.nodeAt_addLeaf] at hn ⊢
    by_cases e : n = leafIdx b
    · simp [e] at hn
    · rw [if_neg e] at hn ⊢; exact h.inOrder.invalidEmpty n hn
  · rw [Tree.nodeAt_addLeaf, if_neg (hne n hn), Tree.addLeaf_nint]; exact h.inOrder.allocated n hn
  · rcases List.mem_cons.mp hm with rfl | hm
    · simp [Shape.Holds, Tree.nodeAt_addLeaf, Node.empty]
    · refine (h.holds sh hm).congr fun n hn => ?_
      rw [Tree.nodeAt_addLeaf, if_neg]
      rintro rfl
      exact hnot (List.mem_flatMap.mpr ⟨sh, hm, hn⟩)
  · rw [List.flatMap_cons, hslots, List.singleton_append, List.nodup_cons]
    exact ⟨hnot, h.distinct⟩
  · rw [List.flatMap_cons, hslots, List.singleton_append, List.mem_cons]
    rw [Tree.nodeAt_addLeaf] at hn
    by_cases e : n = leafIdx b
    · exact .inl e
    · rw [if_neg e] at hn; exact .inr (h.reachable n hn)
  · rw [Tree.addLeaf_nint, h.nint]; simp [Shape.internals]
  · rw [Tree.addLeaf_nleaf, h.nleaf]
    simp only [List.flatMap_cons, Shape.leaves, List.singleton_append, List.length_cons]
    rw [BitVec.ofNat_add]
  · simpa [Tree.addLeaf] using h.noRoot
  · rw [Tree.nodeAt_addLeaf] at hc ⊢
    by_cases e : leafIdx c = leafIdx b
    · rw [if_pos e, leafIdx_injective e]
    · rw [if_neg e] at hc ⊢; exact h.leafFreq c hc
  · rw [Tree.nodeAt_addLeaf, if_neg (hne n hn)] at hv ⊢
    rw [h.sums n hn hv]
    have child : ∀ m, m = (t.nodeAt n).left ∨ m = (t.nodeAt n).right → m ≠ leafIdx b := by
      rintro m hm rfl
      obtain ⟨sh, h1, h2⟩ := List.mem_flatMap.mp (h.reachable n hv)
      refine hnot (List.mem_flatMap.mpr ⟨sh, h1, ?_⟩)
      have hmem : ∀ {p : Option NodeIdx} {sh : Shape}, sh.Holds t p → n ∈ sh.slots →
          (t.nodeAt n).left ∈ sh.slots ∧ (t.nodeAt n).right ∈ sh.slots := by
        intro p sh
        induction sh generalizing p with
        | leaf c =>
          intro _ hc
          rw [show (Shape.leaf c).slots = [leafIdx c] from rfl, List.mem_singleton] at hc
          have := leafIdx_lt c; rw [← hc] at this; omega
        | node i l r ihl ihr =>
          intro ⟨_, _, _, h4, h5, _, _, h8, h9⟩ hc
          rcases Shape.mem_slots_node.mp hc with rfl | hc | hc
          · exact ⟨h4 ▸ Shape.mem_slots_left l.index_mem_slots, h5 ▸ Shape.mem_slots_right r.index_mem_slots⟩
          · exact ⟨Shape.mem_slots_left (ihl h8 hc).1, Shape.mem_slots_left (ihl h8 hc).2⟩
          · exact ⟨Shape.mem_slots_right (ihr h9 hc).1, Shape.mem_slots_right (ihr h9 hc).2⟩
      have := hmem (h.holds sh h1) h2
      rcases hm with e | e <;> rw [e] <;> simp [this]
    rw [Tree.nodeAt_addLeaf, Tree.nodeAt_addLeaf, if_neg (child _ (.inl rfl)), if_neg (child _ (.inr rfl))]

/-- R105, R108: the leaves of the bytes that occur, whatever their order in the queue. -/
theorem addLeaves_forest {f : Vector Dword 256} (l : List Byte) (hl : l.Nodup) {t : Tree} {fs : List Shape}
    (h : Forest f t fs) (hi : fs.flatMap Shape.internals = []) (hfree : ∀ b ∈ l, b ∉ fs.flatMap Shape.leaves) :
    ∃ u gs, addLeaves f l (t, fs.map Shape.index) = (u, gs.map Shape.index) ∧ Forest f u gs ∧
      gs.flatMap Shape.internals = [] ∧
      (gs.flatMap Shape.leaves).Perm (fs.flatMap Shape.leaves ++ l.filter fun b => freqAt f b ≠ 0#64) := by
  induction l generalizing t fs with
  | nil => exact ⟨t, fs, rfl, h, hi, by simp⟩
  | cons b l ih =>
    rw [List.nodup_cons] at hl
    by_cases h0 : freqAt f b = 0#64
    · obtain ⟨u, gs, e, hF, hI, hP⟩ := ih hl.2 h hi fun c hc => hfree c (List.mem_cons_of_mem b hc)
      exact ⟨u, gs, by simp [addLeaves, h0, e], hF, hI, by simpa [h0] using hP⟩
    · have hb : (t.nodeAt (leafIdx b)).valid = false := by
        cases hv : (t.nodeAt (leafIdx b)).valid with
        | false => rfl
        | true =>
          obtain ⟨sh, h1, h2⟩ := List.mem_flatMap.mp (h.reachable _ hv)
          rw [Shape.slots, List.mem_append] at h2
          rcases h2 with h2 | h2
          · obtain ⟨c, hc, e⟩ := List.mem_map.mp h2
            exact absurd (List.mem_flatMap.mpr ⟨sh, h1, leafIdx_injective e ▸ hc⟩) (hfree b List.mem_cons_self)
          · have := ((h.holds sh h1).internal_range h2).1
            have := leafIdx_lt b; omega
      have hF := h.addLeaf hb
      obtain ⟨x, y, e1, e2⟩ := insertQ_forest (fun i => ((t.addLeaf b (freqAt f b)).nodeAt i).freq) (.leaf b) fs
      have hperm : (Shape.leaf b :: fs).Perm (x ++ .leaf b :: y) := by rw [e1]; exact List.perm_middle.symm
      have hleaves := hperm.flatMap_right Shape.leaves
      obtain ⟨u, gs, e, hF', hI, hP⟩ := ih hl.2 (hF.perm hperm)
        (by
          have := hperm.flatMap_right Shape.internals
          rw [List.flatMap_cons, hi] at this
          exact List.nil_perm.mp this)
        (fun c hc hm => by
          rw [← hleaves.mem_iff, List.flatMap_cons, Shape.leaves, List.singleton_append, List.mem_cons] at hm
          rcases hm with rfl | hm
          · exact hl.1 hc
          · exact hfree c (List.mem_cons_of_mem b hc) hm)
      refine ⟨u, gs, ?_, hF', hI, ?_⟩
      · rw [addLeaves, if_neg h0]
        simp only [Tree.insert]
        rw [show leafIdx b = (Shape.leaf b).index from rfl, e2]
        exact e
      · refine hP.trans ?_
        have h1 : (b :: l).filter (fun c => freqAt f c ≠ 0#64) = b :: l.filter fun c => freqAt f c ≠ 0#64 := by
          simp [h0]
        rw [h1]
        refine (List.Perm.append_right _ hleaves.symm).trans ?_
        rw [List.flatMap_cons, Shape.leaves, List.singleton_append, List.cons_append]
        exact List.perm_middle.symm

/-! Merges. -/

/-- R106: what a merge writes. -/
theorem Tree.nodeAt_merge {t : Tree} {a c : NodeIdx} (h255 : t.nint ≠ 255#8) (hac : a ≠ c)
    (han : a ≠ internalIdx t.nint) (hcn : c ≠ internalIdx t.nint) (ha : a.toNat < 511) (hc : c.toNat < 511)
    (m : NodeIdx) :
    (t.merge a c).nodeAt m =
      if m = internalIdx t.nint then
        { Node.empty with valid := true, internal := true, freq := (t.nodeAt a).freq + (t.nodeAt c).freq,
                          left := a, right := c }
      else if m = a ∨ m = c then { t.nodeAt m with parent := internalIdx t.nint, hasParent := true }
      else t.nodeAt m := by
  have hn := internalIdx_lt h255
  simp only [Tree.merge, Tree.setParent_eq]
  generalize hN : internalIdx t.nint = n at *
  by_cases h1 : m = n
  · subst h1
    rw [Tree.nodeAt_setNode_ne (Ne.symm hcn), Tree.nodeAt_setNode_ne (Ne.symm han), Tree.nodeAt_setNode_self hn, if_pos rfl]
  · rw [if_neg h1]
    by_cases h2 : m = c
    · subst h2
      rw [Tree.nodeAt_setNode_self hc, Tree.nodeAt_setNode_ne (Ne.symm hac), Tree.nodeAt_setNode_ne h1, if_pos (.inr rfl)]
      rfl
    · rw [Tree.nodeAt_setNode_ne h2]
      by_cases h3 : m = a
      · subst h3
        rw [Tree.nodeAt_setNode_self ha, Tree.nodeAt_setNode_ne h1, if_pos (.inl rfl)]
        rfl
      · rw [Tree.nodeAt_setNode_ne h3, Tree.nodeAt_setNode_ne h1, if_neg (by tauto)]
        rfl

@[simp] theorem Tree.merge_nint (t : Tree) (a c : NodeIdx) : (t.merge a c).nint = t.nint + 1#8 := by
  simp [Tree.merge]

@[simp] theorem Tree.merge_nleaf (t : Tree) (a c : NodeIdx) : (t.merge a c).nleaf = t.nleaf := by
  simp [Tree.merge]

/-- A tree given a parent. -/
theorem Shape.Holds.reparent {t u : Tree} {sh : Shape} {n : NodeIdx} (h : sh.Holds t none) (hd : sh.slots.Nodup)
    (hi : u.nodeAt sh.index = { t.nodeAt sh.index with parent := n, hasParent := true })
    (hu : ∀ m ∈ sh.slots, m ≠ sh.index → u.nodeAt m = t.nodeAt m) : sh.Holds u (some n) := by
  cases sh with
  | leaf b =>
    obtain ⟨h1, h2, h3, h4, -, -⟩ := h
    simp only [Shape.index_leaf] at hi
    simp [Shape.Holds, hi, h1, h2, h3, h4]
  | node i l r =>
    obtain ⟨h1, h2, h3, h4, h5, -, -, h8, h9⟩ := h
    simp only [Shape.index_node] at hi hu
    rw [(Shape.slots_node_perm i l r).nodup_iff, List.nodup_cons, List.mem_append] at hd
    refine ⟨h1, by simp [hi, h2], by simp [hi, h3], by simp [hi, h4], by simp [hi, h5], by simp [hi], by simp [hi], ?_, ?_⟩
    · exact h8.congr fun m hm => hu m (Shape.mem_slots_left hm) fun e => hd.1 (.inl (e ▸ hm))
    · exact h9.congr fun m hm => hu m (Shape.mem_slots_right hm) fun e => hd.1 (.inr (e ▸ hm))

theorem flatMap_length_leaves (fs : List Shape) :
    (fs.flatMap Shape.leaves).length = (fs.flatMap Shape.internals).length + fs.length := by
  induction fs with
  | nil => rfl
  | cons s fs ih =>
    have := s.length_leaves
    simp only [List.flatMap_cons, List.length_append, List.length_cons]
    omega

theorem Forest.leaves_nodup {f : Vector Dword 256} {t : Tree} {fs : List Shape} (h : Forest f t fs) :
    (fs.flatMap Shape.leaves).Nodup := by
  have key : ∀ gs : List Shape, (gs.flatMap Shape.slots).Nodup → (gs.flatMap Shape.leaves).Nodup := by
    intro gs
    induction gs with
    | nil => intro _; exact List.nodup_nil
    | cons s gs ih =>
      intro hn
      rw [List.flatMap_cons, List.nodup_append] at hn ⊢
      refine ⟨(Shape.nodup_parts hn.1).1, ih hn.2.1, fun a ha b hb e => ?_⟩
      obtain ⟨x, hx, hbx⟩ := List.mem_flatMap.mp hb
      refine hn.2.2 (leafIdx a) ?_ (leafIdx b) ?_ (by rw [e])
      · exact List.mem_append.mpr (.inl (List.mem_map_of_mem ha))
      · exact List.mem_flatMap.mpr ⟨x, hx, List.mem_append.mpr (.inl (List.mem_map_of_mem hbx))⟩
  exact key fs h.distinct

/-- The store has room for every merge: at most 256 leaves, so at most 255 internal nodes (R10, R109). -/
theorem Forest.room {f : Vector Dword 256} {t : Tree} {a c : Shape} {fs : List Shape} (h : Forest f t (a :: c :: fs)) :
    t.nint ≠ 255#8 := by
  intro e
  have h1 := length_leaves_le h.leaves_nodup
  have h2 := flatMap_length_leaves (a :: c :: fs)
  have h3 := h.nint
  rw [e] at h3
  simp only [List.length_cons] at h2
  have h4 : (255#8).toNat = 255 := rfl
  omega

/-- R106: a merge makes one tree of the first two. -/
theorem Forest.merge {f : Vector Dword 256} {t : Tree} {a c : Shape} {fs : List Shape} (h : Forest f t (a :: c :: fs)) :
    Forest f (t.merge a.index c.index) (.node (internalIdx t.nint) a c :: fs) := by
  have h255 := h.room
  have hdis := h.distinct
  simp only [List.flatMap_cons, List.nodup_append, List.mem_append] at hdis
  obtain ⟨ha, ⟨hc, hfs, hcfs⟩, hafs⟩ := hdis
  have hma := a.index_mem_slots
  have hmc := c.index_mem_slots
  have hA := h.holds a (by simp)
  have hC := h.holds c (by simp)
  have hac : a.index ≠ c.index := fun e => hafs _ hma _ (.inl hmc) e
  have hge : 256 ≤ (internalIdx t.nint).toNat := by rw [toNat_internalIdx]; omega
  have hfreeN : (t.nodeAt (internalIdx t.nint)).valid = false := by
    cases hv : (t.nodeAt (internalIdx t.nint)).valid with
    | false => rfl
    | true => have := (h.inOrder.allocated _ hge).mp hv; rw [toNat_internalIdx] at this; omega
  have hnot : ∀ sh ∈ a :: c :: fs, internalIdx t.nint ∉ sh.slots := fun sh hm hn => by
    rw [(h.holds sh hm).valid hn] at hfreeN; cases hfreeN
  have han : a.index ≠ internalIdx t.nint := fun e => hnot a (by simp) (e ▸ hma)
  have hcn : c.index ≠ internalIdx t.nint := fun e => hnot c (by simp) (e ▸ hmc)
  have hmerge := Tree.nodeAt_merge h255 hac han hcn (Tree.lt_of_valid (hA.valid hma)) (Tree.lt_of_valid (hC.valid hmc))
  have hN : (t.merge a.index c.index).nodeAt (internalIdx t.nint) =
      { Node.empty with valid := true, internal := true, freq := (t.nodeAt a.index).freq + (t.nodeAt c.index).freq,
                        left := a.index, right := c.index } := by rw [hmerge, if_pos rfl]
  have hvalid : ∀ m, m ≠ internalIdx t.nint → ((t.merge a.index c.index).nodeAt m).valid = (t.nodeAt m).valid := by
    intro m hm
    rw [hmerge, if_neg hm]; split <;> rfl
  have hfreq : ∀ m, m ≠ internalIdx t.nint → ((t.merge a.index c.index).nodeAt m).freq = (t.nodeAt m).freq := by
    intro m hm
    rw [hmerge, if_neg hm]; split <;> rfl
  have hlinks : ∀ m, m ≠ internalIdx t.nint → ((t.merge a.index c.index).nodeAt m).left = (t.nodeAt m).left ∧
      ((t.merge a.index c.index).nodeAt m).right = (t.nodeAt m).right := by
    intro m hm
    rw [hmerge, if_neg hm]; split <;> exact ⟨rfl, rfl⟩
  have hother : ∀ m, m ≠ internalIdx t.nint → m ≠ a.index → m ≠ c.index →
      (t.merge a.index c.index).nodeAt m = t.nodeAt m := by
    intro m h1 h2 h3
    rw [hmerge, if_neg h1, if_neg (by tauto)]
  have hperm : ((Shape.node (internalIdx t.nint) a c :: fs).flatMap Shape.slots).Perm
      (internalIdx t.nint :: (a :: c :: fs).flatMap Shape.slots) := by
    simp only [List.flatMap_cons]
    refine ((Shape.slots_node_perm _ a c).append_right _).trans ?_
    rw [List.cons_append, List.append_assoc]
  refine ⟨⟨fun m hm => ?_, fun m hm => ?_⟩, fun sh hsh => ?_, ?_, fun m hm => ?_, ?_, ?_, ?_, fun b hb => ?_,
    fun m hm hv => ?_⟩
  · by_cases e : m = internalIdx t.nint
    · subst e; rw [hN] at hm; cases hm
    · rw [hvalid m e] at hm
      have h1 : m ≠ a.index := fun e1 => by rw [e1, hA.valid hma] at hm; cases hm
      have h2 : m ≠ c.index := fun e1 => by rw [e1, hC.valid hmc] at hm; cases hm
      rw [hother m e h1 h2]; exact h.inOrder.invalidEmpty m hm
  · rw [Tree.merge_nint, nint_succ h255]
    by_cases e : m = internalIdx t.nint
    · subst e; rw [hN, toNat_internalIdx]; simp
    · rw [hvalid m e, h.inOrder.allocated m hm]
      have : m.toNat ≠ 256 + t.nint.toNat := fun e1 => e (BitVec.eq_of_toNat_eq (by rw [toNat_internalIdx, e1]))
      omega
  · rcases List.mem_cons.mp hsh with rfl | hsh
    · refine ⟨hge, by rw [hN], by rw [hN], by rw [hN], by rw [hN], by rw [hN]; rfl, by rw [hN]; rfl, ?_, ?_⟩
      · refine hA.reparent ha (by rw [hmerge, if_neg han, if_pos (.inl rfl)]) fun m hm hne => ?_
        exact hother m (fun e => hnot a (by simp) (e ▸ hm)) hne (fun e => hafs m hm _ (.inl hmc) e)
      · refine hC.reparent hc (by rw [hmerge, if_neg hcn, if_pos (.inr rfl)]) fun m hm hne => ?_
        exact hother m (fun e => hnot c (by simp) (e ▸ hm)) (fun e => hafs _ hma _ (.inl hm) e.symm) hne
    · refine (h.holds sh (by simp [hsh])).congr fun m hm => ?_
      have hmf : m ∈ fs.flatMap Shape.slots := List.mem_flatMap.mpr ⟨sh, hsh, hm⟩
      exact hother m (fun e => hnot sh (by simp [hsh]) (e ▸ hm)) (fun e => hafs _ hma _ (.inr hmf) e.symm)
        (fun e => hcfs _ hmc _ hmf e.symm)
  · rw [hperm.nodup_iff, List.nodup_cons]
    refine ⟨fun hm => ?_, h.distinct⟩
    obtain ⟨sh, h1, h2⟩ := List.mem_flatMap.mp hm
    exact hnot sh h1 h2
  · rw [hperm.mem_iff, List.mem_cons]
    by_cases e : m = internalIdx t.nint
    · exact .inl e
    · rw [hvalid m e] at hm; exact .inr (h.reachable m hm)
  · rw [Tree.merge_nint, nint_succ h255, h.nint]
    simp only [List.flatMap_cons, Shape.internals, List.length_append, List.length_cons]
    omega
  · rw [Tree.merge_nleaf, h.nleaf]
    simp only [List.flatMap_cons, Shape.leaves, List.append_assoc]
  · have := h.noRoot
    simp [Tree.merge, Tree.setParent_eq, this]
  · have hne : leafIdx b ≠ internalIdx t.nint := fun e => by
      have := leafIdx_lt b; rw [e] at this; omega
    rw [hvalid _ hne] at hb
    rw [hfreq _ hne, h.leafFreq b hb]
  · by_cases e : m = internalIdx t.nint
    · subst e; rw [hN, hfreq _ han, hfreq _ hcn]
    · rw [hvalid m e] at hv
      have hv0 := hv
      have hmem : ∀ {p : Option NodeIdx} {sh : Shape}, sh.Holds t p → m ∈ sh.slots →
          (t.nodeAt m).left ∈ sh.slots ∧ (t.nodeAt m).right ∈ sh.slots := by
        intro p sh
        induction sh generalizing p with
        | leaf b =>
          intro _ hb
          rw [show (Shape.leaf b).slots = [leafIdx b] from rfl, List.mem_singleton] at hb
          have := leafIdx_lt b; rw [← hb] at this; omega
        | node i l r ihl ihr =>
          intro ⟨_, _, _, h4, h5, _, _, h8, h9⟩ hb
          rcases Shape.mem_slots_node.mp hb with rfl | hb | hb
          · exact ⟨h4 ▸ Shape.mem_slots_left l.index_mem_slots, h5 ▸ Shape.mem_slots_right r.index_mem_slots⟩
          · exact ⟨Shape.mem_slots_left (ihl h8 hb).1, Shape.mem_slots_left (ihl h8 hb).2⟩
          · exact ⟨Shape.mem_slots_right (ihr h9 hb).1, Shape.mem_slots_right (ihr h9 hb).2⟩
      obtain ⟨sh, h1, h2⟩ := List.mem_flatMap.mp (h.reachable m hv)
      have hch := hmem (h.holds sh h1) h2
      rw [hfreq m e, (hlinks m e).1, (hlinks m e).2, h.sums m hm hv0,
        hfreq _ fun e1 => hnot sh h1 (e1 ▸ hch.1), hfreq _ fun e1 => hnot sh h1 (e1 ▸ hch.2)]

/-- R108, R109: the merge loop leaves one tree of all the leaves, the last node made being its root. -/
theorem mergeLoop_forest {f : Vector Dword 256} (k : Nat) {t : Tree} {fs : List Shape} (h : Forest f t fs)
    (hk : fs.length ≤ k) :
    ∃ u gs, mergeLoop k (t, fs.map Shape.index) = (u, gs.map Shape.index) ∧ Forest f u gs ∧
      (gs.flatMap Shape.leaves).Perm (fs.flatMap Shape.leaves) ∧ gs.length = min fs.length 1 ∧
      (2 ≤ fs.length → ∀ sh ∈ gs, sh.index.toNat + 1 = 256 + u.nint.toNat) := by
  induction k generalizing t fs with
  | zero =>
    cases fs with
    | nil => exact ⟨t, [], rfl, h, .refl _, rfl, by simp⟩
    | cons s fs => simp at hk
  | succ k ih =>
    match fs, h, hk with
    | [], h, _ => exact ⟨t, [], rfl, h, .refl _, rfl, by simp⟩
    | [s], h, _ => exact ⟨t, [s], rfl, h, .refl _, rfl, by simp⟩
    | a :: c :: fs, h, hk =>
      have hM := h.merge
      obtain ⟨x, y, e1, e2⟩ := insertQ_forest (fun i => ((t.merge a.index c.index).nodeAt i).freq)
        (.node (internalIdx t.nint) a c) fs
      have hperm : (Shape.node (internalIdx t.nint) a c :: fs).Perm (x ++ .node (internalIdx t.nint) a c :: y) := by
        rw [e1]; exact List.perm_middle.symm
      have hlen := hperm.length_eq
      obtain ⟨u, gs, e, hF, hP, hL, hR⟩ := ih (hM.perm hperm) (by rw [← hlen]; simpa using hk)
      refine ⟨u, gs, ?_, hF, ?_, ?_, fun _ => ?_⟩
      · simp only [List.map_cons, mergeLoop, Tree.insert]
        rw [show internalIdx t.nint = (Shape.node (internalIdx t.nint) a c).index from rfl, e2]
        exact e
      · refine hP.trans ((hperm.flatMap_right Shape.leaves).symm.trans ?_)
        simp only [List.flatMap_cons, Shape.leaves, List.append_assoc]
        exact .refl _
      · rw [hL, ← hlen]; simp
      · cases hfs : fs with
        | nil =>
          have hxy : x = [] ∧ y = [] := by rw [hfs] at e1; exact List.append_eq_nil_iff.mp e1.symm
          rw [hxy.1, hxy.2, List.nil_append] at e
          have hk0 : ∃ j, mergeLoop k (t.merge a.index c.index, [internalIdx t.nint]) =
              (t.merge a.index c.index, [internalIdx t.nint]) ∧ j = k := by
            cases k <;> exact ⟨_, rfl, rfl⟩
          obtain ⟨-, e0, -⟩ := hk0
          have e' : (t.merge a.index c.index, [internalIdx t.nint]) = (u, gs.map Shape.index) := e0.symm.trans e
          have hu : t.merge a.index c.index = u := congrArg Prod.fst e'
          have hg : [internalIdx t.nint] = gs.map Shape.index := congrArg Prod.snd e'
          intro sh hsh
          have : sh.index ∈ [internalIdx t.nint] := hg ▸ List.mem_map_of_mem hsh
          rw [List.mem_singleton] at this
          rw [this, ← hu, Tree.merge_nint, nint_succ h.room, toNat_internalIdx]
          omega
        | cons s ss =>
          exact hR (by rw [← hlen, hfs]; simp)

theorem mem_allBytes (b : Byte) : b ∈ allBytes :=
  List.mem_map.mpr ⟨b.toNat, List.mem_range.mpr b.isLt, by simp⟩

theorem nodup_allBytes : allBytes.Nodup := by
  refine (List.nodup_map_iff_inj_on List.nodup_range).mpr fun a ha b hb e => ?_
  have h1 := List.mem_range.mp ha
  have h2 := List.mem_range.mp hb
  have := congrArg BitVec.toNat e
  simp only [BitVec.toNat_ofNat] at this
  omega

/-- R108: what BUILD makes of a frequency table: no tree where no byte occurs, else the tree of the bytes that occur. -/
theorem buildTree_spec (f : Vector Dword 256) :
    (symbolCount f = 0 → buildTree f = Tree.empty) ∧
      (symbolCount f ≠ 0 → ∃ sh, (buildTree f).Is sh ∧ (∀ b, b ∈ sh.leaves ↔ freqAt f b ≠ 0#64) ∧
        sh.leaves.length = symbolCount f ∧
        (2 ≤ symbolCount f → (buildTree f).root.toNat + 2 = 256 + symbolCount f) ∧
        (∀ b ∈ sh.leaves, ((buildTree f).nodeAt (leafIdx b)).freq = freqAt f b) ∧
        ∀ n, 256 ≤ n.toNat → ((buildTree f).nodeAt n).valid = true →
          ((buildTree f).nodeAt n).freq = ((buildTree f).nodeAt ((buildTree f).nodeAt n).left).freq +
            ((buildTree f).nodeAt ((buildTree f).nodeAt n).right).freq) := by
  obtain ⟨t, fs, e1, h1, hi1, hp1⟩ := addLeaves_forest allBytes nodup_allBytes (Forest.empty f) rfl (by simp)
  obtain ⟨u, gs, e2, h2, hp2, hl2, hr2⟩ := mergeLoop_forest (fs.map Shape.index).length h1 (by simp)
  rw [List.flatMap_nil, List.nil_append] at hp1
  have hperm := hp2.trans hp1
  have hcount : fs.length = symbolCount f := by
    have := flatMap_length_leaves fs
    rw [hi1, hp1.length_eq] at this
    simpa [symbolCount] using this.symm
  have hb : buildTree f = u.takeRoot (gs.map Shape.index) := by
    have e1' : addLeaves f allBytes (Tree.empty, []) = (t, fs.map Shape.index) := e1
    rw [buildTree]; simp only [e1', e2]
  constructor
  · intro h0
    have hfs : fs = [] := List.length_eq_zero_iff.mp (hcount.trans h0)
    have hgs : gs = [] := List.length_eq_zero_iff.mp (by rw [hl2, hfs]; rfl)
    have ht : ∀ l : List Byte, (∀ b ∈ l, freqAt f b = 0#64) → ∀ tq, addLeaves f l tq = tq := by
      intro l
      induction l with
      | nil => intro _ _; rfl
      | cons b l ih =>
        intro h tq
        rw [addLeaves, if_pos (h b List.mem_cons_self)]
        exact ih (fun c hc => h c (List.mem_cons_of_mem b hc)) _
    have hz : ∀ b ∈ allBytes, freqAt f b = 0#64 := by
      intro b hb'
      have hnil : allBytes.filter (fun b => freqAt f b ≠ 0#64) = [] := List.length_eq_zero_iff.mp h0
      have := List.filter_eq_nil_iff.mp hnil b hb'
      simpa using this
    have h3 := (ht allBytes hz (Tree.empty, [])).symm.trans e1
    have h4 : t = Tree.empty := (congrArg Prod.fst h3).symm
    rw [hfs, h4] at e2
    have h5 : u = Tree.empty := (congrArg Prod.fst e2).symm
    rw [hb, hgs, h5]; rfl
  · intro h0
    have hone : gs.length = 1 := by rw [hl2, hcount]; omega
    obtain ⟨sh, rfl⟩ := List.length_eq_one_iff.mp hone
    simp only [List.flatMap_cons, List.flatMap_nil, List.append_nil] at hperm
    have htree : buildTree f = u.withRoot sh.index := hb
    have hn := h2.nint
    have hl := h2.nleaf
    have hdis := h2.distinct
    simp only [List.flatMap_cons, List.flatMap_nil, List.append_nil] at hn hl hdis
    obtain ⟨hd1, hd2⟩ := Shape.nodup_parts hdis
    have hreach : ∀ n, (u.nodeAt n).valid = true → n ∈ sh.slots := fun n hv => by
      simpa using h2.reachable n hv
    have hleaves : sh.leaves.length = symbolCount f := hperm.length_eq
    have hIs : (u.withRoot sh.index).Is sh :=
      ⟨rfl, rfl, (h2.holds sh (by simp)).congr fun _ _ => rfl, hd1, hd2, hreach, h2.inOrder.invalidEmpty, hn, by
        have := length_leaves_le hd1
        rw [Tree.withRoot_nleaf, hl]; simp; omega⟩
    refine ⟨sh, by rw [htree]; exact hIs, fun b => ?_, hleaves, fun h2' => ?_, fun b hb' => ?_, fun n hn' hv => ?_⟩
    · rw [hperm.mem_iff, List.mem_filter]; simp [mem_allBytes]
    · have h3 := hr2 (by rw [hcount]; exact h2') sh (by simp)
      have h4 := sh.length_leaves
      rw [htree, Tree.withRoot_root]
      omega
    · rw [htree]
      exact h2.leafFreq b ((h2.holds sh (by simp)).valid (List.mem_append.mpr (.inl (List.mem_map_of_mem hb'))))
    · rw [htree] at hv ⊢
      exact h2.sums n hn' hv

end Sys2Proof.Machine
end

