-- ==== Sys2Proof/Laws/CodeTable.lean ====
section
/-! SUPPORT. The code table of a well-formed tree (spec/43_content_codec.md R118, R121): CODES always finds it, and every
entry is the path of its byte. -/

namespace Sys2Proof.Machine

theorem Tree.Is.leaf_valid {t : Tree} {sh : Shape} (h : t.Is sh) (b : Byte) :
    (t.nodeAt (leafIdx b)).valid = true ↔ b ∈ sh.leaves := by
  constructor
  · intro hv
    rcases List.mem_append.mp (h.reachable _ hv) with hm | hm
    · obtain ⟨c, hc, e⟩ := List.mem_map.mp hm
      exact leafIdx_injective e ▸ hc
    · have h1 := (h.holds.internal_range hm).1
      have h2 := leafIdx_lt b
      omega
  · intro hb
    exact h.holds.valid (List.mem_append_left _ (List.mem_map_of_mem hb))

theorem Tree.Is.slots_nodup {t : Tree} {sh : Shape} (h : t.Is sh) : sh.slots.Nodup := by
  refine List.nodup_append.mpr ⟨?_, h.internalsDistinct, ?_⟩
  · exact h.leavesDistinct.map fun a b e => leafIdx_injective e
  · intro a ha c hc e
    obtain ⟨b, -, rfl⟩ := List.mem_map.mp ha
    have h1 := (h.holds.internal_range hc).1
    have h2 := leafIdx_lt b
    rw [← e] at h1
    omega

theorem Tree.Is.internals_le {t : Tree} {sh : Shape} (h : t.Is sh) : sh.internals.length ≤ 255 :=
  length_internals_le h.internalsDistinct fun _ hn => h.holds.internal_range hn

theorem Shape.codeFor_of_not_mem {sh : Shape} {b : Byte} (h : b ∉ sh.leaves) : sh.codeFor b = [] := by
  simp [codeFor, path_eq_none.mpr h]

theorem Shape.codeFor_of_mem {sh : Shape} {b : Byte} (h : b ∈ sh.leaves) : sh.path b = some (sh.codeFor b) := by
  obtain ⟨l, hl⟩ := Option.isSome_iff_exists.mp (path_isSome.mpr h)
  simp [codeFor, hl]

theorem Shape.path_left {i : NodeIdx} {l r : Shape} {b : Byte} (h : b ∈ l.leaves) :
    (Shape.node i l r).codeFor b = false :: l.codeFor b := by
  obtain ⟨m, hm⟩ := Option.isSome_iff_exists.mp (path_isSome.mpr h)
  have e : (Shape.node i l r).path b = some (false :: m) := by simp [path, hm]
  simp [codeFor, e, hm]

theorem Shape.path_right {i : NodeIdx} {l r : Shape} {b : Byte} (hl : b ∉ l.leaves) (h : b ∈ r.leaves) :
    (Shape.node i l r).codeFor b = true :: r.codeFor b := by
  obtain ⟨m, hm⟩ := Option.isSome_iff_exists.mp (path_isSome.mpr h)
  have e : (Shape.node i l r).path b = some (true :: m) := by simp [path, path_eq_none.mpr hl, hm]
  simp [codeFor, e, hm]

theorem Shape.length_codeFor (sh : Shape) (b : Byte) : (sh.codeFor b).length ≤ sh.internals.length := by
  by_cases h : b ∈ sh.leaves
  · exact length_path (codeFor_of_mem h)
  · simp [codeFor_of_not_mem h]

theorem Shape.Holds.root_hasParent {t : Tree} {sh : Shape} (h : sh.Holds t none) :
    (t.nodeAt sh.index).hasParent = false := by
  cases sh with
  | leaf b => exact h.2.2.2.2.1
  | node i l r => exact h.2.2.2.2.2.1

/-- R118, R121: the upward walk finds the path. -/
theorem Tree.Is.pathOf {t : Tree} {sh : Shape} (h : t.Is sh) (b : Byte) : t.pathOf b = some (sh.codeFor b) := by
  unfold Tree.pathOf
  by_cases hb : b ∈ sh.leaves
  · have hl := Shape.codeFor_of_mem hb
    have hlen := sh.length_codeFor b
    have hle := h.internals_le
    have hk : Config.stackDepth = (255 - (sh.codeFor b).length + 1) + (sh.codeFor b).length := by
      simp only [Config.stackDepth]; omega
    rw [if_pos ((h.leaf_valid b).mpr hb), hk, walkUp_holds h.holds h.slots_nodup hl]
    simp [walkUp, h.holds.root_hasParent]
  · rw [if_neg (mt (h.leaf_valid b).mp hb), Shape.codeFor_of_not_mem hb]

/-- R118, R121: CODES on a well-formed tree. -/
theorem Tree.Is.codesOf {t : Tree} {sh : Shape} (h : t.Is sh) :
    ∃ c, codesOf t = some c ∧ c.valid = true ∧ c.Hold sh := by
  refine ⟨_, if_pos (List.all_eq_true.mpr fun n _ => by simp [h.pathOf]), rfl, fun b => ?_⟩
  simp [Codes.lenAt, Codes.bitsAt, h.pathOf]

/-- R47, R119: the bits an entry of the table stands for. -/
theorem Codes.Hold.codeOf {c : Codes} {sh : Shape} (h : c.Hold sh) (hle : sh.internals.length ≤ 255) (b : Byte) :
    c.codeOf b = sh.codeFor b := by
  have hlen := (sh.length_codeFor b).trans hle
  unfold Codes.codeOf
  rw [(h b).1, (h b).2, BitVec.toNat_ofNat, Nat.mod_eq_of_lt (by omega)]
  apply List.ext_getElem (by simp)
  intro i h1 h2
  rw [List.getElem_map, List.getElem_range, getLsbD_ofBits]
  simp at h1
  simp [show i < 256 by omega, List.getD, List.getElem?_eq_getElem h2]

/-- R118: two shapes a store is at once are alike. -/
theorem Codes.Hold.congr {c : Codes} {a b : Shape} (h : c.Hold a) (hp : ∀ x, a.path x = b.path x) : c.Hold b := by
  intro x
  have e : a.codeFor x = b.codeFor x := by simp [Shape.codeFor, hp]
  exact e ▸ h x

theorem Shape.Holds.unique {t : Tree} {a b : Shape} {p q : Option NodeIdx} (ha : a.Holds t p) (hb : b.Holds t q)
    (h : a.index = b.index) : a = b := by
  induction a generalizing b p q with
  | leaf c =>
    cases b with
    | leaf d => rw [leafIdx_injective h]
    | node i l r =>
      have h1 := hb.1
      have h2 := leafIdx_lt c
      simp only [Shape.index] at h
      rw [h] at h2
      omega
  | node i l r ihl ihr =>
    cases b with
    | leaf d =>
      have h1 := ha.1
      have h2 := leafIdx_lt d
      simp only [Shape.index] at h
      rw [← h] at h2
      omega
    | node j x y =>
      simp only [Shape.index] at h
      subst h
      obtain ⟨-, -, -, a1, a2, -, -, a3, a4⟩ := ha
      obtain ⟨-, -, -, b1, b2, -, -, b3, b4⟩ := hb
      rw [ihl a3 b3 (a1.symm.trans b1), ihr a4 b4 (a2.symm.trans b2)]

/-- A store is at most one tree. -/
theorem Tree.Is.unique {t : Tree} {a b : Shape} (ha : t.Is a) (hb : t.Is b) : a = b :=
  ha.holds.unique hb.holds (ha.root.symm.trans hb.root)

end Sys2Proof.Machine
end

