-- ==== Sys2Proof/Laws/ArchiveSize.lean ====
section
/-! SUPPORT. The code bits of a whole input (spec/41_tree_builder.md R110, R111, spec/44_sequencers.md R125): the trees BUILD
makes spend fewer than 11 bits on a byte on average, so an archive is shorter than 2^64 bytes and IN_POS counts it
without wrapping (log 14). Each merge takes the two lightest of m trees, so it adds at most 2/m of the whole weight to
the code bits. -/

namespace Sys2Proof.Machine

/-- The occurrences of the leaves of a shape. -/
def Shape.weight (f : Vector Dword 256) : Shape → Nat
  | .leaf b => (freqAt f b).toNat
  | .node _ l r => l.weight f + r.weight f

/-- The code bits of the occurrences of the leaves of a shape. -/
def Shape.cost (f : Vector Dword 256) : Shape → Nat
  | .leaf _ => 0
  | .node _ l r => l.cost f + r.cost f + (l.weight f + r.weight f)

theorem Shape.weight_eq_sum (f : Vector Dword 256) (sh : Shape) :
    sh.weight f = (sh.leaves.map fun b => (freqAt f b).toNat).sum := by
  induction sh with
  | leaf b => simp [weight, leaves]
  | node i l r ihl ihr => simp [weight, leaves, ihl, ihr]

theorem Shape.cost_eq_sum (f : Vector Dword 256) {sh : Shape} (h : sh.leaves.Nodup) :
    sh.cost f = (sh.leaves.map fun b => (freqAt f b).toNat * (sh.codeFor b).length).sum := by
  induction sh with
  | leaf b => simp [cost, leaves, codeFor, path]
  | node i l r ihl ihr =>
    simp only [leaves, List.nodup_append] at h
    obtain ⟨hl, hr, hd⟩ := h
    have e1 : (l.leaves.map fun b => (freqAt f b).toNat * ((Shape.node i l r).codeFor b).length).sum =
        l.cost f + l.weight f := by
      rw [ihl hl, weight_eq_sum, ← List.sum_map_add]
      congr 1
      exact List.map_congr_left fun b hb => by rw [path_left hb]; simp [Nat.mul_add]
    have e2 : (r.leaves.map fun b => (freqAt f b).toNat * ((Shape.node i l r).codeFor b).length).sum =
        r.cost f + r.weight f := by
      rw [ihr hr, weight_eq_sum, ← List.sum_map_add]
      congr 1
      exact List.map_congr_left fun b hb => by
        rw [path_right (fun hb' => hd b hb' b hb rfl) hb]; simp [Nat.mul_add]
    rw [leaves, List.map_append, List.sum_append, e1, e2, cost]
    omega

/-- R45, R110: the frequency of a node is the weight of the shape below it, if no sum wraps. -/
theorem Shape.Holds.freq {f : Vector Dword 256} {t : Tree} {p : Option NodeIdx} {sh : Shape} (h : sh.Holds t p)
    (hleaf : ∀ b, (t.nodeAt (leafIdx b)).valid = true → (t.nodeAt (leafIdx b)).freq = freqAt f b)
    (hsum : ∀ n, 256 ≤ n.toNat → (t.nodeAt n).valid = true →
      (t.nodeAt n).freq = (t.nodeAt (t.nodeAt n).left).freq + (t.nodeAt (t.nodeAt n).right).freq)
    (hw : sh.weight f < 2 ^ 64) : (t.nodeAt sh.index).freq.toNat = sh.weight f := by
  induction sh generalizing p with
  | leaf b => rw [index, hleaf b h.1, weight]
  | node i l r ihl ihr =>
    obtain ⟨h1, h2, -, h4, h5, -, -, h8, h9⟩ := h
    rw [weight] at hw
    rw [index, hsum i h1 h2, h4, h5, BitVec.toNat_add, ihl h8 (by omega), ihr h9 (by omega), weight, Nat.mod_eq_of_lt hw]

theorem Forest.freq {f : Vector Dword 256} {t : Tree} {fs : List Shape} (h : Forest f t fs) {sh : Shape} (hm : sh ∈ fs)
    (hw : sh.weight f < 2 ^ 64) : (t.nodeAt sh.index).freq.toNat = sh.weight f :=
  (h.holds sh hm).freq h.leafFreq h.sums hw

/-- R104: an Insert into a sorted queue keeps it sorted. -/
theorem insertQ_sorted (f : Vector Dword 256) (fr : NodeIdx → Dword) (sh : Shape) (fs : List Shape)
    (hfr : ∀ s ∈ sh :: fs, (fr s.index).toNat = s.weight f) (hs : fs.Pairwise fun a b => a.weight f ≤ b.weight f) :
    ∃ a b, fs = a ++ b ∧ insertQ fr sh.index (fs.map Shape.index) = (a ++ sh :: b).map Shape.index ∧
      (a ++ sh :: b).Pairwise fun a b => a.weight f ≤ b.weight f := by
  induction fs with
  | nil => exact ⟨[], [], rfl, rfl, by simp⟩
  | cons x fs ih =>
    have h0 := hfr sh (by simp)
    have hx := hfr x (by simp)
    rw [List.pairwise_cons] at hs
    by_cases h : fr sh.index < fr x.index
    · refine ⟨[], x :: fs, rfl, by simp [insertQ, h], ?_⟩
      rw [BitVec.lt_def, h0, hx] at h
      rw [List.nil_append, List.pairwise_cons, List.pairwise_cons]
      refine ⟨fun y hy => ?_, hs⟩
      rcases List.mem_cons.mp hy with rfl | hy
      · omega
      · have := hs.1 y hy; omega
    · obtain ⟨a, b, e1, e2, e3⟩ := ih (fun s hm => hfr s (by
        rcases List.mem_cons.mp hm with rfl | hm
        · simp
        · simp [hm])) hs.2
      refine ⟨x :: a, b, by simp [e1], by simp [insertQ, h, e2], ?_⟩
      rw [List.cons_append, List.pairwise_cons]
      refine ⟨fun y hy => ?_, e3⟩
      rw [BitVec.lt_def, h0, hx] at h
      rcases List.mem_append.mp hy with hy | hy
      · exact hs.1 y (by rw [e1]; simp [hy])
      · rcases List.mem_cons.mp hy with rfl | hy
        · omega
        · exact hs.1 y (by rw [e1]; simp [hy])

/-- R105: the initial queue is sorted. -/
theorem addLeaves_sorted {f : Vector Dword 256} (l : List Byte) (hl : l.Nodup) {t : Tree} {fs : List Shape}
    (h : Forest f t fs) (hi : fs.flatMap Shape.internals = []) (hfree : ∀ b ∈ l, b ∉ fs.flatMap Shape.leaves)
    (hs : fs.Pairwise fun a b => a.weight f ≤ b.weight f) (hw : ∀ sh ∈ fs, sh.weight f < 2 ^ 64) :
    ∃ u gs, addLeaves f l (t, fs.map Shape.index) = (u, gs.map Shape.index) ∧ Forest f u gs ∧
      gs.flatMap Shape.internals = [] ∧ gs.Pairwise (fun a b => a.weight f ≤ b.weight f) ∧
      (gs.flatMap Shape.leaves).Perm (fs.flatMap Shape.leaves ++ l.filter fun b => freqAt f b ≠ 0#64) := by
  induction l generalizing t fs with
  | nil => exact ⟨t, fs, rfl, h, hi, hs, by simp⟩
  | cons b l ih =>
    rw [List.nodup_cons] at hl
    by_cases h0 : freqAt f b = 0#64
    · obtain ⟨u, gs, e, hF, hI, hS, hP⟩ := ih hl.2 h hi (fun c hc => hfree c (List.mem_cons_of_mem b hc)) hs hw
      exact ⟨u, gs, by simp [addLeaves, h0, e], hF, hI, hS, by simpa [h0] using hP⟩
    · have hb : (t.nodeAt (leafIdx b)).valid = false := by
        cases hv : (t.nodeAt (leafIdx b)).valid with
        | false => rfl
        | true =>
          obtain ⟨sh, h1, h2⟩ := List.mem_flatMap.mp (h.reachable _ hv)
          rw [Shape.slots, List.mem_append] at h2
          rcases h2 with h2 | h2
          · obtain ⟨c, hc, e⟩ := List.mem_map.mp h2
            exact absurd (List.mem_flatMap.mpr ⟨sh, h1, leafIdx_injective e ▸ hc⟩) (hfree b List.mem_cons_self)
          · have := ((h.holds sh h1).internal_range h2).1
            have := leafIdx_lt b; omega
      have hF := h.addLeaf hb
      have hwb : (Shape.leaf b).weight f < 2 ^ 64 := (freqAt f b).isLt
      obtain ⟨x, y, e1, e2, e3⟩ := insertQ_sorted f (fun i => ((t.addLeaf b (freqAt f b)).nodeAt i).freq) (.leaf b) fs
        (fun s hm => hF.freq hm (by
          rcases List.mem_cons.mp hm with rfl | hm
          · exact hwb
          · exact hw s hm)) hs
      have hperm : (Shape.leaf b :: fs).Perm (x ++ .leaf b :: y) := by rw [e1]; exact List.perm_middle.symm
      have hleaves := hperm.flatMap_right Shape.leaves
      obtain ⟨u, gs, e, hF', hI, hS, hP⟩ := ih hl.2 (hF.perm hperm)
        (by
          have := hperm.flatMap_right Shape.internals
          rw [List.flatMap_cons, hi] at this
          exact List.nil_perm.mp this)
        (fun c hc hm => by
          rw [← hleaves.mem_iff, List.flatMap_cons, Shape.leaves, List.singleton_append, List.mem_cons] at hm
          rcases hm with rfl | hm
          · exact hl.1 hc
          · exact hfree c (List.mem_cons_of_mem b hc) hm)
        e3
        (fun s hm => by
          rcases List.mem_cons.mp (hperm.mem_iff.mpr hm) with rfl | hm
          · exact hwb
          · exact hw s hm)
      refine ⟨u, gs, ?_, hF', hI, hS, ?_⟩
      · rw [addLeaves, if_neg h0]
        simp only [Tree.insert]
        rw [show leafIdx b = (Shape.leaf b).index from rfl, e2]
        exact e
      · refine hP.trans ?_
        have h1 : (b :: l).filter (fun c => freqAt f c ≠ 0#64) = b :: l.filter fun c => freqAt f c ≠ 0#64 := by
          simp [h0]
        rw [h1]
        refine (hleaves.symm.append_right _).trans ?_
        simp only [List.flatMap_cons, Shape.leaves, List.cons_append]
        exact List.perm_middle.symm

/-- 2^20 times a bound on 2/2 + 2/3 + … + 2/m. -/
def mergeShare : Nat → Nat
  | 0 => 0
  | 1 => 0
  | m + 2 => mergeShare (m + 1) + (2 ^ 21 / (m + 2) + 1)

theorem sum_ge_of_sorted (f : Vector Dword 256) (v : Nat) (fs : List Shape) (h : ∀ s ∈ fs, v ≤ s.weight f) :
    v * fs.length ≤ (fs.map (Shape.weight f)).sum := by
  induction fs with
  | nil => simp
  | cons s fs ih =>
    have h1 := h s (by simp)
    have h2 := ih fun x hx => h x (by simp [hx])
    simp only [List.length_cons, List.map_cons, List.sum_cons, Nat.mul_add]
    omega

/-- R111: the two lightest of m trees have at most 2/m of the whole weight. -/
theorem lightest_two (f : Vector Dword 256) {a c : Shape} {fs : List Shape}
    (h : (a :: c :: fs).Pairwise fun a b => a.weight f ≤ b.weight f) :
    (a.weight f + c.weight f) * 2 ^ 20 ≤ ((a :: c :: fs).map (Shape.weight f)).sum * (2 ^ 21 / (fs.length + 2) + 1) := by
  rw [List.pairwise_cons, List.pairwise_cons] at h
  obtain ⟨h1, h2, -⟩ := h
  have hac := h1 c (by simp)
  have hsum := sum_ge_of_sorted f (c.weight f) fs h2
  set W := ((a :: c :: fs).map (Shape.weight f)).sum with hW
  simp only [List.map_cons, List.sum_cons] at hW
  have key : (fs.length + 2) * (a.weight f + c.weight f) ≤ 2 * W := by
    rw [hW]
    have := Nat.mul_le_mul_left fs.length hac
    nlinarith
  have hdiv : 2 ^ 21 ≤ (fs.length + 2) * (2 ^ 21 / (fs.length + 2) + 1) := by
    have h1 := Nat.div_add_mod (2 ^ 21) (fs.length + 2)
    have h2 := Nat.mod_lt (2 ^ 21) (show fs.length + 2 > 0 by omega)
    rw [Nat.mul_add, Nat.mul_one]
    omega
  refine Nat.le_of_mul_le_mul_left ?_ (show 0 < fs.length + 2 by omega)
  calc (fs.length + 2) * ((a.weight f + c.weight f) * 2 ^ 20)
      = (fs.length + 2) * (a.weight f + c.weight f) * 2 ^ 20 := by ring
    _ ≤ 2 * W * 2 ^ 20 := Nat.mul_le_mul_right _ key
    _ = W * 2 ^ 21 := by ring
    _ ≤ W * ((fs.length + 2) * (2 ^ 21 / (fs.length + 2) + 1)) := Nat.mul_le_mul_left _ hdiv
    _ = (fs.length + 2) * (W * (2 ^ 21 / (fs.length + 2) + 1)) := by ring

/-- The code bits that the merges of a queue add. -/
theorem mergeLoop_cost {f : Vector Dword 256} (k : Nat) {t : Tree} {fs : List Shape} (h : Forest f t fs)
    (hk : fs.length ≤ k) (hs : fs.Pairwise fun a b => a.weight f ≤ b.weight f)
    (hw : (fs.map (Shape.weight f)).sum < 2 ^ 64) :
    ∃ u gs, mergeLoop k (t, fs.map Shape.index) = (u, gs.map Shape.index) ∧ Forest f u gs ∧
      (gs.flatMap Shape.leaves).Perm (fs.flatMap Shape.leaves) ∧ gs.length = min fs.length 1 ∧
      (gs.map (Shape.cost f)).sum * 2 ^ 20 ≤
        (fs.map (Shape.cost f)).sum * 2 ^ 20 + (fs.map (Shape.weight f)).sum * mergeShare fs.length := by
  induction k generalizing t fs with
  | zero =>
    cases fs with
    | nil => exact ⟨t, [], rfl, h, .refl _, rfl, by simp⟩
    | cons s fs => simp at hk
  | succ k ih =>
    match fs, h, hk, hs, hw with
    | [], h, _, _, _ => exact ⟨t, [], rfl, h, .refl _, rfl, by simp⟩
    | [s], h, _, _, _ => exact ⟨t, [s], rfl, h, .refl _, rfl, by simp [mergeShare]⟩
    | a :: c :: fs, h, hk, hs, hw =>
      have hM := h.merge
      have hle : ∀ s ∈ Shape.node (internalIdx t.nint) a c :: fs, s.weight f < 2 ^ 64 := by
        intro s hm
        simp only [List.map_cons, List.sum_cons] at hw
        rcases List.mem_cons.mp hm with rfl | hm
        · simp only [Shape.weight]; omega
        · have := List.single_le_sum (l := fs.map (Shape.weight f)) (by simp) _ (List.mem_map_of_mem hm)
          omega
      obtain ⟨x, y, e1, e2, e3⟩ := insertQ_sorted f (fun i => ((t.merge a.index c.index).nodeAt i).freq)
        (.node (internalIdx t.nint) a c) fs (fun s hm => hM.freq hm (hle s hm))
        (by rw [List.pairwise_cons, List.pairwise_cons] at hs; exact hs.2.2)
      have hperm : (Shape.node (internalIdx t.nint) a c :: fs).Perm (x ++ .node (internalIdx t.nint) a c :: y) := by
        rw [e1]; exact List.perm_middle.symm
      have hlen := hperm.length_eq
      have hsumw := (hperm.map (Shape.weight f)).sum_eq
      have hsumc := (hperm.map (Shape.cost f)).sum_eq
      have hW : ((x ++ Shape.node (internalIdx t.nint) a c :: y).map (Shape.weight f)).sum =
          ((a :: c :: fs).map (Shape.weight f)).sum := by
        rw [← hsumw]; simp [Shape.weight]; omega
      have hC : ((x ++ Shape.node (internalIdx t.nint) a c :: y).map (Shape.cost f)).sum =
          ((a :: c :: fs).map (Shape.cost f)).sum + (a.weight f + c.weight f) := by
        rw [← hsumc]; simp [Shape.cost]; omega
      obtain ⟨u, gs, e, hF, hP, hL, hB⟩ := ih (hM.perm hperm) (by rw [← hlen]; simpa using hk) e3 (by rw [hW]; exact hw)
      refine ⟨u, gs, ?_, hF, ?_, ?_, ?_⟩
      · simp only [List.map_cons, mergeLoop, Tree.insert]
        rw [show internalIdx t.nint = (Shape.node (internalIdx t.nint) a c).index from rfl, e2]
        exact e
      · refine hP.trans ((hperm.flatMap_right Shape.leaves).symm.trans ?_)
        simp only [List.flatMap_cons, Shape.leaves, List.append_assoc]
        exact .refl _
      · rw [hL, ← hlen]; simp
      · refine hB.trans ?_
        have h2 := lightest_two f hs
        rw [hW, hC, ← hlen]
        have h3 : mergeShare (a :: c :: fs).length =
            mergeShare (fs.length + 1) + (2 ^ 21 / (fs.length + 2) + 1) := rfl
        rw [h3, List.length_cons, Nat.mul_add, Nat.add_mul, Nat.add_assoc, Nat.add_comm (_ * mergeShare _),
          ← Nat.add_assoc, ← Nat.add_assoc]
        exact Nat.add_le_add_right (Nat.add_le_add_left h2 _) _

/-- A tree that BUILD makes of fewer than 2^64 occurrences spends at most 11 code bits on each of them. -/
theorem buildTree_cost {f : Vector Dword 256} {sh : Shape} (h : (buildTree f).Is sh)
    (hw : (allBytes.map fun b => (freqAt f b).toNat).sum < 2 ^ 64) :
    sh.cost f ≤ 11 * (allBytes.map fun b => (freqAt f b).toNat).sum := by
  obtain ⟨t, fs, e1, h1, hi1, hs1, hp1⟩ := addLeaves_sorted allBytes nodup_allBytes (Forest.empty f) rfl (by simp)
    List.Pairwise.nil (by simp)
  rw [List.flatMap_nil, List.nil_append] at hp1
  have hfilter : ((allBytes.filter fun b => freqAt f b ≠ 0#64).map fun b => (freqAt f b).toNat).sum =
      (allBytes.map fun b => (freqAt f b).toNat).sum := by
    generalize allBytes = l
    induction l with
    | nil => rfl
    | cons b l ih =>
      by_cases h0 : freqAt f b = 0#64
      · simpa [h0] using ih
      · simpa [h0] using ih
  have hweights : ∀ gs : List Shape, (gs.map (Shape.weight f)).sum =
      ((gs.flatMap Shape.leaves).map fun b => (freqAt f b).toNat).sum := by
    intro gs
    induction gs with
    | nil => rfl
    | cons s gs ih => simp only [List.map_cons, List.sum_cons, List.flatMap_cons, List.map_append, List.sum_append, ih,
        Shape.weight_eq_sum]
  have hW : (fs.map (Shape.weight f)).sum = (allBytes.map fun b => (freqAt f b).toNat).sum := by
    rw [hweights, (hp1.map _).sum_eq, hfilter]
  have hcost : (fs.map (Shape.cost f)).sum = 0 := by
    refine List.sum_eq_zero fun c hc => ?_
    obtain ⟨s, hs, rfl⟩ := List.mem_map.mp hc
    cases s with
    | leaf b => rfl
    | node i l r =>
      have : i ∈ fs.flatMap Shape.internals := List.mem_flatMap.mpr ⟨_, hs, by simp [Shape.internals]⟩
      rw [hi1] at this
      simp at this
  obtain ⟨u, gs, e2, h2, -, hl2, hB⟩ := mergeLoop_cost (fs.map Shape.index).length h1 (by simp) hs1 (by rw [hW]; exact hw)
  have hlen : fs.length ≤ 256 := by
    have hnd : (fs.flatMap Shape.leaves).Nodup := h1.leaves_nodup
    have := length_leaves_le hnd
    have := flatMap_length_leaves fs
    rw [hi1, List.length_nil] at this
    omega
  have hbuild : buildTree f = u.takeRoot (gs.map Shape.index) := by
    simp only [buildTree]
    rw [show (([] : List NodeIdx)) = ([] : List Shape).map Shape.index from rfl, e1]
    exact congrArg (fun tq : Tree × List NodeIdx => tq.1.takeRoot tq.2) e2
  have hshare : ∀ m, m ≤ 256 → mergeShare m ≤ 11 * 2 ^ 20 := by decide +kernel
  rw [hcost, hW, Nat.zero_mul, Nat.zero_add] at hB
  cases gs with
  | nil =>
    have := h.rootValid
    rw [hbuild] at this
    simp [Tree.takeRoot, h2.noRoot] at this
  | cons s gs =>
    cases gs with
    | cons c gs => simp only [List.length_cons] at hl2; omega
    | nil =>
      have hroot : (buildTree f).root = s.index := by rw [hbuild]; rfl
      have hnode : ∀ n, (buildTree f).nodeAt n = u.nodeAt n := fun n => by rw [hbuild]; rfl
      have hs : s = sh :=
        ((h2.holds s (by simp)).congr fun n _ => hnode n).unique h.holds (hroot.symm.trans h.root)
      subst hs
      simp only [List.map_cons, List.map_nil, List.sum_cons, List.sum_nil, Nat.add_zero] at hB
      have h4 := Nat.mul_le_mul_left (allBytes.map fun b => (freqAt f b).toNat).sum (hshare _ hlen)
      have h5 : s.cost f * 2 ^ 20 ≤ 11 * (allBytes.map fun b => (freqAt f b).toNat).sum * 2 ^ 20 := by
        refine hB.trans (h4.trans (le_of_eq ?_))
        ring
      exact Nat.le_of_mul_le_mul_right h5 (by norm_num)

theorem sum_indicator {b : Byte} {l : List Byte} (hd : l.Nodup) (hb : b ∈ l) (v : Byte → Nat) :
    (l.map fun c => if c = b then v c else 0).sum = v b := by
  induction l with
  | nil => simp at hb
  | cons c l ih =>
    rw [List.nodup_cons] at hd
    rw [List.map_cons, List.sum_cons]
    by_cases h : c = b
    · subst h
      have : (l.map fun x => if x = c then v x else 0).sum = 0 := by
        refine List.sum_eq_zero fun n hn => ?_
        obtain ⟨x, hx, rfl⟩ := List.mem_map.mp hn
        exact if_neg fun e : x = c => hd.1 (e ▸ hx)
      rw [if_pos rfl, this, Nat.add_zero]
    · rw [if_neg h, Nat.zero_add]
      exact ih hd.2 ((List.mem_cons.mp hb).resolve_left fun e => h e.symm)

/-- R125: the length of the content section. -/
theorem content_length (code : Byte → List Bool) {s : List Byte} (hd : s.Nodup) (l : List Byte)
    (hl : ∀ b ∈ l, b ∈ s) :
    (l.flatMap code).length = (s.map fun b => l.count b * (code b).length).sum := by
  induction l with
  | nil => simp
  | cons x l ih =>
    rw [List.flatMap_cons, List.length_append, ih fun b hb => hl b (by simp [hb])]
    have h1 := sum_indicator hd (hl x (by simp)) fun c => (code c).length
    rw [← h1, ← List.sum_map_add]
    congr 1
    refine List.map_congr_left fun b _ => ?_
    rw [List.count_cons]
    by_cases h : b = x
    · subst h; simp [Nat.add_mul]; omega
    · simp [h, Ne.symm h]

theorem sum_counts (l : List Byte) : (allBytes.map fun b => l.count b).sum = l.length := by
  have := content_length (fun _ => [true]) nodup_allBytes l fun b _ => mem_allBytes b
  simpa using this.symm

/-- R125, R110: the content section of an archive ENCODE writes. -/
theorem content_le {f : Vector Dword 256} {sh : Shape} (h : (buildTree f).Is sh) {l : List Byte}
    (hlen : l.length < 2 ^ 63) (hf : ∀ b, freqAt f b = BitVec.ofNat 64 (l.count b)) (hl : ∀ b ∈ l, b ∈ sh.leaves) :
    (l.flatMap sh.codeFor).length ≤ 11 * l.length := by
  have hc : ∀ b, (freqAt f b).toNat = l.count b := fun b => by
    rw [hf, BitVec.toNat_ofNat, Nat.mod_eq_of_lt]
    have := List.count_le_length (a := b) (l := l)
    omega
  have hs : (allBytes.map fun b => (freqAt f b).toNat).sum = l.length := by
    rw [← sum_counts l]
    congr 1
    exact List.map_congr_left fun b _ => hc b
  have hcost := buildTree_cost h (by rw [hs]; omega)
  rw [hs, Shape.cost_eq_sum f h.leavesDistinct] at hcost
  rw [content_length sh.codeFor h.leavesDistinct l hl]
  simpa only [hc] using hcost

end Sys2Proof.Machine
end

