-- ==== Sys2Proof/Laws/CountPass.lean ====
section
/-! SUPPORT. What a counting pass finds (spec/41_tree_builder.md R107, spec/45_control.md R138): the occurrences of each
byte value among the first 2^63 - 1 bytes of the input. -/

namespace Sys2Proof.Machine

theorem freqAt_bumpFreq (f : Vector Dword 256) (a b : Byte) :
    freqAt (bumpFreq f a) b = if a = b then freqAt f b + 1#64 else freqAt f b := by
  unfold bumpFreq freqAt
  rw [Vector.getElem_set]
  by_cases h : a = b
  · subst h; simp
  · rw [if_neg (fun e => h (BitVec.eq_of_toNat_eq e)), if_neg h]

@[simp] theorem freqAt_replicate (v : Dword) (b : Byte) : freqAt (Vector.replicate 256 v) b = v := by
  simp [freqAt]

/-- The port after `k` bytes are pulled from it. -/
def InPort.advanced (p : InPort) (k : Nat) : InPort := { p with pos := p.pos + BitVec.ofNat 64 k }

theorem InPort.advance_advanced (p : InPort) (k : Nat) : p.advance.advanced k = p.advanced (k + 1) := by
  simp only [InPort.advance, InPort.advanced, InPort.mk.injEq, true_and, and_true]
  rw [BitVec.add_assoc, BitVec.add_comm 1#64, ← BitVec.ofNat_add]

theorem maxLen_eq : Config.maxLen = BitVec.ofNat 64 (2 ^ 63 - 1) := by decide

theorem toNat_maxLen : Config.maxLen.toNat = 2 ^ 63 - 1 := by decide

/-- R107: as long as the count stays below 2^63, every byte is counted. -/
theorem countLoop_short (l : List Byte) (c : Counting) (h : c.length.toNat + l.length < 2 ^ 63) :
    (countLoop l c).inp = c.inp.advanced l.length ∧ (countLoop l c).tooLong = c.tooLong ∧
      (countLoop l c).length = c.length + BitVec.ofNat 64 l.length ∧
      ∀ b, freqAt (countLoop l c).freq b = freqAt c.freq b + BitVec.ofNat 64 (l.count b) := by
  induction l generalizing c with
  | nil => simp [countLoop, InPort.advanced]
  | cons a l ih =>
    rw [List.length_cons] at h
    have hne : c.length ≠ Config.maxLen := by
      intro e
      have h1 : c.length.toNat = 2 ^ 63 - 1 := by rw [e, toNat_maxLen]
      omega
    have hlen : (c.length + 1#64).toNat = c.length.toNat + 1 := by
      rw [BitVec.toNat_add]; simp; omega
    rw [countLoop, if_neg hne]
    obtain ⟨h1, h2, h3, h4⟩ :=
      ih { c with inp := c.inp.advance, freq := bumpFreq c.freq a, length := c.length + 1#64 } (by rw [hlen]; omega)
    refine ⟨by rw [h1, InPort.advance_advanced, List.length_cons], h2, ?_, fun b => ?_⟩
    · rw [h3, BitVec.add_assoc, ← BitVec.ofNat_add, List.length_cons, Nat.add_comm 1]
    · rw [h4, freqAt_bumpFreq, List.count_cons]
      by_cases e : a = b
      · subst e
        simp only [if_pos, beq_self_eq_true]
        rw [BitVec.add_assoc, ← BitVec.ofNat_add, Nat.add_comm 1]
      · rw [if_neg e, if_neg (by simpa using e), Nat.add_zero]

/-- R107: from the count 2^63 - 1 the next byte is consumed and not counted. -/
theorem countLoop_append (l : List Byte) (a : Byte) (m : List Byte) (c : Counting)
    (h : c.length.toNat + l.length = 2 ^ 63 - 1) :
    countLoop (l ++ a :: m) c =
      { countLoop l c with inp := (countLoop l c).inp.advance, tooLong := true } := by
  induction l generalizing c with
  | nil =>
    have e : c.length = Config.maxLen := by
      apply BitVec.eq_of_toNat_eq
      rw [toNat_maxLen]
      simp only [List.length_nil, Nat.add_zero] at h
      omega
    simp [countLoop, e]
  | cons x l ih =>
    rw [List.length_cons] at h
    have hne : c.length ≠ Config.maxLen := by
      intro e
      have h1 : c.length.toNat = 2 ^ 63 - 1 := by rw [e, toNat_maxLen]
      omega
    have hlen : (c.length + 1#64).toNat = c.length.toNat + 1 := by
      rw [BitVec.toNat_add]; simp; omega
    rw [List.cons_append, countLoop, if_neg hne, countLoop, if_neg hne]
    exact ih _ (by simp only [hlen]; omega)

theorem InPort.seek0_rest (p : InPort) : p.seek0.rest = p.data := by simp [InPort.rest, InPort.seek0]

/-- R107: an input of at most 2^63 - 1 bytes. -/
theorem countPass_short {p : InPort} (h : p.data.length < 2 ^ 63) :
    (countPass p).inp = p.seek0.advanced p.data.length ∧ (countPass p).tooLong = false ∧
      (countPass p).length = BitVec.ofNat 64 p.data.length ∧
      ∀ b, freqAt (countPass p).freq b = BitVec.ofNat 64 (p.data.count b) := by
  have := countLoop_short p.seek0.rest
    { inp := p.seek0, freq := Vector.replicate 256 0#64, length := 0#64, tooLong := false }
    (by rw [InPort.seek0_rest]; simpa using h)
  simpa [countPass, InPort.seek0_rest] using this

/-- R107: a longer input. The count stops at 2^63 - 1 and one more byte is consumed. -/
theorem countPass_long {p : InPort} (h : 2 ^ 63 ≤ p.data.length) :
    (countPass p).inp = p.seek0.advanced (2 ^ 63) ∧ (countPass p).tooLong = true ∧
      (countPass p).length = Config.maxLen ∧
      ∀ b, freqAt (countPass p).freq b = BitVec.ofNat 64 ((p.data.take (2 ^ 63 - 1)).count b) := by
  have hlen : (p.data.take (2 ^ 63 - 1)).length = 2 ^ 63 - 1 := by rw [List.length_take]; omega
  obtain ⟨a, m, hd⟩ : ∃ a m, p.data.drop (2 ^ 63 - 1) = a :: m := by
    cases e : p.data.drop (2 ^ 63 - 1) with
    | nil => rw [List.drop_eq_nil_iff] at e; omega
    | cons a m => exact ⟨a, m, rfl⟩
  have hsplit : p.seek0.rest = p.data.take (2 ^ 63 - 1) ++ a :: m := by
    rw [InPort.seek0_rest, ← hd, List.take_append_drop]
  have hs := countLoop_short (p.data.take (2 ^ 63 - 1))
    { inp := p.seek0, freq := Vector.replicate 256 0#64, length := 0#64, tooLong := false }
    (by rw [hlen]; simp)
  obtain ⟨h1, h2, h3, h4⟩ := hs
  unfold countPass
  rw [hsplit, countLoop_append _ _ _ _ (by rw [hlen]; simp)]
  refine ⟨?_, rfl, ?_, fun b => ?_⟩
  · rw [h1, hlen]
    simp only [InPort.advance, InPort.advanced, InPort.mk.injEq, true_and, and_true]
    rw [BitVec.add_assoc, ← BitVec.ofNat_add]
    norm_num
  · rw [h3, hlen, maxLen_eq]; simp
  · rw [h4]; simp

end Sys2Proof.Machine
end

