-- ==== Sys2Proof/Laws/CutShort.lean ====
section
/-! SUPPORT. Reading from a stream that ends too early (spec/44_sequencers.md R130): a tree, a symbol or a sequence of
symbols of which some bits are missing ends with TRUNCATED_ARCHIVE. -/

namespace Sys2Proof.Machine

theorem CutShort.nil_or_cons {x l : List Bool} {b : Bool} (h : CutShort x (b :: l)) :
    x = [] ∨ ∃ y, x = b :: y ∧ CutShort y l := by
  cases x with
  | nil => exact .inl rfl
  | cons a y =>
    obtain ⟨hp, hl⟩ := h
    rw [List.cons_prefix_cons] at hp
    exact .inr ⟨y, by rw [hp.1], hp.2, by simpa using hl⟩

theorem CutShort.cons {x l : List Bool} (h : CutShort x l) (b : Bool) : CutShort (b :: x) (b :: l) :=
  ⟨List.cons_prefix_cons.mpr ⟨rfl, h.1⟩, Nat.succ_lt_succ h.2⟩

theorem CutShort.append {x a b : List Bool} (h : CutShort x (a ++ b)) :
    CutShort x a ∨ ∃ y, x = a ++ y ∧ CutShort y b := by
  obtain ⟨⟨z, hz⟩, hl⟩ := h
  rw [List.length_append] at hl
  by_cases hx : x.length < a.length
  · refine .inl ⟨?_, hx⟩
    exact List.prefix_of_prefix_length_le ⟨z, hz⟩ (List.prefix_append a b) (by omega)
  · obtain ⟨y, rfl⟩ := List.prefix_of_prefix_length_le (List.prefix_append a b) ⟨z, hz⟩ (by omega)
    refine .inr ⟨y, rfl, ⟨z, ?_⟩, by rw [List.length_append] at hl; omega⟩
    rw [List.append_assoc] at hz
    exact List.append_cancel_left hz

/-- R120: with some of a code's bits missing the descent takes the bits there are and stops. -/
theorem descend_short {t : Tree} {p : Option NodeIdx} {sh : Shape} (h : sh.Holds t p) (d : Nat)
    (hd : sh.internals.length < d) {b : Byte} {l : List Bool} (hl : sh.path b = some l) {q : InPort} (hs : q.Short)
    (hq : CutShort q.bits l) : ∃ r, descend t d sh.index q = .stop .truncatedArchive r ∧ r.bits = [] := by
  induction sh generalizing p d l q with
  | leaf c =>
    by_cases hc : c = b <;> simp [Shape.path, hc] at hl
    subst hl
    simp [CutShort] at hq
  | node i x y ihx ihy =>
    obtain ⟨-, -, h3, h4, h5, -, -, h8, h9⟩ := h
    simp only [Shape.internals, List.length_cons, List.length_append] at hd
    cases d with
    | zero => omega
    | succ d =>
      simp only [Shape.path] at hl
      cases hx : x.path b with
      | some m =>
        simp only [hx] at hl; cases hl
        rcases hq.nil_or_cons with e | ⟨w, e, hw⟩
        · exact ⟨q, by simp [descend, h3, InPort.readBit_nil e], e⟩
        · obtain ⟨q1, e1, b1, s1, -⟩ := InPort.readBit_cons hs e
          obtain ⟨r, e, hr⟩ := ihx h8 d (by omega) hx (s1.short hs) (b1 ▸ hw)
          have hv := h8.valid x.index_mem_slots
          exact ⟨r, by simp [descend, h3, h4, e1, hv, e], hr⟩
      | none =>
        simp only [hx] at hl
        cases hy : y.path b with
        | none => simp [hy] at hl
        | some m =>
          simp only [hy, Option.map_some] at hl; cases hl
          rcases hq.nil_or_cons with e | ⟨w, e, hw⟩
          · exact ⟨q, by simp [descend, h3, InPort.readBit_nil e], e⟩
          · obtain ⟨q1, e1, b1, s1, -⟩ := InPort.readBit_cons hs e
            obtain ⟨r, e, hr⟩ := ihy h9 d (by omega) hy (s1.short hs) (b1 ▸ hw)
            have hv := h9.valid y.index_mem_slots
            exact ⟨r, by simp [descend, h3, h5, e1, hv, e], hr⟩

theorem des_short {sh : Shape} {d : Nat} {par : Option NodeIdx} {p : InPort} {t : Tree}
    (ht : t.Partial) (hd : sh.internals.length < d) (hroom : t.nint.toNat + sh.internals.length ≤ 255)
    (hdis : sh.leaves.Nodup) (hfree : ∀ b ∈ sh.leaves, (t.nodeAt (leafIdx b)).valid = false) (hs : p.Short) (hw : p.Wf)
    (hp : CutShort p.bits sh.preorder) : ∃ q, des d par p t = .stop .truncatedArchive q := by
  induction sh generalizing d par p t with
  | leaf v =>
    cases d with
    | zero => omega
    | succ d =>
      rcases CutShort.nil_or_cons hp with e | ⟨y, e, hy⟩
      · exact ⟨p, by simp [des, InPort.readBit_nil e]⟩
      · obtain ⟨q1, e1, b1, s1, w1⟩ := InPort.readBit_cons hs e
        obtain ⟨q2, e2, -⟩ := InPort.readByte_none (s1.short hs) w1 (by rw [b1]; simpa using hy.2)
        exact ⟨q2, by simp [des, e1, e2]⟩
  | node i l r ihl ihr =>
    simp only [Shape.internals, List.length_cons, List.length_append] at hd hroom
    simp only [Shape.leaves, List.nodup_append] at hdis
    cases d with
    | zero => omega
    | succ d =>
      have h255 : t.nint ≠ 255#8 := fun e => by rw [e] at hroom; simp at hroom
      rcases CutShort.nil_or_cons hp with e | ⟨y, e, hy⟩
      · exact ⟨p, by simp [des, InPort.readBit_nil e]⟩
      · obtain ⟨q1, e1, b1, s1, w1⟩ := InPort.readBit_cons hs e
        have hs1 := s1.short hs
        have hopen : ∀ b, (t.openInternal par).nodeAt (leafIdx b) = t.nodeAt (leafIdx b) := fun b => by
          rw [Tree.nodeAt_openInternal h255, if_neg]
          intro e
          have h1 := leafIdx_lt b
          rw [e, toNat_internalIdx] at h1; omega
        have hP1 := ht.openInternal h255 par
        have hn1 : (t.openInternal par).nint.toNat = t.nint.toNat + 1 := by
          rw [Tree.openInternal_nint, nint_succ h255]
        have hf1 : ∀ b ∈ l.leaves, ((t.openInternal par).nodeAt (leafIdx b)).valid = false := fun b hb => by
          rw [hopen]; exact hfree b (by simp [Shape.leaves, hb])
        rcases hy.append with hy | ⟨z, rfl, hz⟩
        · obtain ⟨q, e⟩ := ihl (d := d) (par := some (internalIdx t.nint)) hP1 (by omega) (by omega) hdis.1 hf1 hs1 w1
            (b1 ▸ hy)
          exact ⟨q, by simp [des, e1, h255, e]⟩
        · obtain ⟨rl, q2, u2, eL, b2⟩ := des_preorder (par := some (internalIdx t.nint)) (d := d) (rest := z) hP1
            (by omega) (by omega) hdis.1 hf1 hs1 w1 b1
          obtain ⟨sL, rfl, gL, kL, bL⟩ := des_node hP1 eL
          obtain ⟨hsame, -⟩ := Shape.preorder_same ((bL hs1 w1).symm.trans b1)
          obtain ⟨hleaves, hints, -, -⟩ := Shape.same_leaves hsame
          have hval : (u2.nodeAt (internalIdx t.nint)).valid = true := by
            refine (gL.inOrder.allocated _ (by rw [toNat_internalIdx]; omega)).mpr ?_
            rw [gL.nint, hn1, toNat_internalIdx]; omega
          have hP2 : (u2.setLeft (internalIdx t.nint) sL.index).Partial := gL.inOrder.setNode hval hval
          obtain ⟨q3, eR⟩ := ihr (d := d) (par := some (internalIdx t.nint)) (p := q2) hP2 (by omega)
            (by rw [Tree.setLeft_nint, gL.nint, hn1]; omega) hdis.2.1
            (fun b hb => by
              have hne : leafIdx b ≠ internalIdx t.nint := fun e => by
                have h1 := leafIdx_lt b
                rw [e, toNat_internalIdx] at h1; omega
              have hnot : leafIdx b ∉ sL.slots := by
                intro hm
                rw [Shape.slots, List.mem_append] at hm
                rcases hm with hm | hm
                · obtain ⟨c, hc, e⟩ := List.mem_map.mp hm
                  rw [leafIdx_injective e, hleaves] at hc
                  exact hdis.2.2 b hc b hb rfl
                · have h1 := (gL.holds.internal_range hm).1
                  have h2 := leafIdx_lt b
                  omega
              rw [Tree.setLeft, Tree.nodeAt_setNode_ne hne, gL.frame _ hnot, hopen]
              exact hfree b (by simp [Shape.leaves, hb]))
            (kL.1.short hs1) (kL.2 w1) (b2 ▸ hz)
          exact ⟨q3, by simp [des, e1, h255, eL, eR]⟩

theorem readTree_short {sh : Shape} {p : InPort} (hdis : sh.leaves.Nodup) (hs : p.Short) (hw : p.Wf)
    (hp : CutShort p.bits sh.preorder) : ∃ q, readTree p = .stop .truncatedArchive q := by
  have h1 := length_leaves_le hdis
  have h2 := sh.length_leaves
  have hroom : Tree.empty.nint.toNat + sh.internals.length ≤ 255 := by simp [Tree.empty]; omega
  exact des_short Tree.empty_partial (by simp [Config.stackDepth]; omega) hroom hdis
    (fun b _ => by simp [Node.empty]) hs hw hp

end Sys2Proof.Machine
end

