-- ==== Sys2Proof/Laws/Encoding.lean ====
section
/-! SUPPORT. The fields of an assembled command word (spec/30_encoding.md R76). -/

namespace Sys2Proof

theorem opcField_assemble (opc : Byte) (arg : BitVec 9) (sel : BitVec 2) :
    opcField (assemble opc arg sel) = opc := by
  apply BitVec.eq_of_getLsbD_eq
  intro i hi
  simp only [opcField, assemble, BitVec.getLsbD_extractLsb', BitVec.getLsbD_append]
  simp [hi]

theorem argField_assemble (opc : Byte) (arg : BitVec 9) (sel : BitVec 2) :
    argField (assemble opc arg sel) = arg := by
  apply BitVec.eq_of_getLsbD_eq
  intro i hi
  simp only [argField, assemble, BitVec.getLsbD_extractLsb', BitVec.getLsbD_append]
  simp [hi]

theorem selField_assemble (opc : Byte) (arg : BitVec 9) (sel : BitVec 2) :
    selField (assemble opc arg sel) = sel := by
  apply BitVec.eq_of_getLsbD_eq
  intro i hi
  simp only [selField, assemble, BitVec.getLsbD_extractLsb', BitVec.getLsbD_append]
  simp [hi, show ¬ 17 + i < 8 by omega, show ¬ 17 + i - 8 < 9 by omega, show 17 + i - 8 - 9 = i by omega]

theorem rsvdField_assemble (opc : Byte) (arg : BitVec 9) (sel : BitVec 2) :
    rsvdField (assemble opc arg sel) = 0#13 := by
  apply BitVec.eq_of_getLsbD_eq
  intro i hi
  simp only [rsvdField, assemble, BitVec.getLsbD_extractLsb', BitVec.getLsbD_append]
  simp [show ¬ 19 + i < 8 by omega, show ¬ 19 + i - 8 < 9 by omega, show ¬ 19 + i - 8 - 9 < 2 by omega]

end Sys2Proof
end

