-- ==== Sys2Proof/Laws/Symbols.lean ====
section
/-! SUPPORT. The symbol loops of the sequencers (spec/44_sequencers.md R126, R127): what the second pass of ENCODE writes,
and what DECODE reads of it. -/

namespace Sys2Proof.Machine

theorem InPort.advanced_zero (p : InPort) : p.advanced 0 = p := by simp [InPort.advanced]

/-- R126: the second pass writes the codes of the bytes it reads. -/
theorem encodeSyms_codes {t : Tree} {c : Codes} {sh : Shape} (h : t.Is sh) (hc : c.Hold sh) (l m : List Byte)
    (hl : ∀ b ∈ l, b ∈ sh.leaves) {p : InPort} (hs : p.Short) (hp : p.rest = l ++ m) (o : OutPort) :
    ∃ q, encodeSyms t c l.length p o = .done (p.advanced l.length) q ∧ o.Appends (l.flatMap sh.codeFor) q := by
  induction l generalizing p o with
  | nil => exact ⟨o, by simp [encodeSyms, InPort.advanced_zero], by simpa using OutPort.Appends.refl o⟩
  | cons b l ih =>
    have e := InPort.inByte_cons hp
    have hv := (h.leaf_valid b).mpr (hl b (by simp))
    obtain ⟨q, e2, a2⟩ := ih (fun x hx => hl x (by simp [hx])) (p := p.advance) hs (InPort.advance_rest hs hp)
      (o.writeBits (c.codeOf b))
    refine ⟨q, ?_, ?_⟩
    · rw [InPort.advance_advanced] at e2
      simpa [encodeSyms, e, hv] using e2
    · rw [List.flatMap_cons]
      refine .trans ?_ a2
      rw [hc.codeOf h.internals_le]
      exact o.writeBits_appends _

/-- R123, R127: the codes of a sequence of bytes give back the bytes, and nothing more is read. -/
theorem decodeSyms_codes {t : Tree} {sh : Shape} (h : t.Is sh) (l : List Byte) (hl : ∀ b ∈ l, b ∈ sh.leaves)
    {q : InPort} (hs : q.Short) (hw : q.Wf) {rest : List Bool} (hq : q.bits = l.flatMap sh.codeFor ++ rest)
    (o : OutPort) :
    ∃ r, decodeSyms t l.length q o = .done r (l.foldl OutPort.writeByte o) ∧ r.bits = rest ∧ q.Keeps r := by
  induction l generalizing q o with
  | nil => exact ⟨q, rfl, by simpa using hq, .refl q⟩
  | cons b l ih =>
    have hle := h.internals_le
    rw [List.flatMap_cons, List.append_assoc] at hq
    obtain ⟨r, e, br, sr, wr⟩ := descend_path h.holds h.leavesDistinct Config.stackDepth
      (by simp [Config.stackDepth]; omega) (Shape.codeFor_of_mem (hl b (by simp))) hs hw hq
    rw [← h.root] at e
    obtain ⟨r2, e2, b2, k2⟩ := ih (fun x hx => hl x (by simp [hx])) (sr.short hs) wr br (o.writeByte b)
    refine ⟨r2, ?_, b2, ((descend_keeps t _ _ q).1 _ _ e).trans k2⟩
    simp [decodeSyms, Tree.readSym, e, e2]

/-- R120, R123: over a tree a descent that ends at a leaf has read the code of its byte. -/
theorem descend_leaf {t : Tree} {p : Option NodeIdx} {sh : Shape} (h : sh.Holds t p) (hdis : sh.leaves.Nodup) {d : Nat}
    {q r : InPort} {k : NodeIdx} (hs : q.Short) (hd : descend t d sh.index q = .leaf k r) :
    ∃ c ∈ sh.leaves, k = leafIdx c ∧ q.bits = sh.codeFor c ++ r.bits := by
  induction sh generalizing p d q with
  | leaf c =>
    obtain ⟨-, h2, -⟩ := h
    cases d with
    | zero => simp [descend] at hd
    | succ d =>
      simp [descend, h2] at hd
      exact ⟨c, by simp [Shape.leaves], hd.1.symm, by simp [Shape.codeFor, Shape.path, hd.2]⟩
  | node i x y ihx ihy =>
    obtain ⟨-, -, h3, h4, h5, -, -, h8, h9⟩ := h
    simp only [Shape.leaves, List.nodup_append] at hdis
    cases d with
    | zero => simp [descend] at hd
    | succ d =>
      cases hq : q.bits with
      | nil => simp [descend, h3, InPort.readBit_nil hq] at hd
      | cons bit l =>
        obtain ⟨q1, e1, b1, s1, -⟩ := InPort.readBit_cons hs hq
        cases bit with
        | false =>
          simp only [Shape.index_node, descend, h3, h4, e1, h8.valid x.index_mem_slots, if_true, Bool.false_eq_true,
            if_false] at hd
          obtain ⟨c, hc, hk, hb⟩ := ihx h8 hdis.1 (s1.short hs) hd
          exact ⟨c, List.mem_append_left _ hc, hk, by rw [Shape.path_left hc, ← b1, hb]; rfl⟩
        | true =>
          simp only [Shape.index_node, descend, h3, h5, e1, h9.valid y.index_mem_slots, if_true] at hd
          obtain ⟨c, hc, hk, hb⟩ := ihy h9 hdis.2.1 (s1.short hs) hd
          exact ⟨c, List.mem_append_right _ hc, hk,
            by rw [Shape.path_right (fun hx => hdis.2.2 c hx c hc rfl) hc, ← b1, hb]; rfl⟩

/-- R120, R123: over a tree a descent stops only where the bits end within a code. -/
theorem descend_cut {t : Tree} {p : Option NodeIdx} {sh : Shape} (h : sh.Holds t p) (hdis : sh.leaves.Nodup) {d : Nat}
    {q r : InPort} {e : ErrCode} (hs : q.Short) (hd : descend t d sh.index q = .stop e r) :
    e = .truncatedArchive ∧ r.bits = [] ∧ ∃ b ∈ sh.leaves, CutShort q.bits (sh.codeFor b) := by
  induction sh generalizing p d q with
  | leaf c =>
    obtain ⟨-, h2, -⟩ := h
    cases d with
    | zero => simp [descend] at hd
    | succ d => simp [descend, h2] at hd
  | node i x y ihx ihy =>
    obtain ⟨-, -, h3, h4, h5, -, -, h8, h9⟩ := h
    simp only [Shape.leaves, List.nodup_append] at hdis
    cases d with
    | zero => simp [descend] at hd
    | succ d =>
      cases hq : q.bits with
      | nil =>
        simp only [Shape.index_node, descend, h3, InPort.readBit_nil hq, if_true] at hd
        cases hd
        obtain ⟨b, hb⟩ := List.exists_mem_of_length_pos (l := x.leaves) (by rw [x.length_leaves]; omega)
        exact ⟨rfl, hq, b, List.mem_append_left _ hb, by rw [Shape.path_left hb]; exact ⟨List.nil_prefix, by simp⟩⟩
      | cons bit l =>
        obtain ⟨q1, e1, b1, s1, -⟩ := InPort.readBit_cons hs hq
        cases bit with
        | false =>
          simp only [Shape.index_node, descend, h3, h4, e1, h8.valid x.index_mem_slots, if_true, Bool.false_eq_true,
            if_false] at hd
          obtain ⟨h1, h2, b, hb, hc⟩ := ihx h8 hdis.1 (s1.short hs) hd
          rw [b1] at hc
          exact ⟨h1, h2, b, List.mem_append_left _ hb, by rw [Shape.path_left hb]; exact hc.cons false⟩
        | true =>
          simp only [Shape.index_node, descend, h3, h5, e1, h9.valid y.index_mem_slots, if_true] at hd
          obtain ⟨h1, h2, b, hb, hc⟩ := ihy h9 hdis.2.1 (s1.short hs) hd
          rw [b1] at hc
          exact ⟨h1, h2, b, List.mem_append_right _ hb,
            by rw [Shape.path_right (fun hx => hdis.2.2 b hx b hb rfl) hb]; exact hc.cons true⟩

/-- R127: a content of which a code is cut short ends with TRUNCATED_ARCHIVE, the bytes before that code written and all
bits taken. -/
theorem decodeSyms_cut {t : Tree} {sh : Shape} (h : t.Is sh) (l : List Byte) (hl : ∀ c ∈ l, c ∈ sh.leaves) {b : Byte}
    (hb : b ∈ sh.leaves) {y : List Bool} (hy : CutShort y (sh.codeFor b)) {n : Nat} (hn : l.length < n) {q : InPort}
    (hs : q.Short) (hw : q.Wf) (hq : q.bits = l.flatMap sh.codeFor ++ y) (o : OutPort) :
    ∃ r, decodeSyms t n q o = .stop .truncatedArchive r (l.foldl OutPort.writeByte o) ∧ r.bits = [] := by
  have hle := h.internals_le
  have hd : sh.internals.length < Config.stackDepth := by simp [Config.stackDepth]; omega
  induction l generalizing n q o with
  | nil =>
    cases n with
    | zero => cases hn
    | succ n =>
      obtain ⟨r, e, hr⟩ := descend_short h.holds Config.stackDepth hd (Shape.codeFor_of_mem hb) hs (hq ▸ hy)
      rw [← h.root] at e
      exact ⟨r, by simp [decodeSyms, Tree.readSym, e], hr⟩
  | cons c l ih =>
    cases n with
    | zero => cases hn
    | succ n =>
      rw [List.flatMap_cons, List.append_assoc] at hq
      obtain ⟨r, e, br, sr, wr⟩ := descend_path h.holds h.leavesDistinct Config.stackDepth hd
        (Shape.codeFor_of_mem (hl c (by simp))) hs hw hq
      rw [← h.root] at e
      obtain ⟨r2, e2, hr⟩ := ih (fun x hx => hl x (by simp [hx])) (Nat.lt_of_succ_lt_succ hn) (sr.short hs) wr br (o.writeByte c)
      exact ⟨r2, by simp [decodeSyms, Tree.readSym, e, e2], hr⟩

/-- R127: a content stops only where a code is cut short. -/
theorem decodeSyms_stop {t : Tree} {sh : Shape} (h : t.Is sh) {n : Nat} {q r : InPort} {o o' : OutPort} {e : ErrCode}
    (hs : q.Short) (hw : q.Wf) (hd : decodeSyms t n q o = .stop e r o') :
    ∃ l : List Byte, (∀ c ∈ l, c ∈ sh.leaves) ∧ l.length < n ∧
      ∃ b ∈ sh.leaves, ∃ y, q.bits = l.flatMap sh.codeFor ++ y ∧ CutShort y (sh.codeFor b) := by
  induction n generalizing q o with
  | zero => simp [decodeSyms] at hd
  | succ n ih =>
    simp only [decodeSyms, Tree.readSym, h.root] at hd
    cases e1 : descend t Config.stackDepth sh.index q with
    | overflow => simp [e1] at hd
    | stop x p =>
      obtain ⟨-, -, b, hb, hc⟩ := descend_cut h.holds h.leavesDistinct hs e1
      exact ⟨[], by simp, Nat.succ_pos n, b, hb, q.bits, rfl, hc⟩
    | leaf k p =>
      obtain ⟨c, hc, rfl, hp⟩ := descend_leaf h.holds h.leavesDistinct hs e1
      have k1 := (descend_keeps t _ _ q).1 _ _ e1
      simp only [e1] at hd
      obtain ⟨l, hl, hn, b, hb, y, hy, hcut⟩ := ih (k1.stream.short hs) (k1.wf hw) hd
      refine ⟨c :: l, by simpa using ⟨hc, hl⟩, Nat.succ_lt_succ hn, b, hb, y, ?_, hcut⟩
      rw [hp, hy, List.flatMap_cons, List.append_assoc]

/-- R130: with some of the code bits missing the content ends with TRUNCATED_ARCHIVE. -/
theorem decodeSyms_short {t : Tree} {sh : Shape} (h : t.Is sh) (l : List Byte) (hl : ∀ b ∈ l, b ∈ sh.leaves)
    {q : InPort} (hs : q.Short) (hw : q.Wf) (hq : CutShort q.bits (l.flatMap sh.codeFor)) (o : OutPort) :
    ∃ r o', decodeSyms t l.length q o = .stop .truncatedArchive r o' := by
  induction l generalizing q o with
  | nil => simp [CutShort] at hq
  | cons b l ih =>
    have hle := h.internals_le
    have hd : sh.internals.length < Config.stackDepth := by simp [Config.stackDepth]; omega
    have hb := Shape.codeFor_of_mem (hl b (by simp))
    rw [List.flatMap_cons] at hq
    rcases hq.append with hq | ⟨y, hy, hq⟩
    · obtain ⟨r, e⟩ := descend_short h.holds Config.stackDepth hd hb hs hq
      rw [← h.root] at e
      exact ⟨r, o, by simp [decodeSyms, Tree.readSym, e]⟩
    · obtain ⟨r, e, br, sr, wr⟩ := descend_path h.holds h.leavesDistinct Config.stackDepth hd hb hs hw hy
      rw [← h.root] at e
      obtain ⟨r2, o2, e2⟩ := ih (fun x hx => hl x (by simp [hx])) (sr.short hs) wr (br ▸ hq) (o.writeByte b)
      exact ⟨r2, o2, by simp [decodeSyms, Tree.readSym, e, e2]⟩

/-- R127: from an aligned writer every decoded byte is one byte of OUT_DATA. -/
theorem OutPort.writeBytes_aligned (l : List Byte) {o : OutPort} (h : o.wcnt = 0#3) :
    (l.foldl OutPort.writeByte o).data = o.data ++ l ∧ (l.foldl OutPort.writeByte o).wcnt = 0#3 ∧
      (l.foldl OutPort.writeByte o).wbuf = o.wbuf ∧
      (l.foldl OutPort.writeByte o).cnt = o.cnt + BitVec.ofNat 64 l.length := by
  induction l generalizing o with
  | nil => simp [h]
  | cons b l ih =>
    have e : o.writeByte b = o.outByte b := by simp [OutPort.writeByte, h]
    obtain ⟨h1, h2, h3, h4⟩ := ih (o := o.outByte b) (by simpa using h)
    rw [List.foldl_cons, e]
    refine ⟨by simp [h1], h2, by simp [h3], ?_⟩
    rw [h4, OutPort.outByte_cnt, BitVec.add_assoc, ← BitVec.ofNat_add, List.length_cons, Nat.add_comm 1]

/-- R129: a content that is read to its end has added one byte to the output for each symbol, and moved the input. -/
theorem decodeSyms_done {t : Tree} (n : Nat) {p q : InPort} {o o' : OutPort} (h : decodeSyms t n p o = .done q o') :
    ∃ l : List Byte, l.length = n ∧ o' = l.foldl OutPort.writeByte o ∧ p.Keeps q := by
  induction n generalizing p o with
  | zero => cases h; exact ⟨[], rfl, rfl, .refl _⟩
  | succ n ih =>
    simp only [decodeSyms] at h
    cases e : t.readSym p with
    | leaf k r =>
      simp only [e] at h
      obtain ⟨l, h1, h2, h3⟩ := ih h
      exact ⟨leafByte k :: l, by simp [h1], h2, ((descend_keeps t _ _ p).1 _ _ e).trans h3⟩
    | stop x r => simp [e] at h
    | overflow => simp [e] at h

/-- R120, R124, R127: over a well-formed tree a content that stops does so for a missing bit, with the bytes before it
written. -/
theorem decodeSyms_total {t : Tree} {sh : Shape} (h : t.Is sh) (n : Nat) (p : InPort) (o : OutPort) :
    (∃ (q : InPort) (l : List Byte),
        decodeSyms t n p o = .done q (l.foldl OutPort.writeByte o) ∧ l.length = n ∧ p.Keeps q) ∨
      ∃ (q : InPort) (l : List Byte),
        decodeSyms t n p o = .stop .truncatedArchive q (l.foldl OutPort.writeByte o) ∧ p.Keeps q := by
  induction n generalizing p o with
  | zero => exact .inl ⟨p, [], rfl, rfl, .refl p⟩
  | succ n ih =>
    have hle := h.internals_le
    rcases descend_holds h.holds Config.stackDepth (by simp [Config.stackDepth]; omega) p with
      ⟨b, r, -, e, k⟩ | ⟨r, e, k⟩
    · rw [← h.root] at e
      rcases ih r (o.writeByte b) with ⟨q, l, e2, h2, k2⟩ | ⟨q, l, e2, k2⟩
      · exact .inl ⟨q, b :: l, by simp [decodeSyms, Tree.readSym, e, e2], by simp [h2], k.trans k2⟩
      · exact .inr ⟨q, b :: l, by simp [decodeSyms, Tree.readSym, e, e2], k.trans k2⟩
    · rw [← h.root] at e
      exact .inr ⟨r, [], by simp [decodeSyms, Tree.readSym, e], k⟩

end Sys2Proof.Machine
end

