-- ==== Sys2Proof/Laws/Outcomes.lean ====
section
/-! SUPPORT. One lemma for each meaning that branches on what it reads or walks: every next state it can give. -/

namespace Sys2Proof.Machine

/-- R100, R132: an output that was opened by the command itself and is closed at its end. -/
structure OutPort.Finished (o : OutPort) : Prop where
  closed : o.closed = true
  wcnt : o.wcnt = 0#3
  wbuf : o.wbuf = 0#8
  cnt : o.cnt = BitVec.ofNat 64 o.data.length

theorem OutPort.flush_wbuf {o : OutPort} (hz : o.ZeroAbove) : o.flush.wbuf = 0#8 := by
  have h := OutPort.flush_zeroAbove hz
  rw [OutPort.ZeroAbove, OutPort.flush_wcnt] at h
  apply BitVec.eq_of_toNat_eq
  simp at h
  simp [h]

theorem OutPort.closeOut_finished {o : OutPort} (hz : o.ZeroAbove) {r : OutPort} (hr : r.reopen.CountsFrom o) :
    o.closeOut.Finished := by
  obtain ⟨l, h1, h2⟩ := hr.trans o.flush_countsFrom
  refine ⟨rfl, by simp, by simp [OutPort.flush_wbuf hz], ?_⟩
  simp only [OutPort.reopen_data, OutPort.reopen_cnt, List.nil_append] at h1 h2
  simp [h1, h2]

theorem OutPort.Appends.finished {o r : OutPort} {l : List Bool} (h : r.reopen.Appends l o) : o.closeOut.Finished :=
  OutPort.closeOut_finished (h.zeroAbove (by simp [OutPort.ZeroAbove])) h.counts

theorem OutPort.writeBytes_appends (l : List Byte) (o : OutPort) :
    o.Appends (streamBits l) (l.foldl OutPort.writeByte o) := by
  induction l generalizing o with
  | nil => simpa using OutPort.Appends.refl o
  | cons b l ih => simpa using (o.writeByte_appends b).trans (ih (o.writeByte b))

/-! The port after a loop that only reads. -/

/-- R107: the bytes the loop takes are the bytes of the input. -/
theorem countLoop_inRange (l : List Byte) (c : Counting) (h : c.inp.InRange)
    (hl : c.inp.pos.toNat + l.length ≤ c.inp.data.length) : (countLoop l c).inp.InRange := by
  have hadv : ∀ p : InPort, p.advance.pos.toNat ≤ p.pos.toNat + 1 := fun p => by
    rw [InPort.advance_pos, BitVec.toNat_add]; exact Nat.mod_le _ _
  induction l generalizing c with
  | nil => exact h
  | cons a l ih =>
    have h1 := hadv c.inp
    rw [List.length_cons] at hl
    rw [countLoop]
    split
    · exact Nat.le_trans h1 (show _ ≤ c.inp.data.length by omega)
    · exact ih _ (Nat.le_trans h1 (show _ ≤ c.inp.data.length by omega))
        (show c.inp.advance.pos.toNat + _ ≤ c.inp.data.length by omega)

theorem countLoop_port (l : List Byte) (c : Counting) :
    c.inp.SameStream (countLoop l c).inp ∧ (countLoop l c).inp.rbuf = c.inp.rbuf ∧
      (countLoop l c).inp.rcnt = c.inp.rcnt := by
  induction l generalizing c with
  | nil => exact ⟨.refl _, rfl, rfl⟩
  | cons a l ih =>
    rw [countLoop]
    split
    · exact ⟨⟨rfl, rfl⟩, rfl, rfl⟩
    · exact ih _

theorem countPass_port (p : InPort) :
    p.SameStream (countPass p).inp ∧ (countPass p).inp.rbuf = 0#8 ∧ (countPass p).inp.rcnt = 0#3 :=
  countLoop_port _ _

theorem countPass_wf (p : InPort) : (countPass p).inp.Wf := fun _ => (countPass_port p).2.1

theorem countPass_inRange (p : InPort) : (countPass p).inp.InRange :=
  countLoop_inRange _ _ p.seek0_inRange (by simp [InPort.seek0_rest])

theorem encodeSyms_port (t : Tree) (c : Codes) (n : Nat) (p : InPort) (o : OutPort) {q : InPort} {w : OutPort}
    (h : encodeSyms t c n p o = .done q w ∨ encodeSyms t c n p o = .short q w ∨ encodeSyms t c n p o = .unseen q w) :
    p.Keeps q ∧ ∃ l, o.Appends l w := by
  induction n generalizing p o with
  | zero =>
    simp only [encodeSyms, SecondPass.done.injEq, reduceCtorEq, or_false] at h
    obtain ⟨rfl, rfl⟩ := h
    exact ⟨.refl _, [], .refl _⟩
  | succ n ih =>
    simp only [encodeSyms] at h
    cases hb : p.inByte with
    | none =>
      simp only [hb, SecondPass.short.injEq, reduceCtorEq, or_false, false_or] at h
      obtain ⟨rfl, rfl⟩ := h
      exact ⟨.refl _, [], .refl _⟩
    | some x =>
      obtain ⟨b, r⟩ := x
      have hk := InPort.inByte_keeps hb
      simp only [hb] at h
      by_cases hv : (t.nodeAt (leafIdx b)).valid = true
      · simp only [hv, if_true] at h
        obtain ⟨k, l, a⟩ := ih _ _ h
        exact ⟨hk.trans k, _, (o.writeBits_appends _).trans a⟩
      · simp only [hv, if_false, SecondPass.unseen.injEq, reduceCtorEq, false_or, Bool.false_eq_true] at h
        obtain ⟨rfl, rfl⟩ := h
        exact ⟨hk, [], .refl _⟩

theorem readTree_keeps (p : InPort) :
    (∀ r q u, readTree p = .node r q u → p.Keeps q) ∧
      ∀ e q, readTree p = .stop e q → p.Keeps q ∧ (e = .truncatedArchive ∨ e = .corruptTree) :=
  ⟨fun _ _ _ h => by obtain ⟨-, -, k, -⟩ := readTree_node h; exact k, fun _ _ h => ⟨(des_stop h).2, (des_stop h).1⟩⟩

theorem descend_stop (t : Tree) (d : Nat) (n : NodeIdx) (p : InPort) {e : ErrCode} {q : InPort}
    (h : descend t d n p = .stop e q) : e = .truncatedArchive ∨ e = .corruptTree := by
  induction d generalizing n p with
  | zero => simp [descend] at h
  | succ d ih =>
    simp only [descend] at h
    split at h
    · split at h
      · cases h; exact .inl rfl
      · next b r hr =>
        by_cases hv : (t.nodeAt (if b = true then (t.nodeAt n).right else (t.nodeAt n).left)).valid = true
        · rw [if_pos hv] at h; exact ih _ _ h
        · rw [if_neg hv] at h; cases h; exact .inr rfl
    · cases h

theorem decodeSyms_port (t : Tree) (n : Nat) (p : InPort) (o : OutPort) :
    (∀ q w, decodeSyms t n p o = .done q w →
      p.Keeps q ∧ ∃ l : List Byte, l.length = n ∧ w = l.foldl OutPort.writeByte o) ∧
    ∀ e q w, decodeSyms t n p o = .stop e q w →
      p.Keeps q ∧ (e = .truncatedArchive ∨ e = .corruptTree) ∧ ∃ l : List Byte, w = l.foldl OutPort.writeByte o := by
  refine ⟨fun q w h => ?_, ?_⟩
  · obtain ⟨l, h1, h2, h3⟩ := decodeSyms_done n h
    exact ⟨h3, l, h1, h2⟩
  · induction n generalizing p o with
    | zero => simp [decodeSyms]
    | succ n ih =>
      intro e q w h
      simp only [decodeSyms] at h
      cases hr : t.readSym p with
      | leaf k r =>
        simp only [hr] at h
        obtain ⟨h1, h2, l, h3⟩ := ih _ _ _ _ _ h
        exact ⟨((descend_keeps t _ _ p).1 _ _ hr).trans h1, h2, leafByte k :: l, by simpa using h3⟩
      | stop e' r =>
        simp only [hr] at h
        cases h
        exact ⟨(descend_keeps t _ _ p).2 _ _ hr, descend_stop _ _ _ _ hr, [], rfl⟩
      | overflow => simp [hr] at h

/-! The meanings. -/

theorem raiseReading_next {e : ErrCode} {s t : State} (h : raiseReading e s = .next t)
    (he : e = .truncatedArchive ∨ e = .corruptTree) :
    ∃ eof, t = { s with status := { s.status with eof := eof } }.complete e ∧
      ((e = .truncatedArchive ∧ eof = true) ∨ (e = .corruptTree ∧ eof = s.status.eof)) := by
  rcases he with rfl | rfl <;> cases h
  · exact ⟨true, rfl, .inl ⟨rfl, rfl⟩⟩
  · exact ⟨s.status.eof, rfl, .inr ⟨rfl, rfl⟩⟩

theorem finishRead_next {r : Option Dword} {p : InPort} {s t : State} (h : finishRead r p s = .next t) :
    ∃ v eof, t = { s with inp := p, result := v, status := { s.status with eof := eof } }.complete .ok := by
  cases r <;> cases h <;> exact ⟨_, _, rfl⟩

theorem execRdBit_next {s t : State} (h : execRdBit s = .next t) :
    ∃ q v eof, t = { s with inp := q, result := v, status := { s.status with eof := eof } }.complete .ok ∧
      s.inp.Keeps q := by
  unfold execRdBit at h
  split at h
  · next b p hp =>
    obtain ⟨v, eof, e⟩ := finishRead_next h
    exact ⟨p, v, eof, e, InPort.readBit_keeps hp⟩
  · obtain ⟨v, eof, e⟩ := finishRead_next h
    exact ⟨_, v, eof, e, .refl _⟩

theorem execRdByte_next {s t : State} (h : execRdByte s = .next t) :
    ∃ q v eof, t = { s with inp := q, result := v, status := { s.status with eof := eof } }.complete .ok ∧
      s.inp.Keeps q := by
  obtain ⟨v, eof, e⟩ := finishRead_next h
  exact ⟨_, v, eof, e, s.inp.readByte_keeps⟩

theorem execRdI64_next {s t : State} (h : execRdI64 s = .next t) :
    ∃ q v eof, t = { s with inp := q, result := v, status := { s.status with eof := eof } }.complete .ok ∧
      s.inp.Keeps q := by
  obtain ⟨v, eof, e⟩ := finishRead_next h
  exact ⟨_, v, eof, e, s.inp.readInt64_keeps⟩

theorem execCount_next {s t : State} (h : execCount s = .next t) :
    t = s.complete .unseekableInput ∨
      ∃ q f n e, t = { s with inp := q, freq := f, length := n, tree := Tree.empty, codes := Codes.empty }.complete e ∧
        e ≠ .truncatedArchive ∧ s.inp.SameStream q ∧ q.Wf ∧ q.InRange := by
  unfold execCount at h
  split at h
  · refine .inr ?_
    simp only at h
    split at h <;> cases h <;>
      exact ⟨_, _, _, _, rfl, by simp, (countPass_port s.inp).1, countPass_wf s.inp, countPass_inRange s.inp⟩
  · cases h; exact .inl rfl

theorem execSerTree_next {s t : State} (h : execSerTree s = .next t) :
    t = s.complete .badState ∨
      (s.out.closed = false ∧ s.tree.rootValid = true ∧
        ∃ o l, t = { s with out := o }.complete .ok ∧ s.out.Appends l o) := by
  unfold execSerTree at h
  split at h
  · cases h; exact .inl rfl
  · next hc =>
    split at h
    · next hr =>
      split at h
      · next o ho =>
        cases h
        obtain ⟨l, a⟩ := ser_appends _ _ _ _ _ ho
        exact .inr ⟨by simpa using hc, hr, o, l, rfl, a⟩
      · cases h
    · cases h; exact .inl rfl

theorem execDesTree_next {s t : State} (h : execDesTree s = .next t) :
    (∃ q u sh, t = { s with inp := q, tree := u, codes := Codes.empty }.complete .ok ∧ u.Is sh ∧ s.inp.Keeps q) ∨
      ∃ q eof e, t = { s with inp := q, tree := Tree.empty, codes := Codes.empty
                              status := { s.status with eof := eof } }.complete e ∧ s.inp.Keeps q ∧
        ((e = .truncatedArchive ∧ eof = true) ∨ (e = .corruptTree ∧ eof = s.status.eof)) := by
  unfold execDesTree at h
  split at h
  · next r q u hr =>
    cases h
    obtain ⟨sh, hs, k, -⟩ := readTree_node hr
    exact .inl ⟨q, _, sh, rfl, hs, k⟩
  · next e q hr =>
    obtain ⟨k, he⟩ := (readTree_keeps _).2 _ _ hr
    obtain ⟨eof, e1, e2⟩ := raiseReading_next h he
    exact .inr ⟨q, eof, e, e1, k, e2⟩
  · cases h

theorem execCodes_next {s t : State} (h : execCodes s = .next t) :
    t = s.complete .badState ∨
      (s.tree.rootValid = true ∧ ∃ c, codesOf s.tree = some c ∧ t = { s with codes := c }.complete .ok) := by
  unfold execCodes at h
  split at h
  · next hr =>
    split at h
    · next c hc => cases h; exact .inr ⟨hr, c, hc, rfl⟩
    · cases h
  · cases h; exact .inl rfl

theorem execEncSym_next {b : Byte} {s t : State} (h : execEncSym b s = .next t) :
    (∃ e, (e = .badState ∨ e = .noLeaf) ∧ t = s.complete e) ∨
      (s.out.closed = false ∧ s.codes.valid = true ∧ (s.tree.nodeAt (leafIdx b)).valid = true ∧
        t = { s with out := s.out.writeBits (s.codes.codeOf b) }.complete .ok) := by
  unfold execEncSym at h
  split_ifs at h with h1 h2 h3 <;> cases h
  · exact .inl ⟨_, .inl rfl, rfl⟩
  · exact .inl ⟨_, .inl rfl, rfl⟩
  · exact .inr ⟨by simpa using h1, by simpa using h2, h3, rfl⟩
  · exact .inl ⟨_, .inr rfl, rfl⟩

theorem execDecSym_next {s t : State} (h : execDecSym s = .next t) :
    t = s.complete .badState ∨
      ∃ q v eof e, t = { s with inp := q, result := v, status := { s.status with eof := eof } }.complete e ∧
        s.inp.Keeps q ∧ ((e = .ok ∧ eof = s.status.eof) ∨ (e = .truncatedArchive ∧ eof = true) ∨
          (e = .corruptTree ∧ eof = s.status.eof)) := by
  unfold execDecSym at h
  split at h
  · refine .inr ?_
    split at h
    · next n q hr =>
      cases h
      exact ⟨q, _, _, _, rfl, (descend_keeps _ _ _ _).1 _ _ hr, .inl ⟨rfl, rfl⟩⟩
    · next e q hr =>
      obtain ⟨eof, e1, e2⟩ := raiseReading_next h (descend_stop _ _ _ _ hr)
      exact ⟨q, _, eof, e, e1, (descend_keeps _ _ _ _).2 _ _ hr, .inr e2⟩
    · cases h
  · cases h; exact .inl rfl

theorem encodeBody_next {s t : State} {r : OutPort} {m : List Bool} (hout : r.reopen.Appends m s.out)
    (h : encodeBody s = .next t) :
    ∃ q o eof e, t = { s with inp := q, out := o, status := { s.status with eof := eof } }.complete e ∧
      e ≠ .truncatedArchive ∧ s.inp.SameStream q ∧ q.Wf ∧ q.InRange ∧ o.Finished := by
  unfold encodeBody at h
  split at h
  · cases h
  · next o ho =>
    obtain ⟨l, a⟩ := ser_appends _ _ _ _ _ ho
    have fin : ∀ q w, (encodeSyms s.tree s.codes s.length.toNat s.inp.seek0 o = .done q w ∨
        encodeSyms s.tree s.codes s.length.toNat s.inp.seek0 o = .short q w ∨
        encodeSyms s.tree s.codes s.length.toNat s.inp.seek0 o = .unseen q w) →
        s.inp.SameStream q ∧ q.Wf ∧ q.InRange ∧ w.closeOut.Finished := fun q w hr => by
      obtain ⟨k, l2, a2⟩ := encodeSyms_port _ _ _ _ _ hr
      exact ⟨k.1, k.2 (InPort.seek0_wf _), k.inRange (InPort.seek0_inRange _), ((hout.trans a).trans a2).finished⟩
    split at h
    · next q w hr => cases h; exact ⟨q, w.closeOut, s.status.eof, .ok, rfl, by simp, fin q w (.inl hr)⟩
    · next q w hr => cases h; exact ⟨q, w.closeOut, true, .inputChanged, rfl, by simp, fin q w (.inr (.inl hr))⟩
    · next q w hr =>
      cases h; exact ⟨q, w.closeOut, s.status.eof, .inputChanged, rfl, by simp, fin q w (.inr (.inr hr))⟩

theorem encodeCounted_next {s t : State} {r : OutPort} {m : List Bool} (hout : r.reopen.Appends m s.out)
    (hw : s.inp.Wf) (hi : s.inp.InRange) (ht : s.tree = Tree.empty ∧ s.codes = Codes.empty)
    (hn : s.length ≠ 0#64 → symbolCount s.freq ≠ 0) (h : encodeCounted s = .next t) :
    ∃ q o u c eof e, t = { s with inp := q, out := o, tree := u, codes := c
                                  status := { s.status with eof := eof } }.complete e ∧
      e ≠ .truncatedArchive ∧ s.inp.SameStream q ∧ q.Wf ∧ q.InRange ∧ o.Finished ∧
      ((u = Tree.empty ∧ c = Codes.empty) ∨ ∃ sh, u.Is sh ∧ c.valid = true ∧ c.Hold sh) := by
  unfold encodeCounted at h
  by_cases h0 : s.length = 0#64
  · rw [if_pos h0] at h
    cases h
    refine ⟨s.inp, (s.out.writeInt64 s.length).closeOut, s.tree, s.codes, s.status.eof, .ok, rfl, by simp, .refl _, hw, hi,
      (hout.trans (s.out.writeInt64_appends s.length)).finished, .inl ht⟩
  · rw [if_neg h0] at h
    simp only at h
    split at h
    · cases h
    · next c hc =>
      obtain ⟨q, o, eof, e, e1, e2, e3, e4, e4i, e5⟩ :=
        encodeBody_next (s := { s.build with codes := c, out := s.out.writeInt64 s.length })
          (hout.trans (s.out.writeInt64_appends s.length)) h
      refine ⟨q, o, buildTree s.freq, c, eof, e, e1, e2, e3, e4, e4i, e5, ?_⟩
      obtain ⟨sh, hs, -⟩ := (buildTree_spec s.freq).2 (hn h0)
      obtain ⟨c', hc', hv, hh⟩ := hs.codesOf
      have : c' = c := Option.some.inj (hc'.symm.trans hc)
      subst this
      exact .inr ⟨sh, hs, hv, hh⟩

theorem symbolCount_pos {f : Vector Dword 256} {b : Byte} (h : freqAt f b ≠ 0#64) : symbolCount f ≠ 0 := by
  intro h0
  have hm : b ∈ allBytes.filter fun b => freqAt f b ≠ 0#64 := List.mem_filter.mpr ⟨mem_allBytes b, by simpa using h⟩
  rw [List.eq_nil_of_length_eq_zero h0] at hm
  simp at hm

/-- R126: the counting pass of an input that is not empty finds a byte value. -/
theorem countPass_symbols {p : InPort} (h : (countPass p).tooLong = false) (hn : (countPass p).length ≠ 0#64) :
    symbolCount (countPass p).freq ≠ 0 := by
  by_cases hl : p.data.length < 2 ^ 63
  · obtain ⟨-, -, h3, h4⟩ := countPass_short hl
    cases hd : p.data with
    | nil => rw [h3, hd] at hn; simp at hn
    | cons b l =>
      refine symbolCount_pos (b := b) ?_
      rw [h4, hd]
      intro e
      have h5 := congrArg BitVec.toNat e
      have h6 := List.count_le_length (a := b) (l := b :: l)
      have h7 : 0 < (b :: l).count b := List.count_pos_iff.mpr (by simp)
      rw [hd] at hl
      simp only [BitVec.toNat_ofNat] at h5
      omega
  · rw [(countPass_long (Nat.not_lt.mp hl)).2.1] at h
    cases h

theorem execEncode_next {s t : State} (h : execEncode s = .next t) :
    ∃ q o f n u c eof e, t = { s with inp := q, out := o, freq := f, length := n, tree := u, codes := c
                                      status := { s.status with eof := eof } }.complete e ∧
      e ≠ .truncatedArchive ∧ s.inp.SameStream q ∧ q.Wf ∧ q.InRange ∧ o.Finished ∧
      ((u = Tree.empty ∧ c = Codes.empty) ∨ ∃ sh, u.Is sh ∧ c.valid = true ∧ c.Hold sh) := by
  have hre : s.out.reopen.Appends [] s.out.reopen := .refl _
  unfold execEncode at h
  simp only at h
  split at h
  · have hp := countPass_port s.inp.seek0
    have hw := countPass_wf s.inp.seek0
    have hi := countPass_inRange s.inp.seek0
    by_cases hl : (countPass s.openStreams.invalidateTree.inp).tooLong = true
    · rw [if_pos hl] at h
      cases h
      exact ⟨_, s.out.reopen.closeOut, _, _, Tree.empty, Codes.empty, s.status.eof, .badLength, rfl, by simp, hp.1, hw, hi,
        hre.finished, .inl ⟨rfl, rfl⟩⟩
    · rw [if_neg hl] at h
      obtain ⟨q, o, u, c, eof, e, e1, e2, e3, e4, e5⟩ :=
        encodeCounted_next (r := s.out) (m := []) hre hw hi ⟨rfl, rfl⟩
          (fun hn => countPass_symbols (by simpa using hl) hn) h
      exact ⟨q, o, _, _, u, c, eof, e, e1, e2, hp.1.trans e3, e4, e5⟩
  · cases h
    exact ⟨s.inp.seek0, s.out.reopen.closeOut, s.freq, s.length, Tree.empty, Codes.empty, s.status.eof, .unseekableInput,
      rfl, by simp, ⟨rfl, rfl⟩, InPort.seek0_wf _, InPort.seek0_inRange _, hre.finished,
      .inl ⟨rfl, rfl⟩⟩

theorem decodeBody_next {s t : State} {r : OutPort} {m : List Bool} (hout : r.reopen.Appends m s.out)
    (hw : s.inp.Wf) (hi : s.inp.InRange) (ht : s.codes = Codes.empty) (h : decodeBody s = .next t) :
    ∃ q o u eof e, t = { s with inp := q, out := o, tree := u, codes := Codes.empty
                                status := { s.status with eof := eof } }.complete e ∧
      (e = .truncatedArchive → eof = true) ∧ s.inp.SameStream q ∧ q.Wf ∧ q.InRange ∧ o.Finished ∧
      ((u = Tree.empty ∧ e ≠ .ok) ∨ ∃ sh, u.Is sh) ∧
      (e = .ok → ∃ l : List Byte, l.length = s.length.toNat ∧ o = (l.foldl OutPort.writeByte s.out).closeOut) := by
  unfold decodeBody at h
  split at h
  · cases h
  · next e q hr =>
    obtain ⟨k, he⟩ := (readTree_keeps _).2 _ _ hr
    obtain ⟨eof, e1, e2⟩ := raiseReading_next h he
    refine ⟨q, s.out.closeOut, Tree.empty, eof, e, e1, ?_, k.1, k.2 hw, k.inRange hi, hout.finished, .inl ⟨rfl, ?_⟩, ?_⟩
    · rcases e2 with ⟨-, h2⟩ | ⟨h1, -⟩
      · exact fun _ => h2
      · exact fun h3 => absurd (h1.symm.trans h3) (by simp)
    · rcases he with rfl | rfl <;> simp
    · rcases he with rfl | rfl <;> simp
  · next r' q u hr =>
    obtain ⟨sh, hs, k, -⟩ := readTree_node hr
    simp only at h
    split at h
    · next q' w hd =>
      obtain ⟨k2, l, hl, rfl⟩ := (decodeSyms_port _ _ _ _).1 _ _ hd
      cases h
      have ha := hout.trans (OutPort.writeBytes_appends l s.out)
      exact ⟨q', _, u.withRoot r', s.status.eof, .ok, by rw [← ht]; rfl, by simp, k.1.trans k2.1, k2.2 (k.2 hw),
        k2.inRange (k.inRange hi), ha.finished, .inr ⟨sh, hs⟩, fun _ => ⟨l, hl, rfl⟩⟩
    · next e q' w hd =>
      obtain ⟨k2, he, l, rfl⟩ := (decodeSyms_port _ _ _ _).2 _ _ _ hd
      obtain ⟨eof, e1, e2⟩ := raiseReading_next h he
      have ha := hout.trans (OutPort.writeBytes_appends l s.out)
      refine ⟨q', _, u.withRoot r', eof, e, by rw [← ht]; exact e1, ?_, k.1.trans k2.1, k2.2 (k.2 hw),
        k2.inRange (k.inRange hi), ha.finished,
        .inr ⟨sh, hs⟩, ?_⟩
      · rcases e2 with ⟨-, h2⟩ | ⟨h1, -⟩
        · exact fun _ => h2
        · exact fun h3 => absurd (h1.symm.trans h3) (by simp)
      · rcases he with rfl | rfl <;> simp
    · cases h

theorem execDecode_next {s t : State} (h : execDecode s = .next t) :
    ∃ q o n u eof e, t = { s with inp := q, out := o, length := n, tree := u, codes := Codes.empty
                                  status := { s.status with eof := eof } }.complete e ∧
      (e = .truncatedArchive → eof = true) ∧ s.inp.SameStream q ∧ q.Wf ∧ q.InRange ∧ o.Finished ∧
      (u = Tree.empty ∨ ∃ sh, u.Is sh) ∧ (e = .ok → o.data.length = n.toNat) := by
  have hre : s.out.reopen.Appends [] s.out.reopen := .refl _
  have hk := InPort.readInt64_keeps s.inp.seek0
  unfold execDecode at h
  simp only at h
  split at h
  · next p hr =>
    have hr' : s.inp.seek0.readInt64 = (none, p) := hr
    rw [hr'] at hk
    cases h
    exact ⟨p, s.out.reopen.closeOut, s.length, Tree.empty, true, .truncatedArchive, rfl, by simp, hk.1,
      hk.2 (InPort.seek0_wf _), hk.inRange (InPort.seek0_inRange _), hre.finished, .inl rfl, by simp⟩
  · next v p hr =>
    have hr' : s.inp.seek0.readInt64 = (some v, p) := hr
    rw [hr'] at hk
    have hw := hk.2 (InPort.seek0_wf _)
    have hi := hk.inRange (InPort.seek0_inRange _)
    unfold decodeLength at h
    simp only at h
    split_ifs at h with h1 h2
    · cases h
      exact ⟨p, s.out.reopen.closeOut, v, Tree.empty, s.status.eof, .badLength, rfl, by simp, hk.1, hw, hi, hre.finished,
        .inl rfl, by simp⟩
    · cases h
      exact ⟨p, s.out.reopen.closeOut, v, Tree.empty, s.status.eof, .ok, rfl, by simp, hk.1, hw, hi, hre.finished, .inl rfl,
        fun _ => by rw [h2]; rfl⟩
    · obtain ⟨q, o, u, eof, e, e1, e2, e3, e4, ei, e5, e6, e7⟩ := decodeBody_next (r := s.out) (m := []) hre hw hi rfl h
      refine ⟨q, o, v, u, eof, e, e1, e2, hk.1.trans e3, e4, ei, e5, e6.imp (·.1) id, fun he => ?_⟩
      obtain ⟨l, hl, rfl⟩ := e7 he
      obtain ⟨a1, a2, -, -⟩ := OutPort.writeBytes_aligned l (o := s.out.reopen) rfl
      rw [← hl]
      show (OutPort.flush _).data.length = _
      have : (l.foldl OutPort.writeByte s.out.reopen).flush = l.foldl OutPort.writeByte s.out.reopen := if_pos a2
      exact (congrArg (fun o : OutPort => o.data.length) this).trans (by rw [a1]; simp)

end Sys2Proof.Machine
end

