-- ==== Sys2Proof/Laws/PerInstr.lean ====
section
/-! SUPPORT. Statements made for each command on its own, over its syntax (LAWS.json). -/

namespace Sys2Proof.Laws.OpcodeField

/-- R79: the opcode of each command. -/
def opcode : Instr → Byte
  | .nop => 0x00#8
  | .encode => 0x01#8
  | .decode => 0x02#8
  | .clear => 0x03#8
  | .openStreams => 0x08#8
  | .seekIn => 0x09#8
  | .wrBit _ => 0x10#8
  | .wrByte _ => 0x11#8
  | .wrI64 => 0x12#8
  | .wrClose => 0x13#8
  | .rdBit => 0x18#8
  | .rdByte => 0x19#8
  | .rdI64 => 0x1A#8
  | .count => 0x20#8
  | .build => 0x21#8
  | .serTree => 0x28#8
  | .desTree => 0x29#8
  | .codes => 0x30#8
  | .encSym _ => 0x31#8
  | .decSym => 0x32#8
  | .peekFreq _ => 0x38#8
  | .peekNode _ => 0x39#8
  | .peekCode _ _ => 0x3A#8

/-- R76, R79: bits 7:0 of the command's word are its opcode, and its RSVD field is 0. -/
def Statement (i : Instr) : Prop := opcField (encode i) = opcode i ∧ rsvdField (encode i) = 0#13

theorem nop : Statement .nop := ⟨opcField_assemble _ _ _, rsvdField_assemble _ _ _⟩
theorem encode : Statement .encode := ⟨opcField_assemble _ _ _, rsvdField_assemble _ _ _⟩
theorem decode : Statement .decode := ⟨opcField_assemble _ _ _, rsvdField_assemble _ _ _⟩
theorem clear : Statement .clear := ⟨opcField_assemble _ _ _, rsvdField_assemble _ _ _⟩
theorem openStreams : Statement .openStreams := ⟨opcField_assemble _ _ _, rsvdField_assemble _ _ _⟩
theorem seekIn : Statement .seekIn := ⟨opcField_assemble _ _ _, rsvdField_assemble _ _ _⟩
theorem wrBit (bit : Bool) : Statement (.wrBit bit) := ⟨opcField_assemble _ _ _, rsvdField_assemble _ _ _⟩
theorem wrByte (b : Byte) : Statement (.wrByte b) := ⟨opcField_assemble _ _ _, rsvdField_assemble _ _ _⟩
theorem wrI64 : Statement .wrI64 := ⟨opcField_assemble _ _ _, rsvdField_assemble _ _ _⟩
theorem wrClose : Statement .wrClose := ⟨opcField_assemble _ _ _, rsvdField_assemble _ _ _⟩
theorem rdBit : Statement .rdBit := ⟨opcField_assemble _ _ _, rsvdField_assemble _ _ _⟩
theorem rdByte : Statement .rdByte := ⟨opcField_assemble _ _ _, rsvdField_assemble _ _ _⟩
theorem rdI64 : Statement .rdI64 := ⟨opcField_assemble _ _ _, rsvdField_assemble _ _ _⟩
theorem count : Statement .count := ⟨opcField_assemble _ _ _, rsvdField_assemble _ _ _⟩
theorem build : Statement .build := ⟨opcField_assemble _ _ _, rsvdField_assemble _ _ _⟩
theorem serTree : Statement .serTree := ⟨opcField_assemble _ _ _, rsvdField_assemble _ _ _⟩
theorem desTree : Statement .desTree := ⟨opcField_assemble _ _ _, rsvdField_assemble _ _ _⟩
theorem codes : Statement .codes := ⟨opcField_assemble _ _ _, rsvdField_assemble _ _ _⟩
theorem encSym (b : Byte) : Statement (.encSym b) := ⟨opcField_assemble _ _ _, rsvdField_assemble _ _ _⟩
theorem decSym : Statement .decSym := ⟨opcField_assemble _ _ _, rsvdField_assemble _ _ _⟩
theorem peekFreq (b : Byte) : Statement (.peekFreq b) := ⟨opcField_assemble _ _ _, rsvdField_assemble _ _ _⟩
theorem peekNode (i : NodeIdx) : Statement (.peekNode i) := ⟨opcField_assemble _ _ _, rsvdField_assemble _ _ _⟩
theorem peekCode (b : Byte) (w : BitVec 2) : Statement (.peekCode b w) := ⟨opcField_assemble _ _ _, rsvdField_assemble _ _ _⟩

end Sys2Proof.Laws.OpcodeField
end

