-- ==== Sys2Proof/Laws/TreeSection.lean ====
section
/-! SUPPORT. When the reading of a tree fails, and with which error (spec/42_tree_codec.md R114): the bits as marks, the
marks of a shape, and that bits are a tree, a tree cut short or a corrupt tree, and only one of these. -/

namespace Sys2Proof.Machine

@[simp] theorem leafMarks_append (l m : List Mark) : leafMarks (l ++ m) = leafMarks l ++ leafMarks m := by
  induction l with
  | nil => rfl
  | cons a l ih => cases a <;> simp [leafMarks, ih]

@[simp] theorem innerMarks_append (l m : List Mark) : innerMarks (l ++ m) = innerMarks l + innerMarks m := by
  induction l with
  | nil => simp [innerMarks]
  | cons a l ih => cases a <;> simp [innerMarks, ih]; omega

/-! Marks are read from their bits in one way only. -/

theorem Mark.bits_cancel {a b : Mark} {x y : List Bool} (h : a.bits ++ x = b.bits ++ y) : a = b ∧ x = y := by
  cases a with
  | inner => cases b <;> simp_all [Mark.bits]
  | leaf v =>
    cases b with
    | inner => simp [Mark.bits] at h
    | leaf w =>
      simp only [Mark.bits, List.cons_append, List.cons.injEq, true_and] at h
      obtain ⟨h1, h2⟩ := List.append_inj h (by simp)
      exact ⟨by rw [bitsOf_injective h1], h2⟩

/-- Bits that are too few for a mark (R114). -/
def PartMark (r : List Bool) : Prop := r = [] ∨ ∃ v, r = false :: v ∧ v.length < 8

theorem PartMark.ne {r : List Bool} (h : PartMark r) (m : Mark) (y : List Bool) : r ≠ m.bits ++ y := by
  rintro rfl
  cases m with
  | inner => rcases h with h | ⟨v, h, -⟩ <;> simp [Mark.bits] at h
  | leaf b =>
    rcases h with h | ⟨v, h, hv⟩
    · simp [Mark.bits] at h
    · simp only [Mark.bits, List.cons_append, List.cons.injEq, true_and] at h
      subst h
      simp at hv

/-- Two readings of the same bits: one is the start of the other. -/
theorem marks_compare {l m : List Mark} {x y : List Bool} (h : l.flatMap Mark.bits ++ x = m.flatMap Mark.bits ++ y) :
    (∃ k, m = l ++ k ∧ x = k.flatMap Mark.bits ++ y) ∨ ∃ k, l = m ++ k ∧ y = k.flatMap Mark.bits ++ x := by
  induction l generalizing m with
  | nil => exact .inl ⟨m, rfl, h⟩
  | cons a l ih =>
    cases m with
    | nil => exact .inr ⟨a :: l, rfl, h.symm⟩
    | cons b m =>
      simp only [List.flatMap_cons, List.append_assoc] at h
      obtain ⟨rfl, h'⟩ := Mark.bits_cancel h
      rcases ih h' with ⟨k, rfl, e⟩ | ⟨k, rfl, e⟩
      · exact .inl ⟨k, rfl, e⟩
      · exact .inr ⟨k, rfl, e⟩

/-- A reading that ends where no mark can be read is the longest one. -/
theorem PartMark.longest {l m : List Mark} {r y : List Bool} (hr : PartMark r)
    (h : l.flatMap Mark.bits ++ r = m.flatMap Mark.bits ++ y) : m <+: l := by
  rcases marks_compare h with ⟨k, rfl, e⟩ | ⟨k, rfl, -⟩
  · cases k with
    | nil => simp
    | cons a k => exact absurd (e.trans (by rw [List.flatMap_cons, List.append_assoc])) (hr.ne a _)
  · exact List.prefix_append m k

/-! The marks of a shape. -/

/-- R113: the marks of a tree section. -/
def Shape.marks : Shape → List Mark
  | .leaf b => [.leaf b]
  | .node _ l r => .inner :: (l.marks ++ r.marks)

theorem Shape.preorder_eq_marks (sh : Shape) : sh.preorder = sh.marks.flatMap Mark.bits := by
  induction sh with
  | leaf b => simp [Shape.preorder, Shape.marks, Mark.bits]
  | node i l r hl hr => simp [Shape.preorder, Shape.marks, Mark.bits, hl, hr]

@[simp] theorem Shape.leafMarks_marks (sh : Shape) : leafMarks sh.marks = sh.leaves := by
  induction sh with
  | leaf b => rfl
  | node i l r hl hr => simp [Shape.marks, leafMarks, Shape.leaves, hl, hr]

@[simp] theorem Shape.innerMarks_marks (sh : Shape) : innerMarks sh.marks = sh.internals.length := by
  induction sh with
  | leaf b => rfl
  | node i l r hl hr => simp [Shape.marks, innerMarks, Shape.internals, hl, hr]

/-- Marks of which every start needs more marks to be a tree. -/
def Needs (l : List Mark) : Prop := ∀ m, m <+: l → (leafMarks m).length ≤ innerMarks m

theorem Unfinished.needs' {l : List Mark} (h : Unfinished l) : Needs l :=
  fun m hm => h.needs m ((List.mem_inits _ _).mpr hm)

theorem Needs.nil : Needs [] := fun m hm => by rw [List.prefix_nil.mp hm]; exact Nat.le_refl _

/-- A start of marks put one after the other. -/
theorem prefix_append_cases {l r m : List Mark} (h : m <+: l ++ r) : m <+: l ∨ ∃ k, m = l ++ k ∧ k <+: r := by
  obtain ⟨z, hz⟩ := h
  rcases List.append_eq_append_iff.mp hz with ⟨k, h1, h2⟩ | ⟨k, h1, h2⟩
  · exact .inl ⟨k, h1.symm⟩
  · exact .inr ⟨k, h1, ⟨z, h2.symm⟩⟩

theorem Shape.marks_start (sh : Shape) {m : List Mark} (h : m <+: sh.marks) :
    (leafMarks m).length ≤ innerMarks m + 1 := by
  induction sh generalizing m with
  | leaf b =>
    rcases List.prefix_cons_iff.mp h with rfl | ⟨k, rfl, hk⟩
    · simp [leafMarks]
    · rw [List.prefix_nil.mp hk]; simp [leafMarks]
  | node i l r hl hr =>
    rcases List.prefix_cons_iff.mp h with rfl | ⟨k, rfl, hk⟩
    · simp [leafMarks]
    · simp only [leafMarks, innerMarks]
      rcases prefix_append_cases hk with hk | ⟨k', rfl, hk'⟩
      · have := hl hk; omega
      · have h1 := hr hk'
        have h2 := l.length_leaves
        simp only [leafMarks_append, innerMarks_append, List.length_append, Shape.leafMarks_marks,
          Shape.innerMarks_marks]
        omega

theorem Needs.inner {l : List Mark} (h : Needs l) : Needs (.inner :: l) := by
  intro m hm
  rcases List.prefix_cons_iff.mp hm with rfl | ⟨k, rfl, hk⟩
  · exact Nat.zero_le _
  · have := h k hk
    simp only [leafMarks, innerMarks]; omega

theorem Needs.inner_shape {l : List Mark} (h : Needs l) (sh : Shape) : Needs (.inner :: (sh.marks ++ l)) := by
  intro m hm
  rcases List.prefix_cons_iff.mp hm with rfl | ⟨k, rfl, hk⟩
  · exact Nat.zero_le _
  · simp only [leafMarks, innerMarks]
    rcases prefix_append_cases hk with hk | ⟨k', rfl, hk'⟩
    · exact sh.marks_start hk
    · have h1 := h k' hk'
      have h2 := sh.length_leaves
      simp only [leafMarks_append, innerMarks_append, List.length_append, Shape.leafMarks_marks, Shape.innerMarks_marks]
      omega

theorem Needs.not_shape {l : List Mark} (h : Needs l) (sh : Shape) : ¬ sh.marks <+: l := fun hp => by
  have h1 := h _ hp
  have h2 := sh.length_leaves
  simp only [Shape.leafMarks_marks, Shape.innerMarks_marks] at h1
  omega

/-! A tree, a tree cut short, a corrupt tree: only one of these. -/

/-- Marks that DES_TREE stops at (R114): the last one is a 256th internal node or a repeated leaf. -/
def BadMark (l : List Mark) (m : Mark) : Prop := (m = .inner ∧ innerMarks l = 255) ∨ ∃ b ∈ leafMarks l, m = .leaf b

theorem BadMark.stops {l k : List Mark} {m : Mark} (h : BadMark l m) (hp : l ++ [m] <+: k)
    (hd : (leafMarks k).Nodup) (hr : innerMarks k ≤ 255) : False := by
  obtain ⟨z, rfl⟩ := hp
  rcases h with ⟨rfl, h⟩ | ⟨b, hb, rfl⟩
  · simp [innerMarks] at hr; omega
  · simp only [leafMarks_append, leafMarks, List.append_assoc] at hd
    exact (List.nodup_append.mp hd).2.2 b hb b (by simp) rfl

theorem TreeCut.not_corrupt {x rest : List Bool} (h : TreeCut x) : ¬ TreeCorrupt x rest := by
  rintro ⟨l, m, hl, hx, hb⟩
  obtain ⟨k, r, hk, rfl, hr⟩ := h
  have hp : l ++ [m] <+: k :=
    PartMark.longest (r := r) (y := rest) hr (by rw [hx]; simp)
  exact BadMark.stops hb hp hk.distinct hk.room

theorem TreeCut.not_tree {x z : List Bool} (h : TreeCut x) (sh : Shape) : x ≠ sh.preorder ++ z := by
  rintro hx
  obtain ⟨k, r, hk, rfl, hr⟩ := h
  rw [sh.preorder_eq_marks] at hx
  exact hk.needs'.not_shape sh (PartMark.longest hr hx)

theorem TreeCorrupt.not_tree {x z rest : List Bool} (h : TreeCorrupt x rest) {sh : Shape} (hd : sh.leaves.Nodup) :
    x ≠ sh.preorder ++ z := by
  rintro hx
  obtain ⟨l, m, hl, rfl, hb⟩ := h
  rw [sh.preorder_eq_marks] at hx
  have h1 := length_leaves_le hd
  have h2 := sh.length_leaves
  have stop : ¬ l ++ [m] <+: sh.marks := fun hp =>
    BadMark.stops hb hp (by simpa using hd) (by rw [Shape.innerMarks_marks]; omega)
  rcases marks_compare (l := l ++ [m]) (m := sh.marks) (x := rest) (y := z) (by simpa using hx) with
    ⟨k, e, -⟩ | ⟨k, e, -⟩
  · exact stop ⟨k, e.symm⟩
  · rcases prefix_append_cases (l := l) (r := [m]) ⟨k, e.symm⟩ with hp | ⟨k', e', hp⟩
    · exact hl.needs'.not_shape sh hp
    · rcases List.prefix_cons_iff.mp hp with rfl | ⟨k2, rfl, hk2⟩
      · exact hl.needs'.not_shape sh (by rw [e', List.append_nil])
      · rw [List.prefix_nil.mp hk2] at e'
        exact stop (by rw [e'])

theorem TreeCorrupt.rest_unique {x r s : List Bool} (h : TreeCorrupt x r) (k : TreeCorrupt x s) : r = s := by
  obtain ⟨l, m, hl, rfl, hb⟩ := h
  obtain ⟨l', m', hl', hx, hb'⟩ := k
  have cut : ∀ {a b : List Mark} {c d : Mark} {e : Mark} {k : List Mark}, b ++ [d] = a ++ [c] ++ (e :: k) → a ++ [c] <+: b := by
    intro a b c d e k h
    have := congrArg List.dropLast h
    rw [List.dropLast_concat, List.dropLast_append_of_ne_nil (by simp)] at this
    rw [this]; exact List.prefix_append _ _
  rcases marks_compare (l := l ++ [m]) (m := l' ++ [m']) (x := r) (y := s) (by simpa using hx) with
    ⟨k, e, e2⟩ | ⟨k, e, e2⟩
  · cases k with
    | nil => simpa using e2
    | cons a k => exact (BadMark.stops hb (cut e) hl'.distinct hl'.room).elim
  · cases k with
    | nil => simpa using e2.symm
    | cons a k => exact (BadMark.stops hb' (cut e) hl.distinct hl.room).elim

/-! What a reading that fails has met. -/

/-- R114: the marks read before the failure, the store being `t` at the start. -/
structure UnfinishedIn (t : Tree) (l : List Mark) : Prop where
  needs : Needs l
  distinct : (leafMarks l).Nodup
  fresh : ∀ b ∈ leafMarks l, (t.nodeAt (leafIdx b)).valid = false
  room : t.nint.toNat + innerMarks l ≤ 255

/-- R114: the failure itself. -/
def FailsAt (t : Tree) (l : List Mark) (x : List Bool) (e : ErrCode) (rest : List Bool) : Prop :=
  (e = .truncatedArchive ∧ rest = [] ∧ PartMark x) ∨
    (e = .corruptTree ∧ ∃ m : Mark, x = m.bits ++ rest ∧ ((m = .inner ∧ t.nint.toNat + innerMarks l = 255) ∨
      ∃ b, m = .leaf b ∧ (b ∈ leafMarks l ∨ (t.nodeAt (leafIdx b)).valid = true)))

theorem des_stop_marks {d : Nat} {par : Option NodeIdx} {p q : InPort} {t : Tree} {e : ErrCode} (ht : t.Partial)
    (hs : p.Short) (hw : p.Wf) (h : des d par p t = .stop e q) :
    ∃ l x, UnfinishedIn t l ∧ p.bits = l.flatMap Mark.bits ++ x ∧ FailsAt t l x e q.bits := by
  have start : t.nint.toNat ≤ 255 → UnfinishedIn t [] := fun h =>
    ⟨.nil, List.nodup_nil, by simp [leafMarks], by simpa [innerMarks] using h⟩
  have h255 : t.nint.toNat ≤ 255 := by have := t.nint.isLt; omega
  induction d generalizing par p q t e with
  | zero => simp [des] at h
  | succ d ih =>
    rw [des] at h
    cases hp : p.bits with
    | nil =>
      rw [InPort.readBit_nil hp] at h
      cases h
      exact ⟨[], [], start h255, rfl, .inl ⟨rfl, hp, .inl rfl⟩⟩
    | cons bit x =>
      obtain ⟨p1, e1, b1, s1, w1⟩ := InPort.readBit_cons hs hp
      have hs1 := s1.short hs
      rw [e1] at h
      cases bit with
      | true =>
        by_cases hn : t.nint = 255#8
        · simp only [hn, if_true] at h
          cases h
          exact ⟨[], true :: x, start h255, rfl, .inr ⟨rfl, .inner, by rw [b1]; rfl, .inl ⟨rfl, by simp [hn, innerMarks]⟩⟩⟩
        · have hn1 := nint_succ hn
          have hlt := (t.nint + 1#8).isLt
          simp only [hn, if_false] at h
          cases hL : des d (some (internalIdx t.nint)) p1 (t.openInternal par) with
          | overflow => simp [hL] at h
          | stop e' q' =>
            simp only [hL] at h
            cases h
            obtain ⟨l, y, hu, hb, hf⟩ := ih (ht.openInternal hn par) hs1 w1 hL
              (fun h => ⟨.nil, List.nodup_nil, by simp [leafMarks], by simpa [innerMarks] using h⟩)
              (by rw [Tree.openInternal_nint]; omega)
            have hopen : ∀ b, ((t.openInternal par).nodeAt (leafIdx b)).valid = (t.nodeAt (leafIdx b)).valid := fun b => by
              rw [Tree.nodeAt_openInternal hn, if_neg]
              intro hh; have h1 := leafIdx_lt b; rw [hh, toNat_internalIdx] at h1; omega
            have hroom := hu.room
            rw [Tree.openInternal_nint, hn1] at hroom
            refine ⟨.inner :: l, y, ⟨hu.needs.inner, hu.distinct, fun b hb => by rw [← hopen]; exact hu.fresh b hb, ?_⟩, ?_, ?_⟩
            · simp only [innerMarks]; omega
            · simp [Mark.bits, ← b1, hb]
            · rcases hf with hf | ⟨h1, m, h2, h3⟩
              · exact .inl hf
              · refine .inr ⟨h1, m, h2, h3.imp (fun h => ⟨h.1, ?_⟩) (fun ⟨b, h4, h5⟩ => ⟨b, h4, by rw [← hopen]; exact h5⟩)⟩
                have := h.2
                rw [Tree.openInternal_nint, hn1] at this
                simp only [innerMarks]; omega
          | node ll p2 u2 =>
            simp only [hL] at h
            obtain ⟨sh, rfl, g, k, hbits⟩ := des_node (ht.openInternal hn par) hL
            have hge : 256 ≤ (internalIdx t.nint).toNat := by rw [toNat_internalIdx]; omega
            have hval : (u2.nodeAt (internalIdx t.nint)).valid = true := by
              refine (g.inOrder.allocated _ hge).mpr ?_
              rw [g.nint, Tree.openInternal_nint, hn1, toNat_internalIdx]; omega
            have hP : (u2.setLeft (internalIdx t.nint) sh.index).Partial := g.inOrder.setNode hval hval
            cases hR : des d (some (internalIdx t.nint)) p2 (u2.setLeft (internalIdx t.nint) sh.index) with
            | overflow => simp [hR] at h
            | node a b c => simp [hR] at h
            | stop e' q' =>
              simp only [hR] at h
              cases h
              obtain ⟨l, y, hu, hb, hf⟩ := ih hP (k.1.short hs1) (k.2 w1) hR
                (fun h => ⟨.nil, List.nodup_nil, by simp [leafMarks], by simpa [innerMarks] using h⟩)
                (by have := (u2.setLeft (internalIdx t.nint) sh.index).nint.isLt; omega)
              have hnint : u2.nint.toNat = t.nint.toNat + 1 + sh.internals.length := by
                rw [g.nint, Tree.openInternal_nint, hn1]
              have hleaf : ∀ b, leafIdx b ≠ internalIdx t.nint := fun b hh => by
                have h1 := leafIdx_lt b; rw [hh] at h1; omega
              have hset : ∀ b, ((u2.setLeft (internalIdx t.nint) sh.index).nodeAt (leafIdx b)).valid =
                  (u2.nodeAt (leafIdx b)).valid := fun b => by
                rw [Tree.setLeft, Tree.nodeAt_setNode_ne (hleaf b)]
              have hslot : ∀ b, leafIdx b ∈ sh.slots ↔ b ∈ sh.leaves := fun b => by
                refine ⟨fun hm => ?_, fun hm => List.mem_append_left _ (List.mem_map_of_mem hm)⟩
                rcases List.mem_append.mp hm with hm | hm
                · obtain ⟨c, hc, e⟩ := List.mem_map.mp hm
                  rw [← leafIdx_injective e]; exact hc
                · have h1 := (g.holds.internal_range hm).1
                  have h2 := leafIdx_lt b
                  omega
              have hold : ∀ b, b ∉ sh.leaves → (u2.nodeAt (leafIdx b)).valid = (t.nodeAt (leafIdx b)).valid := fun b hb => by
                rw [g.frame _ (fun hm => hb ((hslot b).mp hm)), Tree.nodeAt_openInternal hn, if_neg (hleaf b)]
              have hnew : ∀ b ∈ sh.leaves, (u2.nodeAt (leafIdx b)).valid = true := fun b hb =>
                g.holds.valid ((hslot b).mpr hb)
              have hfr : ∀ b ∈ sh.leaves, (t.nodeAt (leafIdx b)).valid = false := fun b hb => by
                have := g.fresh _ ((hslot b).mpr hb)
                rwa [Tree.nodeAt_openInternal hn, if_neg (hleaf b)] at this
              have hdis : ∀ b ∈ leafMarks l, b ∉ sh.leaves := fun b hb hm => by
                have := hu.fresh b hb
                rw [hset, hnew b hm] at this; cases this
              have hroom := hu.room
              rw [Tree.setLeft_nint, hnint] at hroom
              refine ⟨.inner :: (sh.marks ++ l), y, ⟨hu.needs.inner_shape sh, ?_, ?_, ?_⟩, ?_, ?_⟩
              · simp only [leafMarks, leafMarks_append, Shape.leafMarks_marks]
                exact List.nodup_append.mpr ⟨(Shape.nodup_parts g.distinct).1, hu.distinct,
                  fun a ha b hb e => hdis b hb (e ▸ ha)⟩
              · intro b hb
                simp only [leafMarks, leafMarks_append, Shape.leafMarks_marks, List.mem_append] at hb
                rcases hb with hb | hb
                · exact hfr b hb
                · rw [← hold b (hdis b hb), ← hset]; exact hu.fresh b hb
              · simp only [innerMarks, innerMarks_append, Shape.innerMarks_marks]; omega
              · rw [← b1, hbits hs1 w1, hb, sh.preorder_eq_marks]
                simp [Mark.bits]
              · rcases hf with hf | ⟨h1, m, h2, h3⟩
                · exact .inl hf
                · refine .inr ⟨h1, m, h2, h3.imp (fun h => ⟨h.1, ?_⟩) (fun ⟨b, h4, h5⟩ => ⟨b, h4, ?_⟩)⟩
                  · have := h.2
                    rw [Tree.setLeft_nint, hnint] at this
                    simp only [innerMarks, innerMarks_append, Shape.innerMarks_marks]; omega
                  · simp only [leafMarks, leafMarks_append, Shape.leafMarks_marks, List.mem_append]
                    by_cases hm : b ∈ sh.leaves
                    · exact .inl (.inl hm)
                    · rcases h5 with h5 | h5
                      · exact .inl (.inr h5)
                      · rw [hset, hold b hm] at h5; exact .inr h5
      | false =>
        by_cases h8 : 8 ≤ p1.bits.length
        · obtain ⟨p2, e2, b2, -⟩ := InPort.readByte_some hs1 w1 h8
          simp only [e2] at h
          split at h
          · next hv =>
            cases h
            refine ⟨[], false :: x, start h255, rfl, .inr ⟨rfl, .leaf _, ?_, .inr ⟨_, rfl, .inr hv⟩⟩⟩
            simp only [Mark.bits]
            rw [bitsOf_ofBits_of_length (by simp; omega), b2, List.cons_append, List.take_append_drop, b1]
          · cases h
        · obtain ⟨p2, e2, b2, -⟩ := InPort.readByte_none hs1 w1 (Nat.lt_of_not_le h8)
          simp only [e2] at h
          cases h
          exact ⟨[], false :: x, start h255, rfl, .inl ⟨rfl, b2, .inr ⟨x, rfl, by rw [← b1]; omega⟩⟩⟩

/-- R114: how the reading of a tree fails. -/
theorem readTree_stop {p q : InPort} {e : ErrCode} (hs : p.Short) (hw : p.Wf) (h : readTree p = .stop e q) :
    (e = .truncatedArchive ∧ TreeCut p.bits ∧ q.bits = []) ∨ (e = .corruptTree ∧ TreeCorrupt p.bits q.bits) := by
  obtain ⟨l, x, hu, hb, hf⟩ := des_stop_marks Tree.empty_partial hs hw h
  have h0 : Tree.empty.nint.toNat = 0 := rfl
  have hun : Unfinished l :=
    ⟨fun m hm => hu.needs m ((List.mem_inits _ _).mp hm), hu.distinct, by have := hu.room; omega⟩
  rcases hf with ⟨h1, h2, h3⟩ | ⟨h1, m, h2, h3⟩
  · exact .inl ⟨h1, ⟨l, x, hun, hb, h3⟩, h2⟩
  · refine .inr ⟨h1, l, m, hun, by rw [hb, h2, List.append_assoc], h3.imp (fun h => ⟨h.1, by have := h.2; omega⟩) ?_⟩
    rintro ⟨b, h4, h5 | h5⟩
    · exact ⟨b, h5, h4⟩
    · simp [Node.empty] at h5

theorem readTree_cut {p : InPort} (hs : p.Short) (hw : p.Wf) (h : TreeCut p.bits) :
    ∃ q, readTree p = .stop .truncatedArchive q ∧ q.bits = [] ∧ p.Keeps q := by
  cases hr : readTree p with
  | overflow => exact absurd hr (readTree_fits p)
  | node r q u =>
    obtain ⟨sh, -, -, hb⟩ := readTree_node hr
    exact absurd (hb hs hw) (h.not_tree sh)
  | stop e q =>
    rcases readTree_stop hs hw hr with ⟨rfl, -, hq⟩ | ⟨-, hc⟩
    · exact ⟨q, rfl, hq, (des_stop hr).2⟩
    · exact absurd hc h.not_corrupt

theorem readTree_corrupt {p : InPort} {rest : List Bool} (hs : p.Short) (hw : p.Wf) (h : TreeCorrupt p.bits rest) :
    ∃ q, readTree p = .stop .corruptTree q ∧ q.bits = rest ∧ p.Keeps q := by
  cases hr : readTree p with
  | overflow => exact absurd hr (readTree_fits p)
  | node r q u =>
    obtain ⟨sh, hi, -, hb⟩ := readTree_node hr
    exact absurd (hb hs hw) (h.not_tree hi.leavesDistinct)
  | stop e q =>
    rcases readTree_stop hs hw hr with ⟨-, hc, -⟩ | ⟨rfl, hc⟩
    · exact absurd h hc.not_corrupt
    · exact ⟨q, rfl, hc.rest_unique h, (des_stop hr).2⟩

end Sys2Proof.Machine
end

