-- ==== Sys2Proof/Tests/Slice0.lean ====
section
/-! SUPPORT. Tests, each expected value taken from spec/95_test_vectors.md or from the rule it names, and for every
statement of Certificates/Slice0/Obligations.lean that has hypotheses a concrete state and operands that meet them. -/

namespace Sys2Proof.Tests

open Sys2Proof Sys2Proof.Machine

/-! Helpers. -/

/-- The state after reset with an input in the port. -/
def start (l : List Byte) (seek : Bool) : State :=
  { State.reset with inp := { State.reset.inp with data := l, seekable := seek } }

/-- What a check says of the next state; false where there is none. -/
def outcome (f : State → Bool) (r : Host.Outcome State Fault Refusal) : Bool :=
  match r with
  | .next t => f t
  | .fault _ => false
  | .refused _ => false

theorem of_outcome {f : State → Bool} {r : Host.Outcome State Fault Refusal} (h : outcome f r = true) :
    ∃ t, r = .next t ∧ f t = true := by
  cases r with
  | next t => exact ⟨t, rfl, h⟩
  | fault _ => cases h
  | refused _ => cases h

def leafNode (f : Dword) (p : Option NodeIdx) : Node :=
  { Node.empty with valid := true, freq := f, parent := p.getD 0#9, hasParent := p.isSome }

/-- The tree of 41 41 41 42 (vector V-T2). -/
def pairTree : Tree :=
  ((({ Tree.empty with root := 256#9, rootValid := true, nint := 1#8, nleaf := 2#9 }.setNode 256#9
    { Node.empty with valid := true, internal := true, freq := 4#64, left := 0x42#9, right := 0x41#9 }).setNode 0x42#9
      (leafNode 1#64 (some 256#9))).setNode 0x41#9 (leafNode 3#64 (some 256#9)))

def pairShape : Shape := .node 256#9 (.leaf 0x42#8) (.leaf 0x41#8)

/-- Its codes (vector V-N1). -/
def pairCodes : Codes :=
  { Codes.empty with
    len := (Codes.empty.len.set 0x41 1#8).set 0x42 1#8
    bits := Codes.empty.bits.set 0x41 1#256
    valid := true }

def pairState (l : List Byte) (seek : Bool) : State := { start l seek with tree := pairTree, codes := pairCodes }

/-- The tree of one leaf, 41 (vector V-C6). -/
def loneTree : Tree :=
  { Tree.empty with root := 0x41#9, rootValid := true, nleaf := 1#9 }.setNode 0x41#9 (leafNode 0#64 none)

def loneState (l : List Byte) : State := { start l false with tree := loneTree }

theorem nodeAt_pairTree (n : NodeIdx) :
    pairTree.nodeAt n =
      if n = 0x41#9 then leafNode 3#64 (some 256#9)
      else if n = 0x42#9 then leafNode 1#64 (some 256#9)
      else if n = 256#9 then
        { Node.empty with valid := true, internal := true, freq := 4#64, left := 0x42#9, right := 0x41#9 }
      else Node.empty := by
  simp only [pairTree, Tree.nodeAt_setNode]
  by_cases h : n = 0x41#9
  · simp [h]
  · by_cases h' : n = 0x42#9
    · simp [h']
    · by_cases h'' : n = 256#9
      · simp [h'']
      · simp [h, h', h'', Tree.nodeAt, Tree.empty]

theorem pairTree_is : pairTree.Is pairShape where
  rootValid := rfl
  root := rfl
  holds := by simp [pairShape, Shape.Holds, nodeAt_pairTree, leafIdx, leafNode, Node.empty, Shape.index]
  leavesDistinct := by decide
  internalsDistinct := by decide
  reachable := by
    intro n
    rw [nodeAt_pairTree]
    split
    · next h => subst h; decide
    · split
      · next h => subst h; decide
      · split
        · next h => subst h; decide
        · simp [Node.empty]
  invalidEmpty := by
    intro n
    rw [nodeAt_pairTree]
    split
    · simp [leafNode]
    · split
      · simp [leafNode]
      · split
        · simp
        · simp
  nint := rfl
  nleaf := rfl

theorem pairCodes_hold : pairCodes.Hold pairShape := by
  intro b
  have h : pairShape.codeFor b = if b = 0x42#8 then [false] else if b = 0x41#8 then [true] else [] := by
    simp only [Shape.codeFor, pairShape, Shape.path]
    by_cases h : b = 0x42#8
    · subst h; rfl
    · by_cases h' : b = 0x41#8
      · subst h'; rfl
      · simp [h, h', Ne.symm h, Ne.symm h']
  rw [h]
  by_cases h : b = 0x42#8
  · subst h; decide +kernel
  · by_cases h' : b = 0x41#8
    · subst h'; decide +kernel
    · have e : ¬ 0x42 = b.toNat := fun e => h (BitVec.eq_of_toNat_eq e.symm)
      have e' : ¬ 0x41 = b.toNat := fun e => h' (BitVec.eq_of_toNat_eq e.symm)
      simp [h, h', Codes.lenAt, Codes.bitsAt, pairCodes, Codes.empty, e, e', ofBits, natOfBits]

/-- Between commands (R53), with a tree and a code table. -/
theorem pairState_inv (l : List Byte) (seek : Bool) : (pairState l seek).Inv where
  status := (⟨by decide, by decide, by decide⟩ : Status.reset.Wf)
  inp := fun _ => rfl
  inRange := InPort.position_le _
  out := (⟨by decide, by decide, by decide⟩ : State.reset.out.Wf)
  tree := by
    unfold Tree.Wf
    rw [if_pos (show (pairState l seek).tree.rootValid = true from rfl)]
    exact ⟨pairShape, pairTree_is⟩
  codes := by
    unfold State.CodesWf
    rw [if_pos (show (pairState l seek).codes.valid = true from rfl)]
    exact ⟨pairShape, pairTree_is, pairCodes_hold⟩

theorem loneTree_is : loneTree.Is (.leaf 0x41#8) where
  rootValid := rfl
  root := rfl
  holds := by simp [Shape.Holds, loneTree, Tree.nodeAt_setNode, leafIdx, leafNode, Node.empty]
  leavesDistinct := by decide
  internalsDistinct := by decide
  reachable := by
    intro n
    simp only [loneTree, Tree.nodeAt_setNode]
    split
    · next h => rw [h.1]; decide
    · simp [Tree.nodeAt, Tree.empty, Node.empty]
  invalidEmpty := by
    intro n
    simp only [loneTree, Tree.nodeAt_setNode]
    split
    · simp [leafNode]
    · simp [Tree.nodeAt, Tree.empty]
  nint := rfl
  nleaf := rfl

set_option Elab.async false

/-! Words (spec/30_encoding.md R76, R77, R79; vectors V-E1 to V-E12). -/

/-- R77, R80: the one ill-formed command, and its neighbour at the boundary. -/
theorem test_wellFormed_rejects_node_511 : (Instr.peekNode 511#9).wellFormed = false := by decide
theorem test_wellFormed_node_510 : (Instr.peekNode 510#9).WellFormed := by decide

theorem test_decode_control_words :
    decode 0x00000000#32 = .ok .nop ∧ decode 0x00000001#32 = .ok .encode ∧ decode 0x00000002#32 = .ok .decode ∧
      decode 0x00000003#32 = .ok .clear := by decide

theorem test_decode_bitstream_words :
    decode 0x00000008#32 = .ok .openStreams ∧ decode 0x00000009#32 = .ok .seekIn ∧
      decode 0x00000010#32 = .ok (.wrBit false) ∧ decode 0x00000110#32 = .ok (.wrBit true) ∧
      decode 0x0000A511#32 = .ok (.wrByte 0xA5#8) ∧ decode 0x00000012#32 = .ok .wrI64 ∧
      decode 0x00000013#32 = .ok .wrClose ∧ decode 0x00000018#32 = .ok .rdBit ∧
      decode 0x00000019#32 = .ok .rdByte ∧ decode 0x0000001A#32 = .ok .rdI64 := by decide

theorem test_decode_builder_words : decode 0x00000020#32 = .ok .count ∧ decode 0x00000021#32 = .ok .build := by decide

theorem test_decode_tree_codec_words :
    decode 0x00000028#32 = .ok .serTree ∧ decode 0x00000029#32 = .ok .desTree := by decide

theorem test_decode_content_codec_words :
    decode 0x00000030#32 = .ok .codes ∧ decode 0x00004331#32 = .ok (.encSym 0x43#8) ∧
      decode 0x00000032#32 = .ok .decSym := by decide

theorem test_decode_inspection_words :
    decode 0x00004138#32 = .ok (.peekFreq 0x41#8) ∧ decode 0x00012C39#32 = .ok (.peekNode 300#9) ∧
      decode 0x0001FE39#32 = .ok (.peekNode 510#9) ∧ decode 0x0002433A#32 = .ok (.peekCode 0x43#8 1#2) ∧
      decode 0x0006413A#32 = .ok (.peekCode 0x41#8 3#2) := by decide

/-- V-E1 to V-E8 and V-E11, each for the field that is wrong; the last word is V-E10's (log 25). -/
theorem test_decode_illegal_words :
    decode 0x00000004#32 = .error .opcode ∧ decode 0x000000FF#32 = .error .opcode ∧
      decode 0x00080000#32 = .error .reserved ∧ decode 0x00000100#32 = .error .argument ∧
      decode 0x00020001#32 = .error .select ∧ decode 0x00000210#32 = .error .argument ∧
      decode 0x00010011#32 = .error .argument ∧ decode 0x0001FF39#32 = .error .argument ∧
      decode 0x0001003A#32 = .error .argument ∧ decode 0x0007413A#32 = .error .argument := by decide

/-- V-E2: STATUS = 0x706, and nothing else changes. -/
theorem test_illegal_word_step :
    outcome (fun t => t.statusWord == 0x706#32 && t.result == 0#64) (step (State.reset.withFetchWord 32 0xFF)) = true := by
  decide +kernel

/-- V-E12: WR_BIT 1 as the first step after reset. -/
theorem test_first_step_runs_the_word :
    outcome (fun t => t.bitposWord == 0x00000101#32 && t.statusWord == 0x02#32)
      (step (State.reset.withFetchWord 32 0x110)) = true := by decide +kernel

/-! One step for each command. -/

/-- V-B21. -/
theorem test_open :
    outcome (fun t => t.out == { data := [], cnt := 0#64, closed := false, wbuf := 0#8, wcnt := 0#3 } && t.inp.pos == 0#64)
      (exec .openStreams { State.reset with out := ⟨[0x12#8], 1#64, true, 5#8, 3#3⟩ }) = true := by decide +kernel

/-- V-B19, V-B20. -/
theorem test_seek_in :
    outcome (fun t => t.inp.pos == 0#64 && t.inp.rcnt == 0#3 && t.inp.rbuf == 0#8)
      (exec .seekIn { State.reset with inp := ⟨[], true, 5#64, 0xE0#8, 3#3⟩ }) = true := by decide +kernel
theorem test_seek_in_unseekable :
    outcome (fun t => t.inp.pos == 5#64 && t.statusWord == 0x106#32)
      (exec .seekIn { State.reset with inp := ⟨[], false, 5#64, 0#8, 0#3⟩ }) = true := by decide +kernel

/-- V-B1, V-B5. -/
theorem test_wr_bit :
    outcome (fun t => t.bitposWord == 0x00000101#32 && t.out.data == []) (exec (.wrBit true) State.reset) = true := by
  decide +kernel
theorem test_wr_bit_closed :
    outcome (fun t => t.statusWord == 0x826#32 && t.out.data == [0xFD#8, 0x07#8])
      (exec (.wrBit true) { State.reset with out := ⟨[0xFD#8, 0x07#8], 2#64, true, 0#8, 0#3⟩ }) = true := by
  decide +kernel

/-- V-B2, V-B6. -/
theorem test_wr_byte_unaligned :
    outcome (fun t => t.out == ⟨[0xFD#8], 1#64, false, 0x07#8, 3#3⟩)
      (exec (.wrByte 0xFF#8) { State.reset with out := ⟨[], 0#64, false, 5#8, 3#3⟩ }) = true := by decide +kernel
theorem test_wr_byte_aligned :
    outcome (fun t => t.out == ⟨[0xA5#8], 1#64, false, 0#8, 0#3⟩) (exec (.wrByte 0xA5#8) State.reset) = true := by
  decide +kernel

/-- V-B7, V-B10. -/
theorem test_wr_i64_aligned :
    outcome (fun t => t.out.data == [8#8, 7#8, 6#8, 5#8, 4#8, 3#8, 2#8, 1#8] && t.out.wcnt == 0#3)
      (exec .wrI64 { State.reset with data := 0x0102030405060708#64 }) = true := by decide +kernel
theorem test_wr_i64_unaligned :
    outcome (fun t => t.out == ⟨[0x11#8, 0x0E#8, 0x0C#8, 0x0A#8, 8#8, 6#8, 4#8, 2#8], 8#64, false, 0#8, 1#3⟩)
      (exec .wrI64 { State.reset with data := 0x0102030405060708#64, out := ⟨[], 0#64, false, 1#8, 1#3⟩ }) = true := by
  decide +kernel

/-- V-B3, V-B4. -/
theorem test_wr_close :
    outcome (fun t => t.out == ⟨[0xFD#8, 0x07#8], 2#64, true, 0#8, 0#3⟩ && t.statusWord == 0x22#32)
      (exec .wrClose { State.reset with out := ⟨[0xFD#8], 1#64, false, 7#8, 3#3⟩ }) = true := by decide +kernel
theorem test_wr_close_twice :
    outcome (fun t => t.out == ⟨[0xFD#8, 0x07#8], 2#64, true, 0#8, 0#3⟩ && t.status.errcode == 0#4)
      (exec .wrClose { State.reset with out := ⟨[0xFD#8, 0x07#8], 2#64, true, 0#8, 0#3⟩ }) = true := by decide +kernel

/-- V-B12, and the ninth read of V-B11. -/
theorem test_rd_bit :
    outcome (fun t => t.result == 0#64 && t.bitposWord == 0x82070000#32 && t.inp.pos == 1#64)
      (exec .rdBit (start [0x82#8] false)) = true := by decide +kernel
theorem test_rd_bit_at_end :
    outcome (fun t => t.result == 0#64 && t.statusWord == 0x0A#32)
      (exec .rdBit { State.reset with inp := ⟨[0x82#8], false, 1#64, 0#8, 0#3⟩ }) = true := by decide +kernel

/-- V-B13, V-B14. -/
theorem test_rd_byte_unaligned :
    outcome (fun t => t.result == 0xFE#64 && t.bitposWord == 0x07070000#32 && t.inp.pos == 2#64)
      (exec .rdByte { State.reset with inp := ⟨[0xFD#8, 0x07#8], false, 1#64, 0xFD#8, 7#3⟩ }) = true := by
  decide +kernel
theorem test_rd_byte_cut_short :
    outcome (fun t => t.result == 0#64 && t.statusWord == 0x0A#32 && t.bitposWord == 0#32 && t.inp.pos == 1#64)
      (exec .rdByte { State.reset with inp := ⟨[0xFF#8], false, 1#64, 0xFF#8, 7#3⟩ }) = true := by decide +kernel

/-- V-B18, V-B17. -/
theorem test_rd_i64_unaligned :
    outcome (fun t => t.result == 0x8403830282018100#64 && t.bitposWord == 0x09070000#32 && t.inp.pos == 9#64)
      (exec .rdI64
        { State.reset with inp := ⟨[1#8, 2#8, 3#8, 4#8, 5#8, 6#8, 7#8, 8#8, 9#8], false, 1#64, 1#8, 7#3⟩ }) = true := by
  decide +kernel
theorem test_rd_i64_too_few_bytes :
    outcome (fun t => t.result == 0#64 && t.status.eof && t.inp.pos == 5#64)
      (exec .rdI64 (start [0#8, 0#8, 0#8, 0#8, 0#8] false)) = true := by decide +kernel

/-- V-T1, V-T9. -/
theorem test_count :
    outcome
      (fun t => freqAt t.freq 0x41#8 == 3#64 && freqAt t.freq 0x42#8 == 1#64 && freqAt t.freq 0x43#8 == 0#64 &&
        t.length == 4#64 && t.inp.pos == 4#64 && !t.status.eof && t.treeWord == 0#32)
      (exec .count (start [0x41#8, 0x41#8, 0x41#8, 0x42#8] true)) = true := by decide +kernel
theorem test_count_unseekable :
    outcome (fun t => t.status.errcode == 1#4 && t.treeWord == 0x00201700#32) (exec .count (pairState [] false)) = true := by
  decide +kernel

/-- V-T4: all ties. -/
theorem test_build :
    outcome
      (fun t => t.tree.nodeAt 256#9 == ⟨true, true, 2#64, 0#9, 1#9, 258#9, true⟩ &&
        t.tree.nodeAt 257#9 == ⟨true, true, 2#64, 2#9, 3#9, 258#9, true⟩ &&
        t.tree.nodeAt 258#9 == ⟨true, true, 4#64, 256#9, 257#9, 0#9, false⟩ && t.tree.root == 258#9)
      (exec .build
        { State.reset with
          freq := (((State.reset.freq.set 0 1#64).set 1 1#64).set 2 1#64).set 3 1#64 }) = true := by decide +kernel
/-- V-T7, V-T8. -/
theorem test_build_nothing :
    outcome (fun t => t.treeWord == 0#32 && t.status.errcode == 0#4) (exec .build State.reset) = true := by
  decide +kernel

/-- V-C1, V-C4. -/
theorem test_ser_tree :
    outcome (fun t => t.out == ⟨[9#8, 9#8], 2#64, false, 2#8, 3#3⟩) (exec .serTree (pairState [] false)) = true := by
  decide +kernel
theorem test_ser_tree_closed :
    outcome (fun t => t.status.errcode == 8#4 && t.out.data == [])
      (exec .serTree { pairState [] false with out := ⟨[], 0#64, true, 0#8, 0#3⟩ }) = true := by decide +kernel

/-- V-C5, V-C8. -/
theorem test_des_tree :
    outcome
      (fun t => t.tree.nodeAt 256#9 == ⟨true, true, 0#64, 0x42#9, 0x41#9, 0#9, false⟩ &&
        t.tree.nodeAt 0x41#9 == ⟨true, false, 0#64, 0#9, 0#9, 256#9, true⟩ && t.treeWord == 0x00201300#32 &&
        t.inp.pos == 3#64 && t.bitposWord == 0x02050000#32)
      (exec .desTree (start [9#8, 9#8, 2#8] false)) = true := by decide +kernel
theorem test_des_tree_repeated_leaf :
    outcome (fun t => t.status.errcode == 3#4 && t.treeWord == 0#32 && t.inp.pos == 3#64 && t.inp.rcnt == 5#3)
      (exec .desTree (start [5#8, 9#8, 2#8] false)) = true := by decide +kernel

/-- V-N1, V-N3. -/
theorem test_codes :
    outcome (fun t => t.codes.codeOf 0x41#8 == [true] && t.codes.codeOf 0x42#8 == [false] && t.treeWord == 0x00201700#32)
      (exec .codes { pairState [] false with codes := Codes.empty }) = true := by decide +kernel
theorem test_codes_no_tree :
    outcome (fun t => t.status.errcode == 8#4 && !t.codes.valid) (exec .codes State.reset) = true := by decide +kernel

/-- The last symbol of V-N4, and V-N5. -/
theorem test_enc_sym :
    outcome (fun t => t.out == ⟨[], 0#64, false, 7#8, 4#3⟩)
      (exec (.encSym 0x42#8) { pairState [] false with out := ⟨[], 0#64, false, 7#8, 3#3⟩ }) = true := by decide +kernel
theorem test_enc_sym_no_leaf :
    outcome (fun t => t.status.errcode == 5#4 && t.out.wcnt == 0#3) (exec (.encSym 0x43#8) (pairState [] false)) = true := by
  decide +kernel

/-- The last symbol of V-N9, and the last read of V-N11. -/
theorem test_dec_sym :
    outcome (fun t => t.result == 0x42#64 && t.bitposWord == 0x3A010000#32)
      (exec .decSym { pairState [] false with inp := ⟨[9#8, 9#8, 0x3A#8], false, 3#64, 0x3A#8, 2#3⟩ }) = true := by
  decide +kernel
/-- R167, V-N12: with no tree, over an earlier RESULT. -/
theorem test_dec_sym_no_tree :
    outcome (fun t => t.result == 5#64 && t.status.errcode == 8#4 && !t.status.eof)
      (exec .decSym { start [1#8] false with result := 5#64 }) = true := by decide +kernel
theorem test_dec_sym_at_end :
    outcome (fun t => t.result == 0#64 && t.status.eof && t.status.errcode == 2#4)
      (exec .decSym { pairState [] false with inp := ⟨[9#8, 9#8, 2#8], false, 3#64, 0#8, 0#3⟩ }) = true := by
  decide +kernel

/-- V-S1, V-S12. -/
theorem test_encode :
    outcome
      (fun t => t.out.data == [4#8, 0#8, 0#8, 0#8, 0#8, 0#8, 0#8, 0#8, 9#8, 9#8, 0x3A#8] && t.statusWord == 0x62#32 &&
        t.treeWord == 0x00201700#32 && t.inp.pos == 4#64 && t.bitposWord == 0#32)
      (exec .encode (start [0x41#8, 0x41#8, 0x41#8, 0x42#8] true)) = true := by decide +kernel
theorem test_encode_unseekable :
    outcome (fun t => t.statusWord == 0x126#32 && t.out.data == [] && t.inp.pos == 0#64)
      (exec .encode (start [0x41#8, 0x42#8] false)) = true := by decide +kernel

/-- V-S1, V-S14. -/
theorem test_decode :
    outcome
      (fun t => t.out.data == [0x41#8, 0x41#8, 0x41#8, 0x42#8] && t.treeWord == 0x00201300#32 && t.inp.pos == 11#64 &&
        t.bitposWord == 0x3A010000#32 && t.length == 4#64 && t.status.errcode == 0#4)
      (exec .decode (start [4#8, 0#8, 0#8, 0#8, 0#8, 0#8, 0#8, 0#8, 9#8, 9#8, 0x3A#8] false)) = true := by decide +kernel
theorem test_decode_cut_short :
    outcome (fun t => t.status.errcode == 2#4 && t.length == 4#64 && t.out.data == [] && t.inp.pos == 10#64 &&
        t.treeWord == 0#32)
      (exec .decode (start [4#8, 0#8, 0#8, 0#8, 0#8, 0#8, 0#8, 0#8, 9#8, 9#8] false)) = true := by decide +kernel

/-- V-K1, V-K2. -/
theorem test_nop :
    outcome (fun t => t.statusWord == 0x12#32)
      (exec .nop ({ State.reset with status := ⟨false, true, false, true, 3#4⟩ }.issue 0#32)) = true := by decide +kernel
theorem test_clear :
    outcome
      (fun t => t.treeWord == 0#32 && t.data == 0#64 && t.aux == 0#32 && t.length == 0#64 && !t.status.overrun &&
        t.out == ⟨[9#8], 1#64, true, 0#8, 0#3⟩)
      (exec .clear
        { pairState [] false with
          data := 1#64
          aux := 2#32
          length := 3#64
          status := ⟨true, false, false, true, 0#4⟩
          out := ⟨[9#8], 1#64, true, 0#8, 0#3⟩ }) = true := by decide +kernel

/-- V-K3. -/
theorem test_peek_freq :
    outcome (fun t => t.result == 3#64 && t.aux == 0#32)
      (exec (.peekFreq 0x41#8) { State.reset with freq := State.reset.freq.set 0x41 3#64, aux := 1#32 }) = true := by
  decide +kernel

/-- V-K4, V-K5. -/
theorem test_peek_node_root :
    outcome (fun t => t.result == 4#64 && t.aux == 0x30008242#32) (exec (.peekNode 256#9) (pairState [] false)) = true := by
  decide +kernel
theorem test_peek_node_leaf :
    outcome (fun t => t.result == 1#64 && t.aux == 0x2C000000#32) (exec (.peekNode 0x42#9) (pairState [] false)) = true := by
  decide +kernel

/-- V-K7, V-K10. -/
theorem test_peek_code :
    outcome (fun t => t.result == 1#64 && t.aux == 0x101#32) (exec (.peekCode 0x41#8 0#2) (pairState [] false)) = true := by
  decide +kernel
theorem test_peek_code_no_table :
    outcome (fun t => t.result == 0#64 && t.aux == 0#32 && t.status.errcode == 8#4)
      (exec (.peekCode 0x41#8 0#2) { State.reset with result := 1#64, aux := 1#32 }) = true := by decide +kernel

/-! Witnesses: for each statement with hypotheses, a state and operands that meet all of them, clause by clause. -/

/-- A command issued with the word `w`, the host having `acts` to do. -/
def running (w : Word) (acts : List HostAction) : State := { State.reset.issue w with host := acts }

/-- No command running, the host having `acts` to do. -/
def idle (acts : List HostAction) : State := { State.reset with host := acts }

/-- Two bytes of an input read, and then another input loaded. -/
def beyond (l : List Byte) : State := { State.reset with inp := ⟨l, true, 2#64, 0#8, 0#3⟩ }

/-- The state after reset with another output port, or another input port. -/
def withOut (o : OutPort) : State := { State.reset with out := o }
def withIn (p : InPort) : State := { State.reset with inp := p }

theorem start_inv (l : List Byte) (seek : Bool) : (start l seek).Inv where
  status := (⟨by decide, by decide, by decide⟩ : Status.reset.Wf)
  inp := fun _ => rfl
  inRange := InPort.position_le _
  out := (⟨by decide, by decide, by decide⟩ : State.reset.out.Wf)
  tree := by
    unfold Tree.Wf
    rw [if_neg (show ¬ (start l seek).tree.rootValid = true from Bool.false_ne_true)]
    rfl
  codes := by
    unfold State.CodesWf
    rw [if_neg (show ¬ (start l seek).codes.valid = true from Bool.false_ne_true)]
    rfl

theorem witness_DecodeEncode : (Instr.peekNode 510#9).WellFormed ∧ (Instr.peekCode 0xFF#8 3#2).WellFormed := by decide

theorem witness_DecodeOnlyEncoded : decode 0x0001FE39#32 = .ok (.peekNode 510#9) := by decide

theorem witness_IllegalWordOnlyReports :
    (running 0x0001FF39#32 []).coreMoves = true ∧ ¬ LegalWord (running 0x0001FF39#32 []).latch ∧
      (running 0x0001FE39#32 [.wait]).coreMoves = true ∧ LegalWord (running 0x0001FE39#32 [.wait]).latch := by
  unfold LegalWord
  decide

theorem witness_StepRunsDecodedCommand :
    (running 0x20#32 []).status.busy = true ∧ (running 0x20#32 []).host = [] ∧
      decode (running 0x20#32 []).latch = .ok .count ∧ (running 0x20#32 [.wait, .reset]).status.busy = true ∧
      (∃ rest, (running 0x20#32 [.wait, .reset]).host = .wait :: rest) ∧ (Instr.peekNode 510#9).WellFormed :=
  ⟨rfl, rfl, by decide, rfl, ⟨_, rfl⟩, by decide⟩

theorem witness_CommandIssue :
    (∃ v rest, (idle [.write (Config.base + 0x04) 4 1#32, .wait]).host = .write (Config.base + 0x04) 4 v :: rest ∧
      (idle [.write (Config.base + 0x04) 4 1#32, .wait]).status.busy = false) ∧
    (∃ v rest, (running 0x20#32 [.write (Config.base + 0x04) 4 1#32]).host = .write (Config.base + 0x04) 4 v :: rest ∧
      (running 0x20#32 [.write (Config.base + 0x04) 4 1#32]).status.busy = true) ∧
    (running 0x20#32 []).coreMoves = true :=
  ⟨⟨_, _, rfl, rfl⟩, ⟨_, _, rfl, rfl⟩, rfl⟩

theorem witness_OverrunSticky_refused : ∀ off ∈ [0x04, 0x10, 0x14],
    (running 0x20#32 [.write (Config.base + off) 4 1#32]).status.busy = true ∧
      (running 0x20#32 [.write (Config.base + off) 4 1#32]).host = .write (Config.base + off) 4 1#32 :: [] :=
  fun _ _ => ⟨rfl, rfl⟩

theorem witness_OverrunSticky_cleared :
    (∃ s t : State, s.coreMoves = true ∧ step s = .next t ∧ s.status.overrun = true ∧ t.status.overrun = false) ∧
    ∃ (s t : State) (rest : List HostAction), s.host = .reset :: rest ∧ step s = .next t ∧ s.status.overrun = true ∧
      t.status.overrun = false :=
  ⟨⟨{ running 0x03#32 [] with status := ⟨true, false, false, true, 0#4⟩ }, _, rfl, rfl, rfl, rfl⟩,
    ⟨{ idle [.reset] with status := ⟨false, true, false, true, 0#4⟩ }, _, [], rfl, rfl, rfl, rfl⟩⟩

theorem witness_OverrunSticky_clear : ∃ t, exec .clear State.reset = .next t := ⟨_, rfl⟩

theorem witness_DataRegister :
    (∀ off ∈ [0x10, 0x14], (idle [.write (Config.base + off) 4 1#32]).status.busy = false ∧
      (idle [.write (Config.base + off) 4 1#32]).host = .write (Config.base + off) 4 1#32 :: []) ∧
    (∃ t, exec .clear State.reset = .next t) ∧ Instr.rdI64 ≠ .wrI64 ∧
    ∃ t, exec .rdI64 (start [1#8, 2#8, 3#8, 4#8, 5#8, 6#8, 7#8, 8#8] false) = .next t :=
  ⟨fun _ _ => ⟨rfl, rfl⟩, ⟨_, rfl⟩, by decide, ⟨_, rfl⟩⟩

theorem witness_RegisterAccessClasses :
    (∀ k ∈ [0, 63], k < 64 ∧ 4 * k ∉ [0x04, 0x10, 0x14] ∧
      (idle [.write (Config.base + 4 * k) 4 1#32]).host = .write (Config.base + 4 * k) 4 1#32 :: []) ∧
    (∀ k ∈ [1, 3, 17, 63], State.reset.status.busy = false ∧ k < 64 ∧ (4 * k ∈ [0x04, 0x0C] ∨ 0x44 ≤ 4 * k)) ∧
    (∀ off ∈ [0x04, 0x10, 0x14], (running 0x20#32 [.write (Config.base + off) 4 1#32]).status.busy = true ∧
      (running 0x20#32 [.write (Config.base + off) 4 1#32]).host = .write (Config.base + off) 4 1#32 :: []) :=
  ⟨fun k hk => ⟨(by decide : ∀ k ∈ [0, 63], k < 64) k hk, (by decide : ∀ k ∈ [0, 63], 4 * k ∉ [0x04, 0x10, 0x14]) k hk,
    rfl⟩, by decide, fun _ _ => ⟨rfl, rfl⟩⟩

/-- The two offsets, and what the reads of R25 are of. -/
theorem witness_RegisterAccessClasses_readback :
    (∀ off ∈ [0x10, 0x14], ∃ t, hostAct (.write (Config.base + off) 4 1#32) State.reset = .next t ∧
      (idle [.write (Config.base + off) 4 1#32]).status.busy = false ∧
      step (idle [.write (Config.base + off) 4 1#32]) = .next t) ∧
    ∃ w, ReadsAs State.reset 0x08 w ∧ ∃ w', ReadsAs State.reset 0x28 w' ∧ ∃ w'', ReadsAs State.reset 0x2C w'' := by
  have hb : ∀ off, off < 256 → off % 4 = 0 → busOffset (Config.base + off) 4 = .ok off := by
    intro off h h4
    simp [busOffset, Config.regSpace, h, h4]
  refine ⟨fun off h => ?_, ?_⟩
  · rw [List.mem_cons, List.mem_singleton] at h
    refine ⟨hostWrite off 1#32 State.reset, ?_, rfl, ?_⟩ <;> rcases h with rfl | rfl <;>
      simp [step, turn, State.coreMoves, idle, State.reset, Status.reset, hostAct, hb]
  · refine ⟨State.reset.statusWord, fun rest => ?_, State.reset.treeWord, fun rest => ?_, State.reset.bitposWord,
      fun rest => ?_⟩ <;>
      simp [step, turn, State.coreMoves, State.reset, Status.reset, hostAct, hb, hostRead, readReg, State.statusWord,
        State.treeWord, State.bitposWord]

theorem witness_IdleReads :
    (State.reset.status.busy = false ∧ State.reset.inp.pos.toNat ≤ State.reset.inp.data.length) ∧
    ((beyond [1#8]).status.busy = false ∧ (beyond [1#8]).inp.data.length < (beyond [1#8]).inp.pos.toNat) := by decide

theorem witness_BusyReads : ∀ k ∈ [0, 2, 63], k < 64 ∧ (running 0x20#32 [.read (Config.base + 4 * k) 4]).status.busy = true ∧
    (running 0x20#32 [.read (Config.base + 4 * k) 4]).host = .read (Config.base + 4 * k) 4 :: [] :=
  fun k hk => ⟨(by decide : ∀ k ∈ [0, 2, 63], k < 64) k hk, rfl, rfl⟩

theorem witness_HostStops :
    (2 ≠ 4 ∧ (idle [.read Config.base 2]).host = .read Config.base 2 :: []) ∧
    (1 ≠ 4 ∧ (idle [.write Config.base 1 0#32]).host = .write Config.base 1 0#32 :: []) ∧
    (∀ off ∈ [1, 255], off < 256 ∧ off % 4 ≠ 0 ∧
      (idle [.read (Config.base + off) 4]).host = .read (Config.base + off) 4 :: []) ∧
    ((running 0x20#32 [.loadIn [1#8] true]).status.busy = true ∧
      (running 0x20#32 [.loadIn [1#8] true]).host = .loadIn [1#8] true :: []) ∧
    ((running 0x20#32 [.copyOut]).status.busy = true ∧ (running 0x20#32 [.copyOut]).host = .copyOut :: []) :=
  ⟨⟨by decide, rfl⟩, ⟨by decide, rfl⟩,
    fun off h => ⟨(by decide : ∀ off ∈ [1, 255], off < 256) off h, (by decide : ∀ off ∈ [1, 255], off % 4 ≠ 0) off h, rfl⟩,
    ⟨rfl, rfl⟩, ⟨rfl, rfl⟩⟩

theorem witness_ResetEvent :
    (idle [.reset]).host = .reset :: [] ∧ (idle [.reset]).status.busy = false ∧
      (running 0xA511#32 [.reset]).host = .reset :: [] ∧ truncates (running 0xA511#32 [.reset]).latch = false ∧
      (running 0xA511#32 [.reset]).status.busy = true ∧ truncates (running 0x01#32 [.reset]).latch = true := by decide

theorem witness_ResetIsOpenThenClear :
    (idle [.reset]).status.busy = false ∧ (idle [.reset]).host = .reset :: [] := by decide

theorem witness_Completion :
    (withOut ⟨[], 0#64, true, 0#8, 0#3⟩).inp.pos.toNat ≤ (withOut ⟨[], 0#64, true, 0#8, 0#3⟩).inp.data.length ∧
      ∃ t, exec (.wrBit true) (withOut ⟨[], 0#64, true, 0#8, 0#3⟩) = .next t := ⟨by decide, _, rfl⟩

theorem witness_WritersOfState :
    (∃ t, exec .openStreams State.reset = .next t) ∧ (∃ t, exec .nop State.reset = .next t) ∧
      Instr.nop ∉ [.openStreams, .encode, .decode] ∧ (∀ b, Instr.nop ≠ .peekFreq b) ∧ Instr.nop ≠ .clear :=
  ⟨⟨_, rfl⟩, ⟨_, rfl⟩, by decide, fun _ h => (by cases h), by decide⟩

theorem witness_IdleKeepsState :
    (∃ t, (idle [.copyOut]).status.busy = false ∧ step (idle [.copyOut]) = .next t ∧
      ∀ rest, (idle [.copyOut]).host ≠ .reset :: rest) ∧
    ((idle []).status.busy = false ∧ (idle []).host = []) ∧
    ((idle [.loadIn [1#8] true]).status.busy = false ∧ (idle [.loadIn [1#8] true]).host = .loadIn [1#8] true :: []) ∧
    ((idle [.copyOut]).status.busy = false ∧ (idle [.copyOut]).host = .copyOut :: []) :=
  ⟨⟨_, rfl, rfl, fun _ h => (by cases h)⟩, ⟨rfl, rfl⟩, ⟨rfl, rfl⟩, ⟨rfl, rfl⟩⟩

theorem witness_StepKeepsInv :
    (∃ t, (pairState [] true).Inv ∧ step (pairState [] true) = .next t) ∧
    ∃ t, (idle [.loadIn [1#8] true]).Inv ∧ step (idle [.loadIn [1#8] true]) = .next t :=
  ⟨⟨_, pairState_inv [] true, rfl⟩, ⟨_, ⟨(start_inv [] true).status, (start_inv [] true).inp, InPort.position_le _, (start_inv [] true).out, (start_inv [] true).tree,
      (start_inv [] true).codes⟩, rfl⟩⟩

theorem witness_InvGivesR53 :
    ((pairState [] true).Inv ∧ (pairState [] true).tree.rootValid = true ∧ (pairState [] true).codes.valid = true ∧
      ((pairState [] true).tree.nodeAt 256#9).valid = true ∧ ((pairState [] true).tree.nodeAt 256#9).internal = true) ∧
    ((start [1#8] true).Inv ∧ (start [1#8] true).tree.rootValid = false ∧ (start [1#8] true).inp.rcnt = 0#3) :=
  ⟨⟨pairState_inv [] true, rfl, rfl, by decide +kernel, by decide +kernel⟩, ⟨start_inv _ _, rfl, rfl⟩⟩

theorem witness_EveryCommandCompletes :
    (pairState [] true).Inv ∧ (running 0x0001FF39#32 []).Inv ∧ (running 0x0001FF39#32 []).coreMoves = true :=
  ⟨pairState_inv [] true,
    ⟨(⟨by decide, by decide, by decide⟩ : (Status.issue Status.reset).Wf), (start_inv [] true).inp, InPort.position_le _, (start_inv [] true).out,
      (start_inv [] true).tree, (start_inv [] true).codes⟩, rfl⟩

theorem witness_FastPathsInvisible :
    OutPort.ZeroAbove ⟨[], 0#64, false, 0x7F#8, 7#3⟩ ∧ OutPort.ZeroAbove ⟨[], 0#64, false, 0#8, 0#3⟩ ∧
      InPort.Wf ⟨[1#8], false, 1#64, 1#8, 7#3⟩ ∧ InPort.Wf ⟨[1#8], false, 0#64, 0#8, 0#3⟩ :=
  ⟨by decide, by decide, fun h => (by cases h), fun _ => rfl⟩

theorem witness_OpenAndSeekIn : (start [] true).inp.seekable = true ∧ (start [] false).inp.seekable = false := by decide

theorem witness_WrBitCommand :
    (withOut ⟨[], 0#64, true, 0#8, 0#3⟩).out.closed = true ∧
      ((withOut ⟨[], 0#64, false, 0x7F#8, 7#3⟩).out.closed = false ∧ (withOut ⟨[], 0#64, false, 0x7F#8, 7#3⟩).out.wcnt = 7#3) ∧
      ((withOut ⟨[], 0#64, false, 0#8, 6#3⟩).out.closed = false ∧ (withOut ⟨[], 0#64, false, 0#8, 6#3⟩).out.wcnt ≠ 7#3) := by
  decide

theorem witness_WrByteCommand :
    (withOut ⟨[], 0#64, true, 0#8, 0#3⟩).out.closed = true ∧
      ((withOut ⟨[], 0#64, false, 0#8, 0#3⟩).out.closed = false ∧ (withOut ⟨[], 0#64, false, 0#8, 0#3⟩).out.wcnt = 0#3) ∧
      ((withOut ⟨[], 0#64, false, 0x7F#8, 7#3⟩).out.closed = false ∧ (withOut ⟨[], 0#64, false, 0x7F#8, 7#3⟩).out.wcnt ≠ 0#3 ∧
        (withOut ⟨[], 0#64, false, 0x7F#8, 7#3⟩).out.ZeroAbove) := by decide

theorem witness_WrI64Command :
    (withOut ⟨[], 0#64, true, 0#8, 0#3⟩).out.closed = true ∧
      ((withOut ⟨[], 0#64, false, 0#8, 0#3⟩).out.closed = false ∧ (withOut ⟨[], 0#64, false, 0#8, 0#3⟩).out.ZeroAbove ∧
        (withOut ⟨[], 0#64, false, 0#8, 0#3⟩).out.wcnt = 0#3) ∧
      ((withOut ⟨[], 0#64, false, 0x7F#8, 7#3⟩).out.closed = false ∧ (withOut ⟨[], 0#64, false, 0x7F#8, 7#3⟩).out.ZeroAbove) := by
  decide

theorem witness_WrCloseCommand :
    (withOut ⟨[], 0#64, false, 0x7F#8, 7#3⟩).out.ZeroAbove ∧ (withOut ⟨[], 0#64, false, 0#8, 0#3⟩).out.ZeroAbove ∧
      (withOut ⟨[1#8], 1#64, true, 0#8, 0#3⟩).out.Wf ∧ (withOut ⟨[1#8], 1#64, true, 0#8, 0#3⟩).out.closed = true :=
  ⟨by decide, by decide, ⟨by decide, by decide, by decide⟩, by decide⟩

theorem witness_RdBitCommand :
    (withIn ⟨[1#8], false, 1#64, 1#8, 1#3⟩).inp.rcnt ≠ 0#3 ∧
      ((start [0x82#8] false).inp.rcnt = 0#3 ∧
        (start [0x82#8] false).inp.data[(start [0x82#8] false).inp.pos.toNat]? = some 0x82#8) ∧
      ((withIn ⟨[1#8], false, 1#64, 0#8, 0#3⟩).inp.rcnt = 0#3 ∧
        (withIn ⟨[1#8], false, 1#64, 0#8, 0#3⟩).inp.data.length ≤ (withIn ⟨[1#8], false, 1#64, 0#8, 0#3⟩).inp.pos.toNat) := by
  decide

/-- One bit waiting and a byte, or seven bits and no byte. -/
theorem witness_RdByteCommand :
    ((withIn ⟨[1#8, 2#8], false, 1#64, 1#8, 1#3⟩).inp.Wf ∧ (withIn ⟨[1#8, 2#8], false, 1#64, 1#8, 1#3⟩).inp.Short ∧
      8 ≤ (withIn ⟨[1#8, 2#8], false, 1#64, 1#8, 1#3⟩).inp.bits.length) ∧
    ((withIn ⟨[1#8], false, 1#64, 1#8, 7#3⟩).inp.Wf ∧ (withIn ⟨[1#8], false, 1#64, 1#8, 7#3⟩).inp.Short ∧
      (withIn ⟨[1#8], false, 1#64, 1#8, 7#3⟩).inp.bits.length < 8 ∧
      (withIn ⟨[1#8], false, 1#64, 1#8, 7#3⟩).inp.pos.toNat ≤ (withIn ⟨[1#8], false, 1#64, 1#8, 7#3⟩).inp.data.length) := by
  unfold InPort.Wf InPort.Short
  decide

theorem witness_RdI64Command :
    ((start (List.replicate 8 1#8) false).inp.Wf ∧ (start (List.replicate 8 1#8) false).inp.Short ∧
      64 ≤ (start (List.replicate 8 1#8) false).inp.bits.length) ∧
    ((start (List.replicate 7 1#8) false).inp.Wf ∧ (start (List.replicate 7 1#8) false).inp.Short ∧
      (start (List.replicate 7 1#8) false).inp.bits.length < 64 ∧
      (start (List.replicate 7 1#8) false).inp.pos.toNat ≤ (start (List.replicate 7 1#8) false).inp.data.length) := by
  unfold InPort.Wf InPort.Short
  decide +kernel

theorem witness_CountCommand :
    (start [1#8] false).inp.seekable = false ∧
      ((start [1#8] true).inp.seekable = true ∧ (start [1#8] true).inp.data.length < 2 ^ 63) ∧
      ((start (List.replicate (2 ^ 63) 0#8) true).inp.seekable = true ∧
        2 ^ 63 ≤ (start (List.replicate (2 ^ 63) 0#8) true).inp.data.length) :=
  ⟨rfl, ⟨rfl, by decide⟩, rfl, by simp only [start, List.length_replicate]; exact Nat.le_refl _⟩

theorem witness_InsertStable :
    [0#9, 1#9].Pairwise fun a c => (fun n : NodeIdx => n.setWidth 64) a ≤ (fun n : NodeIdx => n.setWidth 64) c := by decide

theorem exists_pair {α β : Type} (x : α × β) : ∃ t q, x = (t, q) := ⟨x.1, x.2, rfl⟩

theorem witness_InitialQueue : ∃ t q, addLeaves State.reset.freq allBytes (Tree.empty, []) = (t, q) := exists_pair _

theorem witness_MergeStep :
    (Tree.empty.nint ≠ 255#8 ∧ 0#9 ≠ 255#9 ∧ (0#9).toNat < 256 + Tree.empty.nint.toNat ∧
      (255#9).toNat < 256 + Tree.empty.nint.toNat) ∧
    ({ Tree.empty with nint := 254#8 }.nint ≠ 255#8 ∧ 508#9 ≠ 509#9 ∧
      (508#9).toNat < 256 + { Tree.empty with nint := 254#8 }.nint.toNat ∧
      (509#9).toNat < 256 + { Tree.empty with nint := 254#8 }.nint.toNat) :=
  ⟨⟨by decide, by decide, by decide, by decide⟩, ⟨by decide, by decide, by decide, by decide⟩⟩

theorem witness_MergeOrder : ∃ t q, mergeLoop 3 (addLeaves State.reset.freq allBytes (Tree.empty, [])) = (t, q) :=
  exists_pair _

theorem symbolCount_one : symbolCount (State.reset.freq.set 0x41 3#64) ≠ 0 := by decide +kernel

theorem witness_BuildShape : ∃ s : State, symbolCount s.freq ≠ 0 :=
  ⟨{ State.reset with freq := State.reset.freq.set 0x41 3#64 }, symbolCount_one⟩

theorem witness_BuildFrequencies :
    ∃ a t, (start [0x41#8] true).inp.seekable = true ∧ (start [0x41#8] true).inp.data.length < 2 ^ 63 ∧
      (start [0x41#8] true).inp.data ≠ [] ∧ exec .count (start [0x41#8] true) = .next a ∧ exec .build a = .next t := by
  obtain ⟨a, h, -⟩ := of_outcome (f := fun _ => true) (r := exec .count (start [0x41#8] true)) (by decide +kernel)
  exact ⟨a, _, rfl, by decide, by decide, h, rfl⟩

theorem witness_SerTreeCommand :
    (withOut ⟨[], 0#64, true, 0#8, 0#3⟩).out.closed = true ∧ State.reset.tree.rootValid = false ∧
      (pairState [] false).out.closed = false ∧ (pairState [] false).tree.Is pairShape :=
  ⟨rfl, rfl, rfl, pairTree_is⟩

theorem witness_DesTreeCommand : (start [9#8, 9#8, 2#8] false).inp.Wf ∧ (start [9#8, 9#8, 2#8] false).inp.Short := by
  unfold InPort.Wf InPort.Short
  decide

theorem unfinished_of {l : List Mark}
    (h : (∀ m ∈ l.inits, (leafMarks m).length ≤ innerMarks m) ∧ (leafMarks l).Nodup ∧ innerMarks l ≤ 255) :
    Unfinished l := ⟨h.1, h.2.1, h.2.2⟩

/-- The tree bits of V-S14 (the second leaf value cut after 5 bits) and of V-C8 (0x41 read twice). -/
theorem witness_treeCut : TreeCut (streamBits [9#8, 9#8]) :=
  ⟨[.inner, .leaf 0x42#8], [false, true, false, false, false, false], unfinished_of (by decide), by decide,
    .inr ⟨_, rfl, by decide⟩⟩
theorem witness_treeCorrupt : TreeCorrupt (streamBits [5#8, 9#8, 2#8]) (List.replicate 5 false) :=
  ⟨[.inner, .leaf 0x41#8], .leaf 0x41#8, unfinished_of (by decide), by decide, .inr ⟨_, by decide, rfl⟩⟩

/-- V-C9: 255 internal nodes, then a 256th. -/
theorem witness_treeFull : TreeCorrupt (streamBits (List.replicate 32 0xFF#8)) [] :=
  ⟨List.replicate 255 .inner, .inner, unfinished_of (by decide +kernel), by decide +kernel, .inl ⟨rfl, by decide +kernel⟩⟩

/-- V-S1's tree and content: five codes in 0x3A and none left. -/
theorem witness_contentCut :
    ContentCut (streamBits [9#8, 9#8, 0x3A#8]) pairShape [0x41#8, 0x41#8, 0x41#8, 0x42#8, 0x42#8] := by
  refine ⟨by decide, by decide, 0x41#8, by decide, [], by decide, ?_⟩
  unfold CutShort
  decide

theorem witness_DesTreeAccepts :
    (start [9#8, 9#8, 2#8] false).inp.Wf ∧ (start [9#8, 9#8, 2#8] false).inp.Short ∧ pairShape.leaves.Nodup ∧
      (start [9#8, 9#8, 2#8] false).inp.bits = pairShape.preorder ++ [false, false, false, false, false] := by
  unfold InPort.Wf InPort.Short
  decide

theorem witness_SerThenDes :
    ∃ a, (pairState [] false).tree.Is pairShape ∧ (pairState [] false).out.closed = false ∧
      exec .serTree (pairState [] false) = .next a ∧ (start [9#8, 9#8, 2#8] false).inp.Wf ∧
      (start [9#8, 9#8, 2#8] false).inp.Short ∧
      (start [9#8, 9#8, 2#8] false).inp.bits =
        a.out.bits.drop (pairState [] false).out.bits.length ++ [false, false, false, false, false] := by
  obtain ⟨a, h, ho⟩ := of_outcome test_ser_tree
  refine ⟨a, pairTree_is, rfl, h, witness_DesTreeCommand.1, witness_DesTreeCommand.2, ?_⟩
  rw [eq_of_beq ho]
  decide

theorem witness_CodesCommand :
    State.reset.tree.rootValid = false ∧ (pairState [] false).tree.Is pairShape ∧ (loneState []).tree.Is (.leaf 0x41#8) :=
  ⟨rfl, pairTree_is, loneTree_is⟩

theorem witness_CodesPrefixFree :
    ∃ t, (pairState [] false).Inv ∧ 2 ≤ (pairState [] false).tree.nleaf.toNat ∧
      exec .codes (pairState [] false) = .next t ∧ (pairState [] false).tree.rootValid = true := by
  obtain ⟨c, h, -⟩ := pairTree_is.codesOf
  have ht : (pairState [] false).tree = pairTree := rfl
  have hr : pairTree.rootValid = true := rfl
  refine ⟨{ pairState [] false with codes := c }.complete .ok, pairState_inv [] false, by decide, ?_, rfl⟩
  simp only [exec, execCodes, ht, hr, h, if_true]
  rfl

theorem witness_EncSymCommand :
    (withOut ⟨[], 0#64, true, 0#8, 0#3⟩).out.closed = true ∧ State.reset.codes.valid = false ∧
      ((pairState [] false).out.closed = false ∧ (pairState [] false).codes.valid = true ∧
        ((pairState [] false).tree.nodeAt (leafIdx 0x43#8)).valid = false ∧
        ((pairState [] false).tree.nodeAt (leafIdx 0x41#8)).valid = true) :=
  ⟨rfl, rfl, rfl, rfl, by decide +kernel, by decide +kernel⟩

/-- A code of one bit with seven bits after it; the empty code of a lone leaf; a code of which no bit is left. -/
theorem witness_DecSymCommand :
    State.reset.tree.rootValid = false ∧
    ((pairState [1#8] false).tree.Is pairShape ∧ (pairState [1#8] false).inp.Wf ∧ (pairState [1#8] false).inp.Short ∧
      0x41#8 ∈ pairShape.leaves ∧
      (pairState [1#8] false).inp.bits = pairShape.codeFor 0x41#8 ++ List.replicate 7 false) ∧
    ((loneState []).tree.Is (.leaf 0x41#8) ∧ (loneState []).inp.bits = (Shape.leaf 0x41#8).codeFor 0x41#8 ++ []) ∧
    ((pairState [] false).inp.Wf ∧ (pairState [] false).inp.Short ∧
      CutShort (pairState [] false).inp.bits (pairShape.codeFor 0x41#8)) := by
  unfold InPort.Wf InPort.Short CutShort
  exact ⟨rfl, ⟨pairTree_is, by decide, by decide, by decide, by decide⟩, ⟨loneTree_is, by decide⟩,
    ⟨by decide, by decide, by decide⟩⟩

theorem witness_EncSymThenDecSym :
    ∃ a, (pairState [] false).Inv ∧ (pairState [] false).tree.Is pairShape ∧ (pairState [1#8] false).tree.Is pairShape ∧
      pairShape.same pairShape = true ∧ exec (.encSym 0x41#8) (pairState [] false) = .next a ∧
      a.status.errcode = 0#4 ∧ (pairState [1#8] false).inp.Wf ∧ (pairState [1#8] false).inp.Short ∧
      (pairState [1#8] false).inp.bits =
        a.out.bits.drop (pairState [] false).out.bits.length ++ List.replicate 7 false := by
  obtain ⟨a, h, ho⟩ := of_outcome (r := exec (.encSym 0x41#8) (pairState [] false))
    (f := fun t => t.out == ⟨[], 0#64, false, 1#8, 1#3⟩ && t.status.errcode == 0#4) (by decide +kernel)
  rw [Bool.and_eq_true] at ho
  refine ⟨a, pairState_inv [] false, pairTree_is, pairTree_is, by decide, h, eq_of_beq ho.2,
    witness_DecSymCommand.2.1.2.1, witness_DecSymCommand.2.1.2.2.1, ?_⟩
  rw [eq_of_beq ho.1]
  decide

theorem witness_DecSymNeverCorrupt : (pairState [1#8] false).Inv ∧ (start [1#8] false).Inv :=
  ⟨pairState_inv _ _, start_inv _ _⟩

theorem witness_EncodeWithoutContent :
    (start [1#8] false).inp.seekable = false ∧
      ((start (List.replicate (2 ^ 63) 0#8) true).inp.seekable = true ∧
        2 ^ 63 ≤ (start (List.replicate (2 ^ 63) 0#8) true).inp.data.length) ∧
      ((start [] true).inp.seekable = true ∧ (start [] true).inp.data = []) :=
  ⟨rfl, witness_CountCommand.2.2, rfl, rfl⟩

theorem witness_EncodeArchive :
    (start [1#8] true).inp.seekable = true ∧ (start [1#8] true).inp.data ≠ [] ∧
      (start [1#8] true).inp.data.length < 2 ^ 63 := by decide

theorem witness_DecodeHeader :
    (start (List.replicate 7 0#8) false).inp.data.length < 8 ∧
    ((start [0#8, 0#8, 0#8, 0#8, 0#8, 0#8, 0#8, 0x80#8] false).inp.data.take 8 = bytesOf 0x8000000000000000#64 ∧
      (0x8000000000000000#64).getLsbD 63 = true) ∧
    (start (List.replicate 8 0#8) false).inp.data.take 8 = bytesOf 0#64 := by decide

/-- V-S14 and V-S19, and V-S1's archive with two more bytes asked for. -/
theorem witness_DecodeHeader_fails :
    ((start [4#8, 0#8, 0#8, 0#8, 0#8, 0#8, 0#8, 0#8, 9#8, 9#8] false).inp.data.take 8 = bytesOf 4#64 ∧
      (start [4#8, 0#8, 0#8, 0#8, 0#8, 0#8, 0#8, 0#8, 9#8, 9#8] false).inp.Short ∧
      (4#64).getLsbD 63 = false ∧ 4#64 ≠ 0#64 ∧
      TreeCut (streamBits ((start [4#8, 0#8, 0#8, 0#8, 0#8, 0#8, 0#8, 0#8, 9#8, 9#8] false).inp.data.drop 8))) ∧
    ((start [2#8, 0#8, 0#8, 0#8, 0#8, 0#8, 0#8, 0#8, 5#8, 9#8, 2#8] false).inp.data.take 8 = bytesOf 2#64 ∧
      (start [2#8, 0#8, 0#8, 0#8, 0#8, 0#8, 0#8, 0#8, 5#8, 9#8, 2#8] false).inp.Short ∧
      (2#64).getLsbD 63 = false ∧ 2#64 ≠ 0#64 ∧
      TreeCorrupt (streamBits ((start [2#8, 0#8, 0#8, 0#8, 0#8, 0#8, 0#8, 0#8, 5#8, 9#8, 2#8] false).inp.data.drop 8))
        (List.replicate 5 false)) ∧
    ((start [6#8, 0#8, 0#8, 0#8, 0#8, 0#8, 0#8, 0#8, 9#8, 9#8, 0x3A#8] false).inp.data.take 8 = bytesOf 6#64 ∧
      (start [6#8, 0#8, 0#8, 0#8, 0#8, 0#8, 0#8, 0#8, 9#8, 9#8, 0x3A#8] false).inp.Short ∧
      (6#64).getLsbD 63 = false ∧ 6#64 ≠ 0#64 ∧
      ContentCut (streamBits ((start [6#8, 0#8, 0#8, 0#8, 0#8, 0#8, 0#8, 0#8, 9#8, 9#8, 0x3A#8] false).inp.data.drop 8))
        pairShape [0x41#8, 0x41#8, 0x41#8, 0x42#8, 0x42#8] ∧
      [0x41#8, 0x41#8, 0x41#8, 0x42#8, 0x42#8].length < (6#64).toNat) := by
  unfold InPort.Short
  exact ⟨⟨by decide, by decide, by decide, by decide, witness_treeCut⟩,
    ⟨by decide, by decide, by decide, by decide, witness_treeCorrupt⟩,
    by decide, by decide, by decide, by decide, witness_contentCut, by decide⟩

/-- V-S19: the code, and what is left. -/
theorem test_decode_repeated_leaf :
    outcome (fun t => t.status.errcode == 3#4 && !t.status.eof && t.length == 2#64 && t.out.closed &&
        t.out.data == [] && t.inp.pos == 11#64 && t.inp.rcnt == 5#3)
      (exec .decode (start [2#8, 0#8, 0#8, 0#8, 0#8, 0#8, 0#8, 0#8, 5#8, 9#8, 2#8] false)) = true := by decide +kernel

/-- V-S21 with one byte, and V-S1's archive. -/
theorem witness_DecodeAcceptsAnyTree :
    ((start [1#8, 0#8, 0#8, 0#8, 0#8, 0#8, 0#8, 0#8, 0x82#8, 0#8] false).inp.Short ∧
      (Shape.leaf 0x41#8).leaves.Nodup ∧ [0x41#8] ≠ [] ∧ [0x41#8].length < 2 ^ 63 ∧
      (∀ b ∈ [0x41#8], b ∈ (Shape.leaf 0x41#8).leaves) ∧
      streamBits (start [1#8, 0#8, 0#8, 0#8, 0#8, 0#8, 0#8, 0#8, 0x82#8, 0#8] false).inp.data =
        bitsOf (BitVec.ofNat 64 [0x41#8].length) ++ (Shape.leaf 0x41#8).preorder ++
          [0x41#8].flatMap (Shape.leaf 0x41#8).codeFor ++ List.replicate 7 false) ∧
    ((start [4#8, 0#8, 0#8, 0#8, 0#8, 0#8, 0#8, 0#8, 9#8, 9#8, 0x3A#8] false).inp.Short ∧ pairShape.leaves.Nodup ∧
      (∀ b ∈ [0x41#8, 0x41#8, 0x41#8, 0x42#8], b ∈ pairShape.leaves) ∧
      streamBits (start [4#8, 0#8, 0#8, 0#8, 0#8, 0#8, 0#8, 0#8, 9#8, 9#8, 0x3A#8] false).inp.data =
        bitsOf (BitVec.ofNat 64 4) ++ pairShape.preorder ++
          [0x41#8, 0x41#8, 0x41#8, 0x42#8].flatMap pairShape.codeFor ++ [false]) := by
  unfold InPort.Short
  decide +kernel

theorem witness_RoundTrip :
    (start [1#8] true).inp.seekable = true ∧ (start [1#8] true).inp.data.length < 2 ^ 63 ∧
      ∀ l : List Byte, (start l false).inp.data = l := ⟨rfl, by decide, fun _ => rfl⟩

theorem witness_DecodeLength :
    ∃ t, exec .decode (start [4#8, 0#8, 0#8, 0#8, 0#8, 0#8, 0#8, 0#8, 9#8, 9#8, 0x3A#8] false) = .next t ∧
      t.status.errcode = 0#4 := by
  obtain ⟨t, h, ho⟩ := of_outcome test_decode
  exact ⟨t, h, eq_of_beq (Bool.and_eq_true _ _ ▸ ho).2⟩

/-- V-S1's archive without its last byte. -/
theorem witness_CutArchiveFails :
    ∃ t, (start [0x41#8, 0x41#8, 0x41#8, 0x42#8] true).inp.seekable = true ∧
      (start [0x41#8, 0x41#8, 0x41#8, 0x42#8] true).inp.data.length < 2 ^ 63 ∧
      exec .encode (start [0x41#8, 0x41#8, 0x41#8, 0x42#8] true) = .next t ∧ 10 < t.out.data.length ∧
      (start (t.out.data.take 10) false).inp.data = t.out.data.take 10 := by
  obtain ⟨t, h, ho⟩ := of_outcome test_encode
  simp only [Bool.and_eq_true] at ho
  refine ⟨t, rfl, by decide, h, ?_, rfl⟩
  rw [eq_of_beq ho.1.1.1.1]
  decide

theorem witness_SequencersClose :
    (∃ t, exec .encode (start [0x41#8, 0x42#8] false) = .next t) ∧
      (withOut ⟨[], 0#64, true, 0#8, 0#3⟩).out.closed = true ∧ (∃ b, Instr.encSym 0#8 = .encSym b) := by
  obtain ⟨t, h, -⟩ := of_outcome test_encode_unseekable
  exact ⟨⟨t, h⟩, rfl, _, rfl⟩

theorem witness_PeekCommands :
    (510#9).toNat < 511 ∧ State.reset.codes.valid = false ∧
    ((pairState [] false).Inv ∧ (300#9).toNat < 511 ∧ ((pairState [] false).tree.nodeAt 300#9).valid = false) ∧
    ((pairState [] false).codes.valid = true ∧
      ((pairState [] false).tree.nodeAt (leafIdx 0x43#8)).valid = false ∧
      ((pairState [] false).codes.lenAt 0x41#8).toNat ≤ 64 * (1#2).toNat) :=
  ⟨by decide, rfl, ⟨pairState_inv _ _, by decide, by decide +kernel⟩, rfl, by decide +kernel, by decide +kernel⟩

end Sys2Proof.Tests
end

section
/-! PROOF. A turn of the machine: what an access of the host does (spec/20_memory.md R55, R67, spec/10_state.md R25,
R33), and every next state that a turn can give (spec/00_scope.md R6). After them, what keeps each part of R53. -/

namespace Sys2Proof.Machine

/-! A host access inside the window. -/

/-- R55: a 4-byte access at a multiple of 4 inside the window is one the spec defines. -/
theorem busOffset_base_add {off : Nat} (hlt : off < 256) (h4 : off % 4 = 0) :
    busOffset (Config.base + off) 4 = .ok off := by
  simp [busOffset, Config.regSpace, hlt, h4]

/-- An action other than WAIT happens before the CORE's step (log 2). -/
theorem step_hostAct {s : State} {a : HostAction} {rest : List HostAction} (hh : s.host = a :: rest)
    (ha : a ≠ .wait) : s.coreMoves = false ∧ step s = hostAct a { s with host := rest } := by
  have hc : s.coreMoves = false := by
    rw [State.coreMoves, hh]
    cases a
    case wait => exact absurd rfl ha
    all_goals exact Bool.and_false _
  exact ⟨hc, by simp [step, turn, hc, hh]⟩

theorem step_write {s : State} {off : Nat} {v : Word} {rest : List HostAction} (hlt : off < 256) (h4 : off % 4 = 0)
    (hh : s.host = .write (Config.base + off) 4 v :: rest) :
    step s = .next (hostWrite off v { s with host := rest }) := by
  rw [(step_hostAct hh (by simp)).2, hostAct, busOffset_base_add hlt h4]

theorem step_read {s : State} {off : Nat} {rest : List HostAction} (hlt : off < 256) (h4 : off % 4 = 0)
    (hh : s.host = .read (Config.base + off) 4 :: rest) :
    step s = .next (hostRead off { s with host := rest }) := by
  rw [(step_hostAct hh (by simp)).2, hostAct, busOffset_base_add hlt h4]

/-- R25: the three registers that take a write, CMD and the halves of DATA, are aligned and in the window. -/
theorem lt_and_aligned_of_mem {off : Nat} (ho : off ∈ [0x04, 0x10, 0x14]) : off < 256 ∧ off % 4 = 0 := by
  simp only [List.mem_cons, List.not_mem_nil, or_false] at ho
  omega

/-- R25, R33: they are refused while BUSY = 1. -/
theorem hostWrite_busy {s : State} (hb : s.status.busy = true) {off : Nat} (ho : off ∈ [0x04, 0x10, 0x14])
    (v : Word) : hostWrite off v s = s.overrun := by
  simp only [List.mem_cons, List.not_mem_nil, or_false] at ho
  rcases ho with rfl | rfl | rfl <;> simp [hostWrite, hb]

/-- R25: every other offset ignores a write. -/
theorem hostWrite_ignored {off : Nat} (ho : off ∉ [0x04, 0x10, 0x14]) (v : Word) (s : State) :
    hostWrite off v s = s := by
  simp only [List.mem_cons, List.not_mem_nil, or_false, not_or] at ho
  obtain ⟨h1, h2, h3⟩ := ho
  unfold hostWrite
  split
  · exact absurd rfl h1
  · exact absurd rfl h2
  · exact absurd rfl h3
  · rfl

/-- R25, R33, R81: everything a host write can do. -/
theorem hostWrite_cases (off : Nat) (v : Word) (s : State) :
    hostWrite off v s = s ∨ hostWrite off v s = s.overrun ∨ hostWrite off v s = s.issue v ∨
      ∃ d, hostWrite off v s = { s with data := d } := by
  by_cases ho : off ∈ [0x04, 0x10, 0x14]
  · cases hb : s.status.busy with
    | true => exact .inr (.inl (hostWrite_busy hb ho v))
    | false =>
      simp only [List.mem_cons, List.not_mem_nil, or_false] at ho
      rcases ho with rfl | rfl | rfl
      · exact .inr (.inr (.inl (by simp [hostWrite, hb])))
      · exact .inr (.inr (.inr ⟨hiHalf s.data ++ v, by simp [hostWrite, hb]⟩))
      · exact .inr (.inr (.inr ⟨v ++ loHalf s.data, by simp [hostWrite, hb]⟩))
  · exact .inl (hostWrite_ignored ho v s)

/-- R67: a read changes the model's own fields only. -/
theorem hostRead_cases (off : Nat) (s : State) :
    ∃ w n, hostRead off s = { s with lastRead := some w, draws := n } := by
  unfold hostRead
  split <;> exact ⟨_, _, rfl⟩

/-! Every turn. -/

/-- R6: a turn is the CORE's, or an idle one, or the host's. -/
theorem step_next {s t : State} (h : step s = .next t) :
    (s.coreMoves = true ∧ coreTurn s = .next t) ∨ t = s ∨
      ∃ a rest, s.coreMoves = false ∧ s.host = a :: rest ∧ hostAct a { s with host := rest } = .next t := by
  unfold step turn at h
  split at h
  · next hc => exact .inl ⟨hc, h⟩
  · next hc =>
    split at h
    · cases h; exact .inr (.inl rfl)
    · next a rest hh => exact .inr (.inr ⟨a, rest, by simpa using hc, hh, h⟩)

/-- R81, R82. -/
theorem coreTurn_next {s t : State} (h : coreTurn s = .next t) :
    (∃ i, decode s.latch = .ok i ∧ exec i s = .next t) ∨ t = s.complete .illegalCommand := by
  unfold coreTurn at h
  split at h
  · next i hi => exact .inl ⟨i, hi, h⟩
  · cases h; exact .inr rfl

/-- R161: everything an action of the host can do. -/
theorem hostAct_next {a : HostAction} {s t : State} (h : hostAct a s = .next t) :
    (∃ off v, t = hostWrite off v s) ∨ (∃ off, t = hostRead off s) ∨ t = s ∨ (∃ l k, t = s.loadIn l k) ∨
      t = { s with hostCopy := s.out.data } ∨ (a = .reset ∧ t = s.resetBy) := by
  cases a with
  | write addr size v =>
    simp only [hostAct] at h
    split at h
    · next off _ => cases h; exact .inl ⟨off, v, rfl⟩
    · cases h
  | read addr size =>
    simp only [hostAct] at h
    split at h
    · next off _ => cases h; exact .inr (.inl ⟨off, rfl⟩)
    · cases h
  | wait => cases h; exact .inr (.inr (.inl rfl))
  | loadIn l k =>
    simp only [hostAct] at h
    split at h
    · cases h
    · cases h; exact .inr (.inr (.inr (.inl ⟨l, k, rfl⟩)))
  | copyOut =>
    simp only [hostAct] at h
    split at h
    · cases h
    · cases h; exact .inr (.inr (.inr (.inr (.inl rfl))))
  | reset => cases h; exact .inr (.inr (.inr (.inr (.inr ⟨rfl, rfl⟩))))

/-! The parts of the invariant (R53). -/

theorem Tree.empty_wf : Tree.empty.Wf := (if_neg (by decide)).mpr rfl

theorem Tree.Is.wf {t : Tree} {sh : Shape} (h : t.Is sh) : t.Wf := (if_pos h.rootValid).mpr ⟨sh, h⟩

/-- R53 (1): a valid root is the root of a tree. -/
theorem Tree.Wf.exists_is {t : Tree} (h : t.Wf) (hr : t.rootValid = true) : ∃ sh, t.Is sh := (if_pos hr).mp h

/-- R53 (2). -/
theorem Tree.Wf.eq_empty {t : Tree} (h : t.Wf) (hr : t.rootValid = false) : t = Tree.empty := by
  rwa [Tree.Wf, if_neg (by simp [hr])] at h

theorem State.codesWf_of_empty {s : State} (h : s.codes = Codes.empty) : s.CodesWf :=
  (if_neg (by simp [h, Codes.empty])).mpr h

theorem State.codesWf_of_hold {s : State} {sh : Shape} (hv : s.codes.valid = true) (ht : s.tree.Is sh)
    (hc : s.codes.Hold sh) : s.CodesWf := (if_pos hv).mpr ⟨sh, ht, hc⟩

/-- R53 (1) to (3): the node store and the code table. -/
def State.TablesWf (s : State) : Prop := s.tree.Wf ∧ s.CodesWf

theorem State.tablesWf_of_tree {s : State} (ht : s.tree = Tree.empty ∨ ∃ sh, s.tree.Is sh)
    (hc : s.codes = Codes.empty) : s.TablesWf := by
  refine ⟨?_, State.codesWf_of_empty hc⟩
  rcases ht with h | ⟨sh, h⟩
  · rw [h]; exact Tree.empty_wf
  · exact h.wf

theorem State.tablesWf_of_hold {s : State} {sh : Shape} (hv : s.codes.valid = true) (ht : s.tree.Is sh)
    (hc : s.codes.Hold sh) : s.TablesWf := ⟨ht.wf, State.codesWf_of_hold hv ht hc⟩

/-- R51: OUT_CNT keeps its bound under every append. -/
theorem OutPort.CountsFrom.counted {o q : OutPort} (h : o.CountsFrom q) (ho : o.cnt.toNat ≤ o.data.length) :
    q.cnt.toNat ≤ q.data.length := by
  obtain ⟨l, hd, hc⟩ := h
  rw [hd, hc, BitVec.toNat_add, BitVec.toNat_ofNat, List.length_append]
  omega

theorem OutPort.CountsFrom.data_isPrefix {o q : OutPort} (h : o.CountsFrom q) : o.data <+: q.data := by
  obtain ⟨l, hd, -⟩ := h
  exact ⟨l, hd.symm⟩

/-- Writing to an open output. -/
theorem OutPort.Appends.wf {o q : OutPort} {l : List Bool} (h : o.Appends l q) (hc : o.closed = false) (ho : o.Wf) :
    q.Wf :=
  ⟨h.zeroAbove ho.zeroAbove, fun hq => by simp [h.closed, hc] at hq, h.counts.counted ho.counted⟩

theorem OutPort.closeOut_wf {o : OutPort} (ho : o.Wf) : o.closeOut.Wf :=
  ⟨OutPort.flush_zeroAbove ho.zeroAbove, fun _ => o.flush_wcnt, o.flush_countsFrom.counted ho.counted⟩

theorem OutPort.reopen_wf (o : OutPort) : o.reopen.Wf := ⟨by simp, fun _ => rfl, by simp⟩

theorem OutPort.Finished.wf {o : OutPort} (h : o.Finished) : o.Wf := by
  refine ⟨by simp [h.wbuf, h.wcnt], fun _ => h.wcnt, ?_⟩
  rw [h.cnt, BitVec.toNat_ofNat]
  exact Nat.mod_le _ _

theorem InPort.seek0_keeps (p : InPort) : p.Keeps p.seek0 :=
  ⟨⟨rfl, rfl⟩, fun _ => p.seek0_wf, fun _ => p.seek0_inRange⟩

theorem ErrCode.code_le (e : ErrCode) : e.code.toNat ≤ 8 := by cases e <;> decide

theorem ErrCode.code_eq_two {e : ErrCode} (h : e.code = 2#4) : e = .truncatedArchive := by
  cases e <;> simp [ErrCode.code] at h ⊢

theorem Status.issue_wf (st : Status) : st.issue.Wf := ⟨by simp, fun _ => ⟨rfl, rfl, rfl⟩, by simp⟩

theorem State.Inv.congr {s t : State} (h : s.Inv) (hst : t.status.Wf) (hb : t.inp.rbuf = s.inp.rbuf)
    (hr : t.inp.rcnt = s.inp.rcnt) (ho : t.out = s.out) (ht : t.tree = s.tree) (hc : t.codes = s.codes) : t.Inv where
  status := hst
  inp := h.inp.congr hb hr
  inRange := InPort.position_le _
  out := ho ▸ h.out
  tree := ht ▸ h.tree
  codes := by
    have := h.codes
    rwa [State.CodesWf, ← ht, ← hc] at this

/-- R158: the values of the reset table meet the invariant, whatever the streams hold. -/
theorem State.inv_of_reset_values {s : State} (hst : s.status = Status.reset) (hb : s.inp.rbuf = 0#8)
    (ho : s.out = { State.reset.out with data := s.out.data }) (ht : s.tree = Tree.empty)
    (hc : s.codes = Codes.empty) : s.Inv where
  status := by rw [hst]; exact ⟨by decide, by decide, by decide⟩
  inp := fun _ => hb
  inRange := InPort.position_le _
  out := by rw [ho]; exact ⟨by simp [State.reset], fun _ => rfl, Nat.zero_le _⟩
  tree := ht ▸ Tree.empty_wf
  codes := State.codesWf_of_empty hc

end Sys2Proof.Machine
end

section
/-! PROOF. Every command that ends completes as R144 says and keeps each part of R53, so every turn keeps the
invariant. -/

namespace Sys2Proof.Machine

/-! Every command. -/

/-- R144: what every command does that ends, whichever it is: the completion step, the host's side untouched, and each
part of R53 kept. A field not given in a proof of it is one the command leaves alone. -/
structure State.Completes (s t : State) : Prop where
  busy : t.status.busy = false := by rfl
  done : t.status.done = true := by rfl
  code : ∃ e : ErrCode, t.status.errcode = e.code ∧ (e = .truncatedArchive → t.status.eof = true)
  latch : t.latch = s.latch := by rfl
  host : t.host = s.host := by rfl
  lastRead : t.lastRead = s.lastRead := by rfl
  hostCopy : t.hostCopy = s.hostCopy := by rfl
  draws : t.draws = s.draws := by rfl
  inp : s.inp.Keeps t.inp := by exact .refl _
  out : s.out.Wf → t.out.Wf := by exact id
  tables : s.TablesWf → t.TablesWf := by exact id

/-- R144: an error that changes nothing. -/
theorem State.completes_report (s : State) {e : ErrCode} (he : e ≠ .truncatedArchive) : s.Completes (s.complete e) :=
  { code := ⟨e, rfl, fun h => absurd h he⟩ }

/-- The commands that write bits do so only to an open output (R97 to R99, R113, R119). -/
theorem State.completes_write {s : State} {o : OutPort} {l : List Bool} (hc : s.out.closed = false)
    (h : s.out.Appends l o) : s.Completes ({ s with out := o }.complete .ok) :=
  { code := ⟨.ok, rfl, by simp⟩, out := h.wf hc }

/-- The commands that read bits (R101 to R103, R120). -/
theorem State.completes_read {s : State} {q : InPort} (h : s.inp.Keeps q) (v : Dword) {eof : Bool} {e : ErrCode}
    (he : e = .truncatedArchive → eof = true) :
    s.Completes ({ s with inp := q, result := v, status := { s.status with eof := eof } }.complete e) :=
  { code := ⟨e, rfl, he⟩, inp := h }

/-- R97 to R99: WR_BIT, WR_BYTE and WR_I64 test OUT_CLOSED first. -/
theorem write_next {s t : State} {o : OutPort}
    (h : (if s.out.closed then raise .badState s else finish { s with out := o }) = .next t) :
    t = s.complete .badState ∨ (s.out.closed = false ∧ t = { s with out := o }.complete .ok) := by
  split at h
  · cases h; exact .inl rfl
  · next hc => cases h; exact .inr ⟨by simpa using hc, rfl⟩

theorem execSeekIn_next {s t : State} (h : execSeekIn s = .next t) :
    t = s.complete .unseekableInput ∨ t = { s with inp := s.inp.seek0 }.complete .ok := by
  unfold execSeekIn at h
  split at h <;> cases h
  · exact .inr rfl
  · exact .inl rfl

theorem execPeekCode_next {b : Byte} {w : BitVec 2} {s t : State} (h : execPeekCode b w s = .next t) :
    ∃ r a e, t = { s with result := r, aux := a }.complete e ∧ e ≠ .truncatedArchive := by
  unfold execPeekCode at h
  split at h <;> cases h
  · exact ⟨_, _, .ok, rfl, by simp⟩
  · exact ⟨_, _, .badState, rfl, by simp⟩

/-- R53 (3): CODES makes the table of the tree that stands. -/
theorem State.tablesWf_codes {s : State} {c : Codes} (hr : s.tree.rootValid = true) (hc : codesOf s.tree = some c)
    (h : s.TablesWf) : { s with codes := c }.TablesWf := by
  obtain ⟨sh, hs⟩ := h.1.exists_is hr
  obtain ⟨c', hc', hv, hh⟩ := hs.codesOf
  obtain rfl : c' = c := Option.some.inj (hc'.symm.trans hc)
  exact State.tablesWf_of_hold hv hs hh

/-- R112: BUILD makes a tree or none. -/
theorem buildTree_cases (f : Vector Dword 256) : buildTree f = Tree.empty ∨ ∃ sh, (buildTree f).Is sh := by
  by_cases h : symbolCount f = 0
  · exact .inl ((buildTree_spec f).1 h)
  · obtain ⟨sh, hs, -⟩ := (buildTree_spec f).2 h
    exact .inr ⟨sh, hs⟩

/-- R140, R144: command by command, from what each can answer (Laws/Outcomes.lean). -/
theorem exec_completes {i : Instr} {s t : State} (h : exec i s = .next t) : s.Completes t := by
  cases i with
  | nop => cases h; exact s.completes_report (by simp)
  | clear =>
    cases h
    exact { code := ⟨.ok, rfl, by simp⟩, tables := fun _ => State.tablesWf_of_tree (.inl rfl) rfl }
  | peekFreq b => cases h; exact { code := ⟨.ok, rfl, by simp⟩ }
  | peekNode n => cases h; exact { code := ⟨.ok, rfl, by simp⟩ }
  | peekCode b w =>
    obtain ⟨r, a, e, rfl, he⟩ := execPeekCode_next h
    exact { code := ⟨e, rfl, fun h => absurd h he⟩ }
  | openStreams =>
    cases h
    exact { code := ⟨.ok, rfl, by simp⟩, inp := s.inp.seek0_keeps, out := fun _ => s.out.reopen_wf }
  | seekIn =>
    rcases execSeekIn_next h with rfl | rfl
    · exact s.completes_report (by simp)
    · exact { code := ⟨.ok, rfl, by simp⟩, inp := s.inp.seek0_keeps }
  | wrBit b =>
    rcases write_next h with rfl | ⟨hc, rfl⟩
    · exact s.completes_report (by simp)
    · exact State.completes_write hc (s.out.writeBit_appends b)
  | wrByte b =>
    rcases write_next h with rfl | ⟨hc, rfl⟩
    · exact s.completes_report (by simp)
    · exact State.completes_write hc (s.out.writeByte_appends b)
  | wrI64 =>
    rcases write_next h with rfl | ⟨hc, rfl⟩
    · exact s.completes_report (by simp)
    · exact State.completes_write hc (s.out.writeInt64_appends s.data)
  | wrClose => cases h; exact { code := ⟨.ok, rfl, by simp⟩, out := OutPort.closeOut_wf }
  | rdBit =>
    obtain ⟨q, v, eof, rfl, hk⟩ := execRdBit_next h
    exact State.completes_read hk v (by simp)
  | rdByte =>
    obtain ⟨q, v, eof, rfl, hk⟩ := execRdByte_next h
    exact State.completes_read hk v (by simp)
  | rdI64 =>
    obtain ⟨q, v, eof, rfl, hk⟩ := execRdI64_next h
    exact State.completes_read hk v (by simp)
  | decSym =>
    rcases execDecSym_next h with rfl | ⟨q, v, eof, e, rfl, hk, he⟩
    · exact s.completes_report (by simp)
    · refine State.completes_read hk v ?_
      rcases he with ⟨rfl, -⟩ | ⟨-, rfl⟩ | ⟨rfl, -⟩ <;> simp
  | encSym b =>
    rcases execEncSym_next h with ⟨e, he, rfl⟩ | ⟨hc, -, -, rfl⟩
    · exact s.completes_report (by rcases he with rfl | rfl <;> simp)
    · exact State.completes_write hc (s.out.writeBits_appends _)
  | serTree =>
    rcases execSerTree_next h with rfl | ⟨hc, -, o, l, rfl, ha⟩
    · exact s.completes_report (by simp)
    · exact State.completes_write hc ha
  | count =>
    rcases execCount_next h with rfl | ⟨q, f, n, e, rfl, he, hs, hw, hr⟩
    · exact s.completes_report (by simp)
    · exact { code := ⟨e, rfl, fun h => absurd h he⟩, inp := ⟨hs, fun _ => hw, fun _ => hr⟩
              tables := fun _ => State.tablesWf_of_tree (.inl rfl) rfl }
  | build =>
    cases h
    exact { code := ⟨.ok, rfl, by simp⟩, tables := fun _ => State.tablesWf_of_tree (buildTree_cases s.freq) rfl }
  | desTree =>
    rcases execDesTree_next h with ⟨q, u, sh, rfl, hs, hk⟩ | ⟨q, eof, e, rfl, hk, he⟩
    · exact { code := ⟨.ok, rfl, by simp⟩, inp := hk
              tables := fun _ => State.tablesWf_of_tree (.inr ⟨sh, hs⟩) rfl }
    · exact { code := ⟨e, rfl, by rcases he with ⟨-, rfl⟩ | ⟨rfl, -⟩ <;> simp⟩, inp := hk
              tables := fun _ => State.tablesWf_of_tree (.inl rfl) rfl }
  | codes =>
    rcases execCodes_next h with rfl | ⟨hr, c, hc, rfl⟩
    · exact s.completes_report (by simp)
    · exact { code := ⟨.ok, rfl, by simp⟩, tables := State.tablesWf_codes hr hc }
  | encode =>
    obtain ⟨q, o, f, n, u, c, eof, e, rfl, he, hs, hw, hr, ho, ht⟩ := execEncode_next h
    refine { code := ⟨e, rfl, fun h => absurd h he⟩, inp := ⟨hs, fun _ => hw, fun _ => hr⟩
             out := fun _ => ho.wf, tables := fun _ => ?_ }
    rcases ht with ⟨rfl, rfl⟩ | ⟨sh, hu, hv, hc⟩
    · exact State.tablesWf_of_tree (.inl rfl) rfl
    · exact State.tablesWf_of_hold hv hu hc
  | decode =>
    obtain ⟨q, o, n, u, eof, e, rfl, he, hs, hw, hr, ho, ht, -⟩ := execDecode_next h
    exact { code := ⟨e, rfl, he⟩, inp := ⟨hs, fun _ => hw, fun _ => hr⟩, out := fun _ => ho.wf
            tables := fun _ => State.tablesWf_of_tree ht rfl }

theorem coreTurn_completes {s t : State} (h : coreTurn s = .next t) : s.Completes t := by
  rcases coreTurn_next h with ⟨i, -, hi⟩ | rfl
  · exact exec_completes hi
  · exact s.completes_report (by simp)

/-! The invariant over every turn. -/

theorem State.Completes.inv {s t : State} (h : s.Completes t) (hs : s.Inv) : t.Inv where
  status := by
    obtain ⟨e, he, hx⟩ := h.code
    exact ⟨he ▸ e.code_le, fun hb => by simp [h.busy] at hb, fun h2 => hx (ErrCode.code_eq_two (he ▸ h2))⟩
  inp := h.inp.wf hs.inp
  inRange := InPort.position_le _
  out := h.out hs.out
  tree := (h.tables ⟨hs.tree, hs.codes⟩).1
  codes := (h.tables ⟨hs.tree, hs.codes⟩).2

theorem State.inv_resetBy (s : State) : s.resetBy.Inv := State.inv_of_reset_values rfl rfl rfl rfl rfl

theorem hostWrite_inv {s : State} (h : s.Inv) (off : Nat) (v : Word) : (hostWrite off v s).Inv := by
  rcases hostWrite_cases off v s with e | e | e | ⟨d, e⟩ <;> rw [e]
  · exact h
  · exact h.congr ⟨h.status.errcode, h.status.running, h.status.truncated⟩ rfl rfl rfl rfl rfl
  · exact h.congr s.status.issue_wf rfl rfl rfl rfl rfl
  · exact h.congr h.status rfl rfl rfl rfl rfl

theorem hostAct_inv {a : HostAction} {s t : State} (h : s.Inv) (ht : hostAct a s = .next t) : t.Inv := by
  rcases hostAct_next ht with ⟨off, v, rfl⟩ | ⟨off, rfl⟩ | rfl | ⟨l, k, rfl⟩ | rfl | ⟨-, rfl⟩
  · exact hostWrite_inv h off v
  · obtain ⟨w, n, e⟩ := hostRead_cases off s
    rw [e]
    exact h.congr h.status rfl rfl rfl rfl rfl
  · exact h
  · exact h.congr h.status rfl rfl rfl rfl rfl
  · exact h.congr h.status rfl rfl rfl rfl rfl
  · exact s.inv_resetBy

end Sys2Proof.Machine

section
open Sys2Proof Sys2Proof.Machine

/-- Settles O21: the CORE's turn completes a command, which keeps each part of R53, and no action of the host touches
the tables or the writer but reset, which leaves the reset table. -/
theorem stepKeepsInv : Obligations.StepKeepsInv := by
  intro s t hs h
  rcases step_next h with ⟨-, hc⟩ | rfl | ⟨a, rest, -, -, ha⟩
  · exact (coreTurn_completes hc).inv hs
  · exact hs
  · have hs' : { s with host := rest }.Inv := hs.congr hs.status rfl rfl rfl rfl rfl
    exact hostAct_inv hs' ha

/-- Settles O20: the reset table gives each part of the invariant. -/
theorem resetMeetsInv : Obligations.ResetMeetsInv := State.inv_of_reset_values rfl rfl rfl rfl rfl

/-- Settles O17, clause by clause from what every command does that ends. -/
theorem completion : Obligations.Completion := by
  intro i s t h
  have hc := exec_completes h
  obtain ⟨e, he, -⟩ := hc.code
  exact ⟨hc.busy, hc.done, he ▸ e.code_le, hc.latch, hc.inp.stream.1, hc.inp.stream.2, hc.host, hc.lastRead,
    hc.hostCopy, hc.draws, hc.inp.inRange⟩

end
end

section
/-! PROOF. Who writes what: the writers of each piece of state, the life of OVERRUN (spec/10_state.md R33), and the
closed output (spec/44_sequencers.md R132). -/

section
open Sys2Proof Sys2Proof.Machine

/-- Settles O18: each command's next states name the fields they write, and the rest is the state before. -/
theorem writersOfState : Obligations.WritersOfState := by
  intro i s t h
  cases i with
  | nop => cases h; simp
  | clear => cases h; simp
  | peekFreq b => cases h; simp
  | peekNode n => cases h; simp
  | peekCode b w =>
    obtain ⟨r, a, e, rfl, -⟩ := execPeekCode_next h
    simp
  | openStreams => cases h; simp
  | seekIn => rcases execSeekIn_next h with rfl | rfl <;> simp
  | wrBit b =>
    have hp := (s.out.writeBit_appends b).counts.data_isPrefix
    rcases write_next h with rfl | ⟨-, rfl⟩ <;> simp [hp]
  | wrByte b =>
    have hp := (s.out.writeByte_appends b).counts.data_isPrefix
    rcases write_next h with rfl | ⟨-, rfl⟩ <;> simp [hp]
  | wrI64 =>
    have hp := (s.out.writeInt64_appends s.data).counts.data_isPrefix
    rcases write_next h with rfl | ⟨-, rfl⟩ <;> simp [hp]
  | wrClose =>
    have hp := s.out.flush_countsFrom.data_isPrefix
    cases h; simp [hp]
  | encSym b =>
    have hp := (s.out.writeBits_appends (s.codes.codeOf b)).counts.data_isPrefix
    rcases execEncSym_next h with ⟨e, -, rfl⟩ | ⟨-, -, -, rfl⟩ <;> simp [hp]
  | serTree =>
    rcases execSerTree_next h with rfl | ⟨-, -, o, l, rfl, ha⟩
    · simp
    · simp [ha.counts.data_isPrefix]
  | rdBit => obtain ⟨q, v, eof, rfl, -⟩ := execRdBit_next h; simp
  | rdByte => obtain ⟨q, v, eof, rfl, -⟩ := execRdByte_next h; simp
  | rdI64 => obtain ⟨q, v, eof, rfl, -⟩ := execRdI64_next h; simp
  | decSym => rcases execDecSym_next h with rfl | ⟨q, v, eof, e, rfl, -⟩ <;> simp
  | count => rcases execCount_next h with rfl | ⟨q, f, n, e, rfl, -⟩ <;> simp
  | build => cases h; simp
  | desTree => rcases execDesTree_next h with ⟨q, u, sh, rfl, -⟩ | ⟨q, eof, e, rfl, -⟩ <;> simp
  | codes => rcases execCodes_next h with rfl | ⟨-, c, -, rfl⟩ <;> simp
  | encode => obtain ⟨q, o, f, n, u, c, eof, e, rfl, -⟩ := execEncode_next h; simp
  | decode => obtain ⟨q, o, n, u, eof, e, rfl, -⟩ := execDecode_next h; simp

end

namespace Sys2Proof.Machine

/-- R33, R36: OVERRUN and DATA are CLEAR's alone among the commands. -/
theorem exec_keeps_overrun_data {i : Instr} {s t : State} (hi : i ≠ .clear) (h : exec i s = .next t) :
    t.status.overrun = s.status.overrun ∧ t.data = s.data := (writersOfState i s t h).1 hi

theorem hostWrite_keeps_overrun {s : State} (h : s.status.overrun = true) (off : Nat) (v : Word) :
    (hostWrite off v s).status.overrun = true := by
  rcases hostWrite_cases off v s with e | e | e | ⟨d, e⟩ <;> simp [e, h]

/-- R33: of the host's actions only reset clears OVERRUN. -/
theorem hostAct_keeps_overrun {a : HostAction} {s t : State} (ha : a ≠ .reset) (h : s.status.overrun = true)
    (ht : hostAct a s = .next t) : t.status.overrun = true := by
  rcases hostAct_next ht with ⟨off, v, rfl⟩ | ⟨off, rfl⟩ | rfl | ⟨l, k, rfl⟩ | rfl | ⟨hr, -⟩
  · exact hostWrite_keeps_overrun h off v
  · obtain ⟨w, n, e⟩ := hostRead_cases off s
    rw [e]; exact h
  · exact h
  · exact h
  · exact h
  · exact absurd hr ha

/-- R33: of the CORE's turns only CLEAR's clears OVERRUN. -/
theorem coreTurn_keeps_overrun {s t : State} (hd : decode s.latch ≠ .ok .clear) (h : s.status.overrun = true)
    (ht : coreTurn s = .next t) : t.status.overrun = true := by
  rcases coreTurn_next ht with ⟨i, hi, hx⟩ | rfl
  · have hne : i ≠ .clear := by rintro rfl; exact hd hi
    rw [(exec_keeps_overrun_data hne hx).1, h]
  · exact h

/-- R33: a refused write of CMD or of a half of DATA. -/
theorem step_write_busy {s : State} {off : Nat} {v : Word} {rest : List HostAction} (hb : s.status.busy = true)
    (ho : off ∈ [0x04, 0x10, 0x14]) (hh : s.host = .write (Config.base + off) 4 v :: rest) :
    step s = .next { s with host := rest, status := { s.status with overrun := true } } := by
  obtain ⟨hlt, h4⟩ := lt_and_aligned_of_mem ho
  rw [step_write hlt h4 hh, hostWrite_busy (s := { s with host := rest }) hb ho]
  rfl

end Sys2Proof.Machine

section
open Sys2Proof Sys2Proof.Machine

/-- Settles O8: a refused write is `overrun`; every other turn keeps OVERRUN but the CORE's of CLEAR and a reset. -/
theorem overrunSticky : Obligations.OverrunSticky := by
  refine ⟨fun s off v rest hb ho hh => step_write_busy hb ho hh, fun s t h h1 h0 => ?_, ?_, ?_⟩
  · rcases step_next h with ⟨hc, ht⟩ | rfl | ⟨a, rest, hc, hh, ha⟩
    · refine .inl ⟨hc, ?_⟩
      by_contra hd
      simp [coreTurn_keeps_overrun hd h1 ht] at h0
    · simp [h1] at h0
    · refine .inr ⟨hc, rest, ?_⟩
      by_contra hr
      have hne : a ≠ .reset := by rintro rfl; exact hr hh
      simp [hostAct_keeps_overrun (s := { s with host := rest }) hne h1 ha] at h0
  · intro s t h
    cases h; rfl
  · intro s rest hh
    exact ⟨_, (step_hostAct hh (by simp)).2, rfl⟩

/-- Settles O58: what ENCODE and DECODE leave is a finished output on every exit, and each writing command tests
OUT_CLOSED first. -/
theorem sequencersClose : Obligations.SequencersClose := by
  refine ⟨fun i s t hi h => ?_, fun i s hc hi => ?_⟩
  · have hf : t.out.Finished := by
      rcases hi with rfl | rfl
      · obtain ⟨q, o, f, n, u, c, eof, e, rfl, -, -, -, -, ho, -⟩ := execEncode_next h
        exact ho
      · obtain ⟨q, o, n, u, eof, e, rfl, -, -, -, -, ho, -⟩ := execDecode_next h
        exact ho
    exact ⟨hf.closed, hf.wcnt, hf.wbuf, hf.cnt⟩
  · rcases hi with ⟨b, rfl⟩ | ⟨b, rfl⟩ | ⟨b, rfl⟩ | rfl | rfl <;> exact if_pos hc

end
end

section
/-! PROOF. The register window as the host reads it (spec/10_state.md R25 to R42, R62). -/

namespace Sys2Proof.Machine

/-! Reading a register. -/

/-- R25, R26: CMD and the offsets with no register read 0. -/
theorem readReg_zero {off : Nat} (h : off ∈ [0x04, 0x0C] ∨ 0x44 ≤ off) (s : State) : readReg off s = 0#32 := by
  simp only [List.mem_cons, List.not_mem_nil, or_false] at h
  revert h
  unfold readReg
  split <;> intro h
  case h_2 => rfl
  case h_17 => rfl
  all_goals omega

theorem readReg_host (off : Nat) (s : State) (l : List HostAction) :
    readReg off { s with host := l } = readReg off s := by
  unfold readReg
  split <;> rfl

/-- R67: with BUSY = 0 a read inside the window returns the register and changes nothing else. -/
theorem readsAs_readReg {s : State} (hb : s.status.busy = false) {off : Nat} (hlt : off < 256) (h4 : off % 4 = 0) :
    ReadsAs s off (readReg off s) := by
  intro rest
  rw [step_read (rest := rest) hlt h4 rfl]
  simp [hostRead, hb, readReg_host]

theorem readsAs_of_readReg {s : State} (hb : s.status.busy = false) {off : Nat} (hlt : off < 256) (h4 : off % 4 = 0)
    {v : Word} (h : readReg off s = v) : ReadsAs s off v := h ▸ readsAs_readReg hb hlt h4

/-- What a read returns is one value. -/
theorem ReadsAs.unique {s : State} {off : Nat} {v w : Word} (hv : ReadsAs s off v) (hw : ReadsAs s off w) : v = w := by
  have h := (hv []).symm.trans (hw [])
  injection h with h
  exact Option.some.inj (congrArg State.lastRead h)

theorem ReadsAs.eq_readReg {s : State} (hb : s.status.busy = false) {off : Nat} (hlt : off < 256) (h4 : off % 4 = 0)
    {w : Word} (h : ReadsAs s off w) : w = readReg off s :=
  h.unique (readsAs_readReg hb hlt h4)

/-! The fields of the registers that are views. -/

@[simp] theorem getElem_flagBit (b : Bool) : (flagBit b)[0] = b := by cases b <;> rfl

theorem Status.err_eq (st : Status) : st.err = decide (st.errcode ≠ 0#4) := by
  by_cases h : st.errcode = 0#4 <;> simp [Status.err, h]

theorem statusWord_flags (s : State) :
    s.statusWord.getLsbD 0 = s.status.busy ∧ s.statusWord.getLsbD 1 = s.status.done ∧
      s.statusWord.getLsbD 2 = decide (s.status.errcode ≠ 0#4) ∧ s.statusWord.getLsbD 3 = s.status.eof ∧
      s.statusWord.getLsbD 4 = s.status.overrun ∧ s.statusWord.getLsbD 5 = s.out.closed ∧
      s.statusWord.getLsbD 6 = s.inp.seekable ∧ s.statusWord.getLsbD 7 = false := by
  rw [← Status.err_eq]
  simp only [State.statusWord, BitVec.getLsbD_append]
  simp

theorem statusWord_errcode (s : State) :
    s.statusWord.extractLsb' 8 4 = s.status.errcode ∧ s.statusWord.extractLsb' 12 20 = 0#20 := by
  unfold State.statusWord
  simp (disch := decide) only [BitVec.extractLsb'_append_eq_of_le, BitVec.extractLsb'_append_eq_of_add_le]
  simp

theorem treeWord_fields (s : State) :
    s.treeWord.extractLsb' 0 9 = s.tree.root ∧ s.treeWord.getLsbD 9 = s.tree.rootValid ∧
      s.treeWord.getLsbD 10 = s.codes.valid ∧ s.treeWord.getLsbD 11 = false ∧
      s.treeWord.extractLsb' 12 8 = s.tree.nint ∧ s.treeWord.extractLsb' 20 9 = s.tree.nleaf ∧
      s.treeWord.extractLsb' 29 3 = 0#3 := by
  unfold State.treeWord
  simp (disch := decide) only [BitVec.extractLsb'_append_eq_of_le, BitVec.extractLsb'_append_eq_of_add_le,
    BitVec.getLsbD_append]
  simp

theorem bitposWord_fields (s : State) :
    s.bitposWord.extractLsb' 0 3 = s.out.wcnt ∧ s.bitposWord.extractLsb' 3 5 = 0#5 ∧
      s.bitposWord.extractLsb' 8 8 = s.out.wbuf ∧ s.bitposWord.extractLsb' 16 3 = s.inp.rcnt ∧
      s.bitposWord.extractLsb' 19 5 = 0#5 ∧ s.bitposWord.extractLsb' 24 8 = s.inp.rbuf := by
  unfold State.bitposWord
  simp (disch := decide) only [BitVec.extractLsb'_append_eq_of_le, BitVec.extractLsb'_append_eq_of_add_le]
  simp

/-- R29: STATUS as it reads while BUSY = 1. -/
theorem readRegBusy_status (w : Word) (s : State) :
    (readRegBusy 0x08 w s).getLsbD 0 = s.status.busy ∧ (readRegBusy 0x08 w s).getLsbD 1 = s.status.done := by
  rw [readRegBusy, if_pos rfl]
  simp only [BitVec.getLsbD_append]
  simp

/-! The halves of DATA. -/

theorem loHalf_append (u v : Word) : loHalf (u ++ v) = v := BitVec.extractLsb'_append_eq_right

theorem hiHalf_append (u v : Word) : hiHalf (u ++ v) = u := BitVec.extractLsb'_append_eq_left

/-- R36, R62: an accepted write of a half of DATA replaces it and keeps the other. -/
theorem hostWrite_dataLo {s : State} (hb : s.status.busy = false) (v : Word) :
    hostWrite 0x10 v s = { s with data := hiHalf s.data ++ v } := by
  simp [hostWrite, hb]

theorem hostWrite_dataHi {s : State} (hb : s.status.busy = false) (v : Word) :
    hostWrite 0x14 v s = { s with data := v ++ loHalf s.data } := by
  simp [hostWrite, hb]

/-- R25: DATA reads back what was written. -/
theorem hostWrite_readback {s : State} (hb : s.status.busy = false) {off : Nat} (ho : off ∈ [0x10, 0x14]) (v : Word) :
    ReadsAs (hostWrite off v s) off v := by
  simp only [List.mem_cons, List.not_mem_nil, or_false] at ho
  rcases ho with rfl | rfl
  · rw [hostWrite_dataLo hb]
    refine readsAs_of_readReg ?_ (by omega) rfl ?_
    · exact hb
    · exact loHalf_append _ v
  · rw [hostWrite_dataHi hb]
    refine readsAs_of_readReg ?_ (by omega) rfl ?_
    · exact hb
    · exact hiHalf_append v _

end Sys2Proof.Machine

section
open Sys2Proof Sys2Proof.Machine

/-- Settles O10: writes outside CMD and DATA are ignored, and each register that reads a constant or a reserved bit is
read off its word. -/
theorem registerAccessClasses : Obligations.RegisterAccessClasses := by
  refine ⟨fun s k v rest hk hoff hh => ?_, fun s k hb hk hoff => ?_, fun s t off v rest hb ho hh ht => ?_,
    fun s hb => ⟨fun w hw => ?_, fun w hw => ?_, fun w hw => ?_⟩,
    fun s off v rest hb ho hh => step_write_busy hb ho hh⟩
  · rw [step_write (by omega) (by omega) hh, hostWrite_ignored hoff]
  · exact readsAs_of_readReg hb (by omega) (by omega) (readReg_zero hoff s)
  · obtain ⟨hlt, h4⟩ := lt_and_aligned_of_mem (List.mem_cons_of_mem _ ho)
    rw [step_write hlt h4 hh] at ht
    cases ht
    exact hostWrite_readback (s := { s with host := rest }) hb ho v
  · obtain ⟨-, -, -, -, -, -, -, h7⟩ := statusWord_flags s
    rw [hw.eq_readReg hb (by omega) (by omega)]
    exact ⟨h7, (statusWord_errcode s).2⟩
  · obtain ⟨-, -, -, h11, -, -, h29⟩ := treeWord_fields s
    rw [hw.eq_readReg hb (by omega) (by omega)]
    exact ⟨h11, h29⟩
  · obtain ⟨-, h3, -, -, h19, -⟩ := bitposWord_fields s
    rw [hw.eq_readReg hb (by omega) (by omega)]
    exact ⟨h3, h19⟩

/-- Settles O11: a read at each offset gives its register, whose fields are those of its word. -/
theorem idleReads : Obligations.IdleReads := by
  intro s hb
  have hread (off : Nat) (hoff : off < 256 ∧ off % 4 = 0 := by decide) : ReadsAs s off (readReg off s) :=
    readsAs_readReg hb hoff.1 hoff.2
  obtain ⟨h0, h1, h2, h3, h4, h5, h6, h7⟩ := statusWord_flags s
  exact ⟨hread 0x00, hread 0x04,
    ⟨s.statusWord, hread 0x08, h0.trans hb, h1, h2, h3, h4, h5, h6, h7, statusWord_errcode s⟩,
    hread 0x10, hread 0x14, hread 0x18, hread 0x1C, hread 0x20, hread 0x24,
    ⟨s.treeWord, hread 0x28, treeWord_fields s⟩, ⟨s.bitposWord, hread 0x2C, bitposWord_fields s⟩,
    ⟨s.inp.position, hread 0x30, hread 0x34, s.inp.position_le, InPort.position_of_inRange,
      InPort.toNat_position_of_lt⟩, hread 0x38, hread 0x3C, hread 0x40⟩

/-- Settles O12: a read while BUSY = 1 takes a draw, whose two low bits STATUS replaces. -/
theorem busyReads : Obligations.BusyReads := by
  intro s k rest hb hk hh
  refine ⟨readRegBusy (4 * k) (Config.freeRead s.draws) { s with host := rest }, ?_, fun h8 => ?_⟩
  · rw [step_read (by omega) (by omega) hh]
    simp [hostRead, hb]
  · rw [h8]
    obtain ⟨h0, h1⟩ := readRegBusy_status (Config.freeRead s.draws) { s with host := rest }
    exact ⟨h0.trans hb, h1⟩

end
end

section
/-! PROOF. R36: no command but WR_I64 reads DATA. -/

namespace Sys2Proof.Machine

/-- An answer with DATA set to `d` in its next state. -/
def withData (d : Dword) : Result → Result
  | .next t => .next { t with data := d }
  | .fault r => .fault r
  | .refused r => .refused r

/-- A meaning that neither reads nor writes DATA. -/
def IgnoresData (f : State → Result) : Prop := ∀ (s : State) (d : Dword), f { s with data := d } = withData d (f s)

theorem raiseReading_ignoresData (e : ErrCode) : IgnoresData (raiseReading e) := by
  intro s d
  rw [raiseReading_eq, raiseReading_eq]
  split <;> rfl

theorem finishRead_ignoresData (r : Option Dword) (p : InPort) : IgnoresData (finishRead r p) := by
  intro s d
  cases r <;> rfl

theorem execPeekCode_ignoresData (b : Byte) (w : BitVec 2) : IgnoresData (execPeekCode b w) := by
  intro s d
  unfold execPeekCode
  split <;> rfl

theorem execSeekIn_ignoresData : IgnoresData execSeekIn := by
  intro s d
  unfold execSeekIn
  split <;> rfl

theorem execWrBit_ignoresData (b : Bool) : IgnoresData (execWrBit b) := by
  intro s d
  unfold execWrBit
  split <;> rfl

theorem execWrByte_ignoresData (b : Byte) : IgnoresData (execWrByte b) := by
  intro s d
  unfold execWrByte
  split <;> rfl

theorem execRdBit_ignoresData : IgnoresData execRdBit := by
  intro s d
  dsimp only [execRdBit]
  cases s.inp.readBit with
  | none => exact finishRead_ignoresData none s.inp s d
  | some r => exact finishRead_ignoresData _ r.2 s d

theorem execCount_ignoresData : IgnoresData execCount := by
  intro s d
  dsimp only [execCount]
  split
  · split <;> rfl
  · rfl

theorem execSerTree_ignoresData : IgnoresData execSerTree := by
  intro s d
  dsimp only [execSerTree]
  split
  · rfl
  · split
    · cases ser s.tree Config.stackDepth s.tree.root s.out <;> rfl
    · rfl

theorem execDesTree_ignoresData : IgnoresData execDesTree := by
  intro s d
  dsimp only [execDesTree]
  cases readTree s.inp with
  | node r p t => rfl
  | stop e p => exact raiseReading_ignoresData e { s.invalidateTree with inp := p } d
  | overflow => rfl

theorem execCodes_ignoresData : IgnoresData execCodes := by
  intro s d
  dsimp only [execCodes]
  split
  · cases codesOf s.tree <;> rfl
  · rfl

theorem execEncSym_ignoresData (b : Byte) : IgnoresData (execEncSym b) := by
  intro s d
  dsimp only [execEncSym]
  split
  · rfl
  · split
    · rfl
    · split <;> rfl

theorem execDecSym_ignoresData : IgnoresData execDecSym := by
  intro s d
  dsimp only [execDecSym]
  split
  · cases s.tree.readSym s.inp with
    | leaf n p => rfl
    | stop e p => exact raiseReading_ignoresData e { s with inp := p, result := 0#64 } d
    | overflow => rfl
  · rfl

theorem encodeBody_ignoresData : IgnoresData encodeBody := by
  intro s d
  dsimp only [encodeBody]
  cases ser s.tree Config.stackDepth s.tree.root s.out with
  | none => rfl
  | some o =>
    dsimp only
    cases encodeSyms s.tree s.codes s.length.toNat s.inp.seek0 o <;> rfl

theorem encodeCounted_ignoresData : IgnoresData encodeCounted := by
  intro s d
  dsimp only [encodeCounted, State.build_tree]
  split
  · rfl
  · cases codesOf (buildTree s.freq) with
    | none => rfl
    | some c => exact encodeBody_ignoresData { s.build with codes := c, out := s.out.writeInt64 s.length } d

theorem execEncode_unseekable {s : State} (h : s.inp.seekable = false) :
    execEncode s = raise .unseekableInput s.openStreams.invalidateTree.closeOut := if_neg (by simp [h])

theorem execEncode_tooLong {s : State} (h : s.inp.seekable = true) (hl : (countPass s.inp.seek0).tooLong = true) :
    execEncode s = raise .badLength (s.openStreams.invalidateTree.counted (countPass s.inp.seek0)).closeOut :=
  (if_pos h).trans (if_pos hl)

theorem execEncode_counted {s : State} (h : s.inp.seekable = true) (hl : (countPass s.inp.seek0).tooLong = false) :
    execEncode s = encodeCounted (s.openStreams.invalidateTree.counted (countPass s.inp.seek0)) :=
  (if_pos h).trans (if_neg (by simp [hl]))

theorem execEncode_ignoresData : IgnoresData execEncode := by
  intro s d
  cases h : s.inp.seekable with
  | false => rw [execEncode_unseekable h, execEncode_unseekable (s := { s with data := d }) h]; rfl
  | true =>
    cases hl : (countPass s.inp.seek0).tooLong with
    | true => rw [execEncode_tooLong h hl, execEncode_tooLong (s := { s with data := d }) h hl]; rfl
    | false =>
      rw [execEncode_counted h hl, execEncode_counted (s := { s with data := d }) h hl]
      exact encodeCounted_ignoresData (s.openStreams.invalidateTree.counted (countPass s.inp.seek0)) d

theorem decodeBody_ignoresData : IgnoresData decodeBody := by
  intro s d
  dsimp only [decodeBody]
  cases readTree s.inp with
  | overflow => rfl
  | stop e p => exact raiseReading_ignoresData e { s.invalidateTree with inp := p }.closeOut d
  | node r p t =>
    dsimp only
    cases decodeSyms (t.withRoot r) s.length.toNat p s.out with
    | done p o => rfl
    | stop e p o =>
      exact raiseReading_ignoresData e { s with tree := t.withRoot r, inp := p, out := o }.closeOut d
    | overflow => rfl

theorem decodeLength_ignoresData (h : Dword) : IgnoresData (decodeLength h) := by
  intro s d
  dsimp only [decodeLength]
  split
  · rfl
  · split
    · rfl
    · exact decodeBody_ignoresData { s with length := h } d

theorem execDecode_ignoresData : IgnoresData execDecode := by
  intro s d
  dsimp only [execDecode, State.invalidateTree_inp, State.openStreams_inp]
  obtain ⟨r, p⟩ := s.inp.seek0.readInt64
  cases r with
  | none => rfl
  | some h => exact decodeLength_ignoresData h { s.openStreams.invalidateTree with inp := p } d

theorem exec_ignoresData {i : Instr} (hw : i ≠ .wrI64) (hc : i ≠ .clear) : IgnoresData (exec i) := by
  cases i with
  | nop => exact fun _ _ => rfl
  | clear => exact absurd rfl hc
  | peekFreq b => exact fun _ _ => rfl
  | peekNode n => exact fun _ _ => rfl
  | peekCode b w => exact execPeekCode_ignoresData b w
  | openStreams => exact fun _ _ => rfl
  | seekIn => exact execSeekIn_ignoresData
  | wrBit b => exact execWrBit_ignoresData b
  | wrByte b => exact execWrByte_ignoresData b
  | wrI64 => exact absurd rfl hw
  | wrClose => exact fun _ _ => rfl
  | rdBit => exact execRdBit_ignoresData
  | rdByte => exact fun s d => finishRead_ignoresData _ _ s d
  | rdI64 => exact fun s d => finishRead_ignoresData _ _ s d
  | count => exact execCount_ignoresData
  | build => exact fun _ _ => rfl
  | serTree => exact execSerTree_ignoresData
  | desTree => exact execDesTree_ignoresData
  | codes => exact execCodes_ignoresData
  | encSym b => exact execEncSym_ignoresData b
  | decSym => exact execDecSym_ignoresData
  | encode => exact execEncode_ignoresData
  | decode => exact execDecode_ignoresData

end Sys2Proof.Machine

section
open Sys2Proof Sys2Proof.Machine

/-- Settles O9: an accepted write puts a half beside the other, and every command but CLEAR and WR_I64 has a meaning
that ignores DATA. -/
theorem dataRegister : Obligations.DataRegister := by
  refine ⟨fun s v rest hb hh => ⟨hiHalf s.data ++ v, ?_, loHalf_append _ v, hiHalf_append _ v⟩,
    fun s v rest hb hh => ⟨v ++ loHalf s.data, ?_, hiHalf_append v _, loHalf_append v _⟩, fun i s t h => ?_,
    fun i s t d hw h => ?_, rfl⟩
  · rw [step_write (by omega) (by omega) hh, hostWrite_dataLo (s := { s with host := rest }) hb]
  · rw [step_write (by omega) (by omega) hh, hostWrite_dataHi (s := { s with host := rest }) hb]
  · by_cases hi : i = .clear
    · subst hi; cases h; rfl
    · rw [if_neg hi]; exact (exec_keeps_overrun_data hi h).2
  · by_cases hi : i = .clear
    · subst hi; cases h; rfl
    · rw [if_neg hi, exec_ignoresData hw hi s d, h]; rfl

end
end

section
/-! PROOF. What the invariant says in R53's own terms, and the reading of one symbol (spec/43_content_codec.md R120). -/

namespace Sys2Proof.Machine

/-! What a held shape says of the store (R45, R53 (1)). -/

@[simp] theorem Shape.mem_slots_leaf {b : Byte} {n : NodeIdx} : n ∈ (Shape.leaf b).slots ↔ n = leafIdx b := by
  simp [Shape.slots, Shape.leaves, Shape.internals]

/-- Every slot of a shape is reached from its root. -/
theorem Shape.Holds.exists_follow {t : Tree} {p : Option NodeIdx} {sh : Shape} (h : sh.Holds t p) {n : NodeIdx}
    (hn : n ∈ sh.slots) : ∃ l, t.follow sh.index l = n := by
  induction sh generalizing p with
  | leaf b => exact ⟨[], (Shape.mem_slots_leaf.mp hn).symm⟩
  | node i l r ihl ihr =>
    obtain ⟨-, -, -, hleft, hright, -, -, hl, hr⟩ := h
    rcases Shape.mem_slots_node.mp hn with rfl | hn | hn
    · exact ⟨[], rfl⟩
    · obtain ⟨w, hw⟩ := ihl hl hn
      exact ⟨false :: w, by simpa [Tree.follow, hleft] using hw⟩
    · obtain ⟨w, hw⟩ := ihr hr hn
      exact ⟨true :: w, by simpa [Tree.follow, hright] using hw⟩

/-- The root of a held shape is a valid node with the parent link given. -/
theorem Shape.Holds.root_links {t : Tree} {p : Option NodeIdx} {sh : Shape} (h : sh.Holds t p) :
    (t.nodeAt sh.index).valid = true ∧ (t.nodeAt sh.index).hasParent = p.isSome ∧
      (t.nodeAt sh.index).parent = p.getD 0#9 := by
  cases sh with
  | leaf b =>
    obtain ⟨hv, -, -, -, hp, hq⟩ := h
    exact ⟨hv, hp, hq⟩
  | node i l r =>
    obtain ⟨-, hv, -, -, -, hp, hq, -, -⟩ := h
    exact ⟨hv, hp, hq⟩

/-- R53 (1): the children of an internal node of a shape are valid, and have it as their parent. -/
theorem Shape.Holds.children {t : Tree} {p : Option NodeIdx} {sh : Shape} (h : sh.Holds t p) {n : NodeIdx}
    (hn : n ∈ sh.slots) (hi : (t.nodeAt n).internal = true) {m : NodeIdx}
    (hm : m ∈ [(t.nodeAt n).left, (t.nodeAt n).right]) :
    (t.nodeAt m).valid = true ∧ (t.nodeAt m).hasParent = true ∧ (t.nodeAt m).parent = n := by
  induction sh generalizing p with
  | leaf b =>
    obtain ⟨-, hleaf, -⟩ := h
    obtain rfl := Shape.mem_slots_leaf.mp hn
    simp [hleaf] at hi
  | node i l r ihl ihr =>
    obtain ⟨-, -, -, hleft, hright, -, -, hl, hr⟩ := h
    rcases Shape.mem_slots_node.mp hn with rfl | hn | hn
    · simp only [List.mem_cons, List.not_mem_nil, or_false, hleft, hright] at hm
      rcases hm with rfl | rfl
      · exact hl.root_links
      · exact hr.root_links
    · exact ihl hl hn
    · exact ihr hr hn

/-- R46: NLEAF counts the valid leaf slots. -/
theorem Tree.Is.length_leaves {t : Tree} {sh : Shape} (h : t.Is sh) :
    sh.leaves.length = (allBytes.filter fun b => (t.nodeAt (leafIdx b)).valid).length := by
  refine ((List.perm_ext_iff_of_nodup h.leavesDistinct (nodup_allBytes.filter _)).mpr fun b => ?_).length_eq
  simp [List.mem_filter, mem_allBytes, h.leaf_valid]

/-- R47: a code table is known from its entries. -/
theorem Codes.ext_entries {c d : Codes} (hv : c.valid = d.valid) (hl : ∀ b, c.lenAt b = d.lenAt b)
    (hb : ∀ b, c.bitsAt b = d.bitsAt b) : c = d := by
  obtain ⟨cl, cb, cv⟩ := c
  obtain ⟨dl, db, dv⟩ := d
  simp only [Codes.mk.injEq]
  refine ⟨Vector.ext fun i hi => ?_, Vector.ext fun i hi => ?_, hv⟩
  · simpa [Codes.lenAt, Nat.mod_eq_of_lt hi] using hl (BitVec.ofNat 8 i)
  · simpa [Codes.bitsAt, Nat.mod_eq_of_lt hi] using hb (BitVec.ofNat 8 i)

/-- R121: a shape has one code table. -/
theorem Codes.Hold.unique {c d : Codes} {sh : Shape} (hc : c.Hold sh) (hd : d.Hold sh) (hv : c.valid = d.valid) :
    c = d :=
  Codes.ext_entries hv (fun b => (hc b).1.trans (hd b).1.symm) fun b => (hc b).2.trans (hd b).2.symm

/-- R53 (3): a valid code table is the one CODES makes. -/
theorem State.CodesWf.codesOf {s : State} (h : s.CodesWf) (hv : s.codes.valid = true) :
    s.tree.rootValid = true ∧ codesOf s.tree = some s.codes := by
  obtain ⟨sh, ht, hc⟩ := (if_pos hv).mp h
  obtain ⟨c, hs, hcv, hch⟩ := ht.codesOf
  exact ⟨ht.rootValid, hs.trans (congrArg some (hch.unique hc (hcv.trans hv.symm)))⟩

/-! One symbol read (R120). -/

theorem Tree.Is.readSym_code {t : Tree} {sh : Shape} (h : t.Is sh) {p : InPort} (hw : p.Wf) (hs : p.Short) {b : Byte}
    (hb : b ∈ sh.leaves) {rest : List Bool} (hp : p.bits = sh.codeFor b ++ rest) :
    ∃ q, t.readSym p = .leaf (leafIdx b) q ∧ q.bits = rest ∧ p.SameStream q := by
  obtain ⟨q, hq, hr, hk, -⟩ := descend_path h.holds h.leavesDistinct Config.stackDepth
    (Nat.lt_succ_of_le h.internals_le) (Shape.codeFor_of_mem hb) hs hw hp
  exact ⟨q, by rw [Tree.readSym, h.root]; exact hq, hr, hk⟩

theorem Tree.Is.readSym_cutShort {t : Tree} {sh : Shape} (h : t.Is sh) {p : InPort} (hs : p.Short) {b : Byte}
    (hb : b ∈ sh.leaves) (hp : CutShort p.bits (sh.codeFor b)) :
    ∃ q, t.readSym p = .stop .truncatedArchive q ∧ q.bits = [] ∧ p.SameStream q := by
  obtain ⟨q, hq, hr⟩ := descend_short h.holds Config.stackDepth (Nat.lt_succ_of_le h.internals_le)
    (Shape.codeFor_of_mem hb) hs hp
  rw [← h.root] at hq
  exact ⟨q, hq, hr, ((descend_keeps _ _ _ _).2 _ _ hq).stream⟩

theorem execDecSym_leaf {s : State} {b : Byte} {q : InPort} (hr : s.tree.rootValid = true)
    (h : s.tree.readSym s.inp = .leaf (leafIdx b) q) :
    execDecSym s = .next ({ s with inp := q, result := b.setWidth 64 }.complete .ok) := by
  simp [execDecSym, hr, h]

theorem execDecSym_truncated {s : State} {q : InPort} (hr : s.tree.rootValid = true)
    (h : s.tree.readSym s.inp = .stop .truncatedArchive q) :
    execDecSym s = .next ({ s with
      inp := q, result := 0#64, status := { s.status with eof := true } }.complete .truncatedArchive) := by
  simp only [execDecSym, hr, h, if_true]
  rfl

end Sys2Proof.Machine

section
open Sys2Proof Sys2Proof.Machine

/-- Settles O22: the shape that the store holds gives the clauses on the tree, and the rest are the invariant's
parts. -/
theorem invGivesR53 : Obligations.InvGivesR53 := by
  intro s hs
  refine ⟨fun hr => ?_, fun hr => ?_, hs.codes.codesOf, fun i hi => getLsbD_of_toNat_lt hs.out.zeroAbove hi, hs.inp,
    hs.inRange⟩
  · obtain ⟨sh, ht⟩ := hs.tree.exists_is hr
    obtain ⟨hv, hp, -⟩ := ht.holds.root_links
    rw [ht.root, ht.nint, ht.nleaf]
    exact ⟨hv, hp, fun n hn => ht.holds.exists_follow (ht.reachable n hn),
      fun n hn hi m hm => ht.holds.children (ht.reachable n hn) hi hm, sh.length_leaves, ht.length_leaves⟩
  · rw [hs.tree.eq_empty hr]
    exact ⟨fun n => by rw [Tree.nodeAt_empty]; rfl, rfl, rfl⟩

/-- Settles O48: the descent follows the code that comes next, or stops where the input ends inside it. -/
theorem decSymCommand : Obligations.DecSymCommand := by
  refine ⟨by decide, fun s hr => if_neg (by simp [hr]), fun s sh b rest ht hw hs hb hp => ?_,
    fun s sh b ht hw hs hb hp => ?_⟩
  · obtain ⟨q, hq, hr, hk⟩ := ht.readSym_code hw hs hb hp
    exact ⟨q, execDecSym_leaf ht.rootValid hq, hr, hk.1, hk.2⟩
  · obtain ⟨q, hq, hr, hk⟩ := ht.readSym_cutShort hs hb hp
    exact ⟨q, execDecSym_truncated ht.rootValid hq, hr, hk.1, hk.2⟩

end
end

section
/-! PROOF. What the host may not do (spec/20_memory.md R55, spec/70_reset_and_hazards.md R161), and what its actions leave
of HCORE while no command runs (R70, R157). -/

namespace Sys2Proof.Machine

/-! Accesses that the spec does not define. -/

/-- R55: an access of another width, wherever it goes. -/
theorem busOffset_of_size_ne {size : Nat} (hs : size ≠ 4) (addr : Nat) :
    busOffset addr size = .error .busAccessSize := if_pos hs

/-- R55: an access inside the window at an offset that is no multiple of 4. -/
theorem busOffset_base_add_misaligned {off : Nat} (hlt : off < 256) (h4 : off % 4 ≠ 0) :
    busOffset (Config.base + off) 4 = .error .busAccessMisaligned := by
  simp [busOffset, Config.regSpace, hlt, h4]

/-- R55: reads and writes are refused alike. -/
theorem step_refused {s : State} {addr size : Nat} {v : Word} {rest : List HostAction} {r : Refusal}
    (hr : busOffset addr size = .error r)
    (hh : s.host = .read addr size :: rest ∨ s.host = .write addr size v :: rest) : step s = .refused r := by
  rcases hh with hh | hh <;> rw [(step_hostAct hh (by simp)).2, hostAct, hr]

/-! What the host's actions leave. -/

/-- R70, R157: the part of HCORE that only a command or reset changes, which is the tables, the results, the output port,
and of the input port the counter and the bit buffer. -/
def State.commandPart (s : State) :
    Dword × Word × Dword × Vector Dword 256 × Tree × Codes × OutPort × Dword × Byte × BitVec 3 :=
  (s.result, s.aux, s.length, s.freq, s.tree, s.codes, s.out, s.inp.pos, s.inp.rbuf, s.inp.rcnt)

theorem State.commandPart_eq_iff {s t : State} :
    t.commandPart = s.commandPart ↔
      t.result = s.result ∧ t.aux = s.aux ∧ t.length = s.length ∧ t.freq = s.freq ∧ t.tree = s.tree ∧
        t.codes = s.codes ∧ t.out = s.out ∧ t.inp.pos = s.inp.pos ∧ t.inp.rbuf = s.inp.rbuf ∧
        t.inp.rcnt = s.inp.rcnt := by
  simp only [State.commandPart, Prod.mk.injEq]

theorem hostWrite_commandPart (off : Nat) (v : Word) (s : State) :
    (hostWrite off v s).commandPart = s.commandPart := by
  rcases hostWrite_cases off v s with e | e | e | ⟨d, e⟩ <;> rw [e] <;> rfl

theorem hostRead_commandPart (off : Nat) (s : State) : (hostRead off s).commandPart = s.commandPart := by
  obtain ⟨w, n, e⟩ := hostRead_cases off s
  rw [e]; rfl

/-- R157: of the host's actions only reset changes it. -/
theorem hostAct_commandPart {a : HostAction} {s t : State} (ha : a ≠ .reset) (ht : hostAct a s = .next t) :
    t.commandPart = s.commandPart := by
  rcases hostAct_next ht with ⟨off, v, rfl⟩ | ⟨off, rfl⟩ | rfl | ⟨l, k, rfl⟩ | rfl | ⟨hr, -⟩
  · exact hostWrite_commandPart off v s
  · exact hostRead_commandPart off s
  · rfl
  · rfl
  · rfl
  · exact absurd hr ha

/-- R6: the CORE takes a turn only while a command runs. -/
theorem coreMoves_of_idle {s : State} (hb : s.status.busy = false) : s.coreMoves = false := by
  simp [State.coreMoves, hb]

/-- R70, R157. -/
theorem step_commandPart {s t : State} (hb : s.status.busy = false) (hr : ∀ rest, s.host ≠ .reset :: rest)
    (h : step s = .next t) : t.commandPart = s.commandPart := by
  rcases step_next h with ⟨hc, -⟩ | rfl | ⟨a, rest, -, hh, ht⟩
  · exact absurd hc (by simp [coreMoves_of_idle hb])
  · rfl
  · have ha : a ≠ .reset := by rintro rfl; exact hr rest hh
    exact hostAct_commandPart (s := { s with host := rest }) ha ht

/-- R157 (log 20): with no action to come an idle machine steps to itself. -/
theorem step_idle {s : State} (hb : s.status.busy = false) (hh : s.host = []) : step s = .next s := by
  simp [step, turn, coreMoves_of_idle hb, hh]

end Sys2Proof.Machine

section
open Sys2Proof Sys2Proof.Machine

/-- Settles O19: with BUSY = 0 a turn is idle or an action of the host, and only reset among them changes the part of
HCORE that is the commands'. -/
theorem idleKeepsState : Obligations.IdleKeepsState := by
  refine ⟨fun s t hb h hr => State.commandPart_eq_iff.mp (step_commandPart hb hr h), fun s hb hh => step_idle hb hh,
    fun s l seek rest hb hh => ?_, fun s rest hb hh => ?_⟩
  · exact (step_hostAct hh (by simp)).2.trans (if_neg (by simp [hb]))
  · exact (step_hostAct hh (by simp)).2.trans (if_neg (by simp [hb]))

/-- Settles O13: the bus access has no offset in the window, and the two moves of the host test BUSY first. -/
theorem hostStops : Obligations.HostStops := by
  refine ⟨fun s addr size v rest hs hh => step_refused (busOffset_of_size_ne hs addr) hh,
    fun s off v rest hlt h4 hh => step_refused (busOffset_base_add_misaligned hlt h4) hh,
    fun s l seek rest hb hh => ?_, fun s rest hb hh => ?_⟩
  · exact (step_hostAct hh (by simp)).2.trans (if_pos hb)
  · exact (step_hostAct hh (by simp)).2.trans (if_pos hb)

end
end

section
/-! PROOF. Command words (spec/30_encoding.md R76 to R83): a word as its fields, the decoder by class, the two readings of
legality, and the CORE's turn on the word in the latch. -/

namespace Sys2Proof

/-! A word and its fields (R76). -/

theorem append_fields (w : Word) : rsvdField w ++ selField w ++ argField w ++ opcField w = w := by
  rw [rsvdField, selField, argField, opcField, BitVec.extractLsb'_append_extractLsb'_eq_extractLsb' (by rfl),
    BitVec.extractLsb'_append_extractLsb'_eq_extractLsb' (by rfl),
    BitVec.extractLsb'_append_extractLsb'_eq_extractLsb' (by rfl)]
  exact BitVec.extractLsb'_eq_self

theorem word_eq_iff {w v : Word} :
    w = v ↔ rsvdField w = rsvdField v ∧ opcField w = opcField v ∧ argField w = argField v ∧ selField w = selField v := by
  constructor
  · rintro rfl
    exact ⟨rfl, rfl, rfl, rfl⟩
  · rintro ⟨hr, ho, ha, hs⟩
    rw [← append_fields w, ← append_fields v, hr, ho, ha, hs]

theorem eq_assemble_iff {w : Word} {opc : Byte} {arg : BitVec 9} {sel : BitVec 2} :
    w = assemble opc arg sel ↔ rsvdField w = 0#13 ∧ opcField w = opc ∧ argField w = arg ∧ selField w = sel := by
  rw [word_eq_iff, rsvdField_assemble, opcField_assemble, argField_assemble, selField_assemble]

/-! The operands of a class (R77, R78). -/

/-- R77: the values of ARG and SEL that are legal in a class. -/
def OpForm.Legal : OpForm → BitVec 9 → BitVec 2 → Prop
  | .classN _, arg, sel => arg = 0#9 ∧ sel = 0#2
  | .classB _, arg, sel => arg.extractLsb' 1 8 = 0#8 ∧ sel = 0#2
  | .classY _, arg, sel => arg.getLsbD 8 = false ∧ sel = 0#2
  | .classX _, arg, sel => arg.toNat ≤ 510 ∧ sel = 0#2
  | .classC _, arg, _ => arg.getLsbD 8 = false

/-- R77: the command that a class makes of ARG and SEL. -/
def OpForm.command : OpForm → BitVec 9 → BitVec 2 → Instr
  | .classN i, _, _ => i
  | .classB f, arg, _ => f (arg.getLsbD 0)
  | .classY f, arg, _ => f (arg.setWidth 8)
  | .classX f, arg, _ => f arg
  | .classC f, arg, sel => f (arg.setWidth 8) sel

theorem ite_error_eq_ok_iff {p : Prop} [Decidable p] {e : Illegal} {x : Except Illegal Instr} {i : Instr} :
    (if p then .error e else x) = .ok i ↔ ¬ p ∧ x = .ok i := by
  by_cases h : p <;> simp [h]

theorem OpForm.operands_eq_ok_iff {form : OpForm} {arg : BitVec 9} {sel : BitVec 2} {i : Instr} :
    form.operands arg sel = .ok i ↔ form.Legal arg sel ∧ form.command arg sel = i := by
  cases form <;>
    simp only [operands, Legal, command, ite_error_eq_ok_iff, Except.ok.injEq, not_not, and_assoc, Bool.not_eq_true,
      BitVec.not_lt, BitVec.le_def]
  case classX => rfl

/-- R82: the words that decode, and what they decode to. -/
theorem decode_eq_ok_iff {w : Word} {i : Instr} :
    decode w = .ok i ↔ rsvdField w = 0#13 ∧ ∃ form, opForm (opcField w) = some form ∧
      form.Legal (argField w) (selField w) ∧ form.command (argField w) (selField w) = i := by
  by_cases hr : rsvdField w = 0#13
  · cases hf : opForm (opcField w) <;> simp [decode, hr, hf, OpForm.operands_eq_ok_iff]
  · simp [decode, hr]

/-! Decoding what the encoder writes (R79). -/

theorem decode_assemble {opc : Byte} {form : OpForm} (hf : opForm opc = some form) {arg : BitVec 9} {sel : BitVec 2}
    (hl : form.Legal arg sel) : decode (assemble opc arg sel) = .ok (form.command arg sel) := by
  rw [decode_eq_ok_iff, rsvdField_assemble, opcField_assemble, argField_assemble, selField_assemble]
  exact ⟨rfl, form, hf, hl, rfl⟩

theorem decode_classN {opc : Byte} {i : Instr} (hf : opForm opc = some (.classN i)) :
    decode (assemble opc 0#9 0#2) = .ok i :=
  decode_assemble hf ⟨rfl, rfl⟩

theorem decode_classB {opc : Byte} {f : Bool → Instr} (hf : opForm opc = some (.classB f)) (b : Bool) :
    decode (assemble opc (if b then 1#9 else 0#9) 0#2) = .ok (f b) := by
  cases b
  · exact decode_assemble hf ⟨rfl, rfl⟩
  · exact decode_assemble hf ⟨rfl, rfl⟩

theorem decode_classY {opc : Byte} {f : Byte → Instr} (hf : opForm opc = some (.classY f)) (b : Byte) :
    decode (assemble opc (b.setWidth 9) 0#2) = .ok (f b) :=
  (decode_assemble hf ⟨by simp, rfl⟩).trans (by simp [OpForm.command])

theorem decode_classX {opc : Byte} {f : NodeIdx → Instr} (hf : opForm opc = some (.classX f)) {n : NodeIdx}
    (hn : n.toNat ≤ 510) : decode (assemble opc n 0#2) = .ok (f n) :=
  decode_assemble hf ⟨hn, rfl⟩

theorem decode_classC {opc : Byte} {f : Byte → BitVec 2 → Instr} (hf : opForm opc = some (.classC f)) (b : Byte)
    (k : BitVec 2) : decode (assemble opc (b.setWidth 9) k) = .ok (f b k) :=
  (decode_assemble hf (by simp [OpForm.Legal])).trans (by simp [OpForm.command])

/-- R76, R77, R79: the decoder gives a command back by the row of its class in the opcode map. -/
theorem decode_encode {i : Instr} (h : i.WellFormed) : decode (encode i) = .ok i := by
  cases i
  case wrBit b => exact decode_classB rfl b
  case wrByte b => exact decode_classY rfl b
  case encSym b => exact decode_classY rfl b
  case peekFreq b => exact decode_classY rfl b
  case peekNode n => exact decode_classX rfl (of_decide_eq_true h)
  case peekCode b k => exact decode_classC rfl b k
  all_goals exact decode_classN rfl

/-! Encoding what the decoder reads (R79). -/

/-- What a row of the opcode map owes the encoder: each operand of the class gives a well-formed command, and its word
holds the row's opcode and the operand. -/
def OpForm.EncodesTo (opc : Byte) : OpForm → Prop
  | .classN i => i.WellFormed ∧ encode i = assemble opc 0#9 0#2
  | .classB f => ∀ b, (f b).WellFormed ∧ encode (f b) = assemble opc (if b then 1#9 else 0#9) 0#2
  | .classY f => ∀ b, (f b).WellFormed ∧ encode (f b) = assemble opc (b.setWidth 9) 0#2
  | .classX f => ∀ n : NodeIdx, n.toNat ≤ 510 → (f n).WellFormed ∧ encode (f n) = assemble opc n 0#2
  | .classC f => ∀ b k, (f b k).WellFormed ∧ encode (f b k) = assemble opc (b.setWidth 9) k

theorem encodesTo_of_mem : ∀ r ∈ opcodeMap, r.2.EncodesTo r.1 := by
  simp only [opcodeMap, List.forall_mem_cons]
  exact ⟨⟨rfl, rfl⟩, ⟨rfl, rfl⟩, ⟨rfl, rfl⟩, ⟨rfl, rfl⟩, ⟨rfl, rfl⟩, ⟨rfl, rfl⟩, fun _ => ⟨rfl, rfl⟩,
    fun _ => ⟨rfl, rfl⟩, ⟨rfl, rfl⟩, ⟨rfl, rfl⟩, ⟨rfl, rfl⟩, ⟨rfl, rfl⟩, ⟨rfl, rfl⟩, ⟨rfl, rfl⟩, ⟨rfl, rfl⟩,
    ⟨rfl, rfl⟩, ⟨rfl, rfl⟩, ⟨rfl, rfl⟩, fun _ => ⟨rfl, rfl⟩, ⟨rfl, rfl⟩, fun _ => ⟨rfl, rfl⟩,
    fun _ hn => ⟨decide_eq_true hn, rfl⟩, fun _ _ => ⟨rfl, rfl⟩, List.forall_mem_nil _⟩

theorem mem_opcodeMap {opc : Byte} {form : OpForm} (h : opForm opc = some form) : (opc, form) ∈ opcodeMap := by
  obtain ⟨l, r, hl, -⟩ := List.lookup_eq_some_iff.mp h
  simp [hl]

theorem eq_ite_of_extractLsb' {arg : BitVec 9} (h : arg.extractLsb' 1 8 = 0#8) :
    (if arg.getLsbD 0 then 1#9 else 0#9) = arg := by
  have hlt : arg.toNat < 2 := by
    have := congrArg BitVec.toNat h
    simp [Nat.shiftRight_eq_div_pow] at this
    omega
  have : arg = 0#9 ∨ arg = 1#9 := by bv_omega
  rcases this with rfl | rfl <;> rfl

theorem setWidth_setWidth_of_getLsbD {arg : BitVec 9} (h : arg.getLsbD 8 = false) :
    (arg.setWidth 8).setWidth 9 = arg := by
  refine BitVec.eq_of_getLsbD_eq fun i hi => ?_
  rcases Nat.lt_succ_iff_lt_or_eq.mp hi with h8 | rfl
  · simp [h8, hi]
  · rw [h, BitVec.getLsbD_setWidth, BitVec.getLsbD_of_ge _ _ (le_refl 8), Bool.and_false]

/-- The encoder gives the operand fields back where they are legal. -/
theorem OpForm.EncodesTo.command {opc : Byte} {form : OpForm} (h : form.EncodesTo opc) {arg : BitVec 9}
    {sel : BitVec 2} (hl : form.Legal arg sel) :
    (form.command arg sel).WellFormed ∧ encode (form.command arg sel) = assemble opc arg sel := by
  cases form with
  | classN i => obtain ⟨rfl, rfl⟩ := hl; exact h
  | classB f =>
    obtain ⟨ha, rfl⟩ := hl
    simpa only [OpForm.command, eq_ite_of_extractLsb' ha] using h (arg.getLsbD 0)
  | classY f =>
    obtain ⟨ha, rfl⟩ := hl
    simpa only [OpForm.command, setWidth_setWidth_of_getLsbD ha] using h (arg.setWidth 8)
  | classX f => obtain ⟨ha, rfl⟩ := hl; exact h arg ha
  | classC f => simpa only [OpForm.command, setWidth_setWidth_of_getLsbD hl] using h (arg.setWidth 8) sel

/-- R76, R77, R79: a word that decodes is the word of its command. -/
theorem encode_of_decode {w : Word} {i : Instr} (h : decode w = .ok i) : i.WellFormed ∧ encode i = w := by
  obtain ⟨hr, form, hf, hl, rfl⟩ := decode_eq_ok_iff.mp h
  obtain ⟨hw, he⟩ := (encodesTo_of_mem _ (mem_opcodeMap hf)).command hl
  exact ⟨hw, he.trans (eq_assemble_iff.mpr ⟨hr, rfl, rfl, rfl⟩).symm⟩

end Sys2Proof

namespace Sys2Proof.Machine

/-! Legality by the fields (R82, R83). -/

/-- R79: the opcodes of a class. -/
def classOpcodes : OpForm → List Byte
  | .classN _ => classNOpcodes
  | .classB _ => [0x10#8]
  | .classY _ => classYOpcodes
  | .classX _ => [0x39#8]
  | .classC _ => [0x3A#8]

theorem mem_classOpcodes {opc : Byte} {form : OpForm} (h : opForm opc = some form) : opc ∈ classOpcodes form := by
  have all : ∀ r ∈ opcodeMap, r.1 ∈ classOpcodes r.2 := by decide
  exact all _ (mem_opcodeMap h)

theorem opForm_of_mem_classN {opc : Byte} (h : opc ∈ classNOpcodes) : ∃ i, opForm opc = some (.classN i) := by
  revert opc
  simp only [classNOpcodes, List.forall_mem_cons]
  exact ⟨⟨_, rfl⟩, ⟨_, rfl⟩, ⟨_, rfl⟩, ⟨_, rfl⟩, ⟨_, rfl⟩, ⟨_, rfl⟩, ⟨_, rfl⟩, ⟨_, rfl⟩, ⟨_, rfl⟩, ⟨_, rfl⟩, ⟨_, rfl⟩,
    ⟨_, rfl⟩, ⟨_, rfl⟩, ⟨_, rfl⟩, ⟨_, rfl⟩, ⟨_, rfl⟩, ⟨_, rfl⟩, List.forall_mem_nil _⟩

theorem opForm_of_mem_classY {opc : Byte} (h : opc ∈ classYOpcodes) : ∃ f, opForm opc = some (.classY f) := by
  revert opc
  simp only [classYOpcodes, List.forall_mem_cons]
  exact ⟨⟨_, rfl⟩, ⟨_, rfl⟩, ⟨_, rfl⟩, List.forall_mem_nil _⟩

theorem legalWord_iff_opForm {w : Word} :
    LegalWord w ↔ rsvdField w = 0#13 ∧
      ∃ form, opForm (opcField w) = some form ∧ form.Legal (argField w) (selField w) := by
  refine and_congr_right fun _ => ⟨?_, ?_⟩
  · rintro (⟨ho, hl⟩ | ⟨ho, hl⟩ | ⟨ho, hl⟩ | ⟨ho, hl⟩ | ⟨ho, hl⟩)
    · obtain ⟨i, hf⟩ := opForm_of_mem_classN ho
      exact ⟨_, hf, hl⟩
    · exact ⟨.classB .wrBit, by rw [ho]; rfl, hl⟩
    · obtain ⟨f, hf⟩ := opForm_of_mem_classY ho
      exact ⟨_, hf, hl⟩
    · exact ⟨.classX .peekNode, by rw [ho]; rfl, hl⟩
    · exact ⟨.classC .peekCode, by rw [ho]; rfl, hl⟩
  · rintro ⟨form, hf, hl⟩
    have ho := mem_classOpcodes hf
    cases form with
    | classN i => exact .inl ⟨ho, hl⟩
    | classB f => exact .inr (.inl ⟨List.mem_singleton.mp ho, hl⟩)
    | classY f => exact .inr (.inr (.inl ⟨ho, hl⟩))
    | classX f => exact .inr (.inr (.inr (.inl ⟨List.mem_singleton.mp ho, hl⟩)))
    | classC f => exact .inr (.inr (.inr (.inr ⟨List.mem_singleton.mp ho, hl⟩)))

/-- R82, R83: the decoder answers a command for just the legal words. -/
theorem exists_decode_iff {w : Word} : (∃ i, decode w = .ok i) ↔ LegalWord w := by
  simp only [decode_eq_ok_iff, legalWord_iff_opForm]
  exact ⟨fun ⟨_, hr, form, hf, hl, _⟩ => ⟨hr, form, hf, hl⟩, fun ⟨hr, form, hf, hl⟩ => ⟨_, hr, form, hf, hl, rfl⟩⟩

/-! Legality by mask and match (R80). -/

theorem setWidth_eq_assemble (opc : Byte) : opc.setWidth 32 = assemble opc 0#9 0#2 := by
  rw [BitVec.setWidth_eq_append (by decide)]
  rfl

/-- A mask with all bits of RSVD and OPC tests these two for the opcode, and the bits it has of ARG and SEL for 0. -/
theorem and_mask_eq_iff {m : Word} {arg : BitVec 9} {sel : BitVec 2} (hr : rsvdField m = BitVec.allOnes 13)
    (ho : opcField m = BitVec.allOnes 8) (ha : argField m = arg) (hs : selField m = sel) (w : Word) (opc : Byte) :
    w &&& m = opc.setWidth 32 ↔
      rsvdField w = 0#13 ∧ opcField w = opc ∧ argField w &&& arg = 0#9 ∧ selField w &&& sel = 0#2 := by
  have hwr : rsvdField (w &&& m) = rsvdField w := by
    rw [rsvdField, BitVec.extractLsb'_and, ← rsvdField, ← rsvdField, hr, BitVec.and_allOnes]
  have hwo : opcField (w &&& m) = opcField w := by
    rw [opcField, BitVec.extractLsb'_and, ← opcField, ← opcField, ho, BitVec.and_allOnes]
  have hwa : argField (w &&& m) = argField w &&& arg := ha ▸ BitVec.extractLsb'_and
  have hws : selField (w &&& m) = selField w &&& sel := hs ▸ BitVec.extractLsb'_and
  rw [setWidth_eq_assemble, eq_assemble_iff, hwr, hwo, hwa, hws]

theorem and_0x1FE_eq_zero_iff {arg : BitVec 9} : arg &&& 0x1FE#9 = 0#9 ↔ arg.extractLsb' 1 8 = 0#8 := by
  constructor
  · intro h
    have hx := congrArg (BitVec.extractLsb' 1 8) h
    rwa [BitVec.extractLsb'_and, show (0x1FE#9).extractLsb' 1 8 = BitVec.allOnes 8 from rfl, BitVec.and_allOnes] at hx
  · intro h
    rw [← eq_ite_of_extractLsb' h]
    cases arg.getLsbD 0 <;> rfl

theorem and_0x100_eq_zero_iff {arg : BitVec 9} : arg &&& 0x100#9 = 0#9 ↔ arg.getLsbD 8 = false := by
  rw [show 0x100#9 = BitVec.twoPow 9 8 from rfl, BitVec.and_twoPow]
  cases arg.getLsbD 8 <;> decide

theorem maskN_iff {w : Word} {opc : Byte} : w &&& 0xFFFFFFFF#32 = opc.setWidth 32 ↔
    rsvdField w = 0#13 ∧ opcField w = opc ∧ argField w = 0#9 ∧ selField w = 0#2 := by
  rw [and_mask_eq_iff (arg := BitVec.allOnes 9) (sel := BitVec.allOnes 2) rfl rfl rfl rfl, BitVec.and_allOnes,
    BitVec.and_allOnes]

theorem maskB_iff {w : Word} {opc : Byte} : w &&& 0xFFFFFEFF#32 = opc.setWidth 32 ↔
    rsvdField w = 0#13 ∧ opcField w = opc ∧ (argField w).extractLsb' 1 8 = 0#8 ∧ selField w = 0#2 := by
  rw [and_mask_eq_iff (arg := 0x1FE#9) (sel := BitVec.allOnes 2) rfl rfl rfl rfl, and_0x1FE_eq_zero_iff,
    BitVec.and_allOnes]

theorem maskY_iff {w : Word} {opc : Byte} : w &&& 0xFFFF00FF#32 = opc.setWidth 32 ↔
    rsvdField w = 0#13 ∧ opcField w = opc ∧ (argField w).getLsbD 8 = false ∧ selField w = 0#2 := by
  rw [and_mask_eq_iff (arg := 0x100#9) (sel := BitVec.allOnes 2) rfl rfl rfl rfl, and_0x100_eq_zero_iff,
    BitVec.and_allOnes]

theorem maskX_iff {w : Word} {opc : Byte} : w &&& 0xFFFE00FF#32 = opc.setWidth 32 ↔
    rsvdField w = 0#13 ∧ opcField w = opc ∧ selField w = 0#2 := by
  rw [and_mask_eq_iff (arg := 0#9) (sel := BitVec.allOnes 2) rfl rfl rfl rfl, BitVec.and_zero, BitVec.and_allOnes,
    eq_self, true_and]

theorem maskC_iff {w : Word} {opc : Byte} : w &&& 0xFFF900FF#32 = opc.setWidth 32 ↔
    rsvdField w = 0#13 ∧ opcField w = opc ∧ (argField w).getLsbD 8 = false := by
  rw [and_mask_eq_iff (arg := 0x100#9) (sel := 0#2) rfl rfl rfl rfl, and_0x100_eq_zero_iff, BitVec.and_zero, eq_self,
    and_true]

theorem exists_mem_maskMatch {P : Word × Word → Prop} :
    (∃ r ∈ maskMatch, P r) ↔
      (∃ b ∈ classNOpcodes, P (0xFFFFFFFF#32, b.setWidth 32)) ∨ P (0xFFFFFEFF#32, (0x10#8).setWidth 32) ∨
        (∃ b ∈ classYOpcodes, P (0xFFFF00FF#32, b.setWidth 32)) ∨ P (0xFFFE00FF#32, (0x39#8).setWidth 32) ∨
          P (0xFFF900FF#32, (0x3A#8).setWidth 32) := by
  simp only [maskMatch, List.mem_append, List.mem_map, List.mem_cons, List.not_mem_nil, or_false, or_and_right,
    exists_or, or_assoc, exists_exists_and_eq_and, exists_eq_left]
  rfl

/-- R80: the excluded word meets the row of PEEK_NODE, and it is the one word of that row with an illegal index. -/
theorem not_legalWord_0x0001FF39 : ¬ LegalWord 0x0001FF39#32 := by
  unfold LegalWord
  decide

theorem argField_le_of_ne {w : Word} (hr : rsvdField w = 0#13) (ho : opcField w = 0x39#8) (hs : selField w = 0#2)
    (hne : w ≠ 0x0001FF39#32) : (argField w).toNat ≤ 510 := by
  by_contra hn
  have ha : argField w = 511#9 := by bv_omega
  exact hne (eq_assemble_iff.mpr ⟨hr, ho, ha, hs⟩)

/-- R80: the rows of the table with the one exclusion say what R77 says class by class. -/
theorem legalWord_iff_maskMatch {w : Word} :
    LegalWord w ↔ (∃ r ∈ maskMatch, w &&& r.1 = r.2) ∧ w ≠ 0x0001FF39#32 := by
  rw [exists_mem_maskMatch]
  constructor
  · intro hl
    refine ⟨?_, fun e => not_legalWord_0x0001FF39 (e ▸ hl)⟩
    obtain ⟨hr, ⟨ho, ha, hs⟩ | ⟨ho, ha, hs⟩ | ⟨ho, ha, hs⟩ | ⟨ho, -, hs⟩ | ⟨ho, ha⟩⟩ := hl
    · exact .inl ⟨_, ho, maskN_iff.mpr ⟨hr, rfl, ha, hs⟩⟩
    · exact .inr (.inl (maskB_iff.mpr ⟨hr, ho, ha, hs⟩))
    · exact .inr (.inr (.inl ⟨_, ho, maskY_iff.mpr ⟨hr, rfl, ha, hs⟩⟩))
    · exact .inr (.inr (.inr (.inl (maskX_iff.mpr ⟨hr, ho, hs⟩))))
    · exact .inr (.inr (.inr (.inr (maskC_iff.mpr ⟨hr, ho, ha⟩))))
  · rintro ⟨⟨b, hb, h⟩ | h | ⟨b, hb, h⟩ | h | h, hne⟩
    · obtain ⟨hr, rfl, hl⟩ := maskN_iff.mp h
      exact ⟨hr, .inl ⟨hb, hl⟩⟩
    · obtain ⟨hr, hl⟩ := maskB_iff.mp h
      exact ⟨hr, .inr (.inl hl)⟩
    · obtain ⟨hr, rfl, hl⟩ := maskY_iff.mp h
      exact ⟨hr, .inr (.inr (.inl ⟨hb, hl⟩))⟩
    · obtain ⟨hr, ho, hs⟩ := maskX_iff.mp h
      exact ⟨hr, .inr (.inr (.inr (.inl ⟨ho, argField_le_of_ne hr ho hs hne, hs⟩)))⟩
    · obtain ⟨hr, hl⟩ := maskC_iff.mp h
      exact ⟨hr, .inr (.inr (.inr (.inr hl)))⟩

/-! The CORE's turn (R81, R82). -/

theorem coreMoves_iff {s : State} :
    s.coreMoves = true ↔ s.status.busy = true ∧ (s.host = [] ∨ ∃ rest, s.host = .wait :: rest) := by
  rw [State.coreMoves, Bool.and_eq_true]
  refine and_congr_right fun _ => ?_
  split <;> simp_all

theorem step_of_coreMoves {s : State} (hc : s.coreMoves = true) : step s = coreTurn s := if_pos hc

theorem step_eq_exec {s : State} {i : Instr} (hc : s.coreMoves = true) (hd : decode s.latch = .ok i) :
    step s = exec i s := by
  rw [step_of_coreMoves hc, coreTurn, hd]

theorem step_eq_illegal {s : State} (hc : s.coreMoves = true) (hd : ¬ LegalWord s.latch) :
    step s = .next (s.complete .illegalCommand) := by
  rw [step_of_coreMoves hc, coreTurn]
  cases h : decode s.latch with
  | ok i => exact absurd (exists_decode_iff.mp ⟨i, h⟩) hd
  | error e => rfl

/-- R14, R76: the fetch hands a 32-bit word to the CORE as it is. -/
theorem withFetchWord_toNat (s : State) (w : Word) : s.withFetchWord 32 w.toNat = s.withCommand w := by
  rw [State.withFetchWord, Nat.mod_eq_of_lt w.isLt, BitVec.ofNat_toNat, BitVec.setWidth_eq]

end Sys2Proof.Machine

section
open Sys2Proof Sys2Proof.Machine

/-- Settles O2: the word of a command holds its opcode, whose row has its class, and the operands in the class's form. -/
theorem decodeEncode : Obligations.DecodeEncode := fun _ h => decode_encode h

/-- Settles O3: a word that decodes has RSVD 0 and legal operand fields, and the encoder gives just those fields back. -/
theorem decodeOnlyEncoded : Obligations.DecodeOnlyEncoded := fun _ _ h => encode_of_decode h

/-- Settles O4: both sides are legality by the fields. -/
theorem legalByMaskAndMatch : Obligations.LegalByMaskAndMatch := fun _ =>
  exists_decode_iff.trans legalWord_iff_maskMatch

/-- Settles O5: an illegal word decodes to nothing, so the turn is the completion step with code 7. -/
theorem illegalWordOnlyReports : Obligations.IllegalWordOnlyReports := by
  refine fun s hc => ⟨fun hn => step_eq_illegal hc hn, fun hl => ?_⟩
  obtain ⟨i, hi⟩ := exists_decode_iff.mpr hl
  exact ⟨i, hi, (encode_of_decode hi).2, step_eq_exec hc hi⟩

/-- Settles O1: the words are literals, and the decoder is evaluated on each. -/
theorem decodeSamples : Obligations.DecodeSamples := by
  unfold Obligations.DecodeSamples
  decide

/-- Settles O6: the CORE moves in both states, and the second holds the word of a well-formed command. -/
theorem stepRunsDecodedCommand : Obligations.StepRunsDecodedCommand := by
  refine ⟨fun s i hb hh hd => step_eq_exec (coreMoves_iff.mpr ⟨hb, hh⟩) hd, fun s i hi => ?_⟩
  rw [withFetchWord_toNat]
  exact step_eq_exec (coreMoves_iff.mpr ⟨rfl, .inr ⟨_, rfl⟩⟩) (decode_encode hi)

/-- Settles O7: an accepted write of CMD is `issue`, a refused one `overrun`, and the CORE's step is its turn. -/
theorem commandIssue : Obligations.CommandIssue := by
  refine ⟨fun s v rest hh => ⟨fun hb => ?_, fun hb => step_write_busy hb (by decide) hh⟩, fun s hc => ?_⟩
  · rw [step_write (by decide) (by decide) hh]
    simp only [hostWrite, hb]
    rfl
  · exact step_of_coreMoves hc

end
end

section
/-! PROOF. The bitstream adapter (spec/40_bitstream.md R87 to R103): the bits a run of writes appends fix the output
port, a read of whole bytes moves IN_POS by their number, and the byte and 64-bit paths are the bit paths. -/

namespace Sys2Proof.Machine

/-! The output port after a run of writes. -/

theorem OutPort.CountsFrom.cnt_unique {o q r : OutPort} (hq : o.CountsFrom q) (hr : o.CountsFrom r)
    (h : q.data = r.data) : q.cnt = r.cnt := by
  obtain ⟨l, hl, hql⟩ := hq
  obtain ⟨m, hm, hrm⟩ := hr
  obtain rfl : l = m := List.append_cancel_left (hl.symm.trans (h.trans hm))
  exact hql.trans hrm.symm

/-- The bits appended to a writer that keeps R53 (4) fix the whole port. -/
theorem OutPort.Appends.unique {o q r : OutPort} {l : List Bool} (hz : o.ZeroAbove) (hq : o.Appends l q)
    (hr : o.Appends l r) : q = r := by
  obtain ⟨hdata, hwcnt, hwbuf⟩ :=
    OutPort.eq_of_bits (hq.zeroAbove hz) (hr.zeroAbove hz) (hq.bits.trans hr.bits.symm)
  have hcnt := hq.counts.cnt_unique hr.counts hdata
  have hclosed := hq.closed.trans hr.closed.symm
  cases q; cases r
  simp_all

theorem OutPort.length_bits (o : OutPort) : o.bits.length = 8 * o.data.length + o.wcnt.toNat := by
  simp [OutPort.bits, OutPort.length_pendingBits]

/-- R88, R89: whole bytes written leave as many bytes on the output, and as many bits waiting as before. -/
theorem OutPort.Appends.wholeBytes {o q : OutPort} {l : List Bool} (h : o.Appends l q) {n : Nat}
    (hl : l.length = 8 * n) :
    q.data.length = o.data.length + n ∧ q.wcnt = o.wcnt := by
  have hb := congrArg List.length h.bits
  rw [List.length_append, q.length_bits, o.length_bits, hl] at hb
  have ho := o.wcnt_lt
  have hq := q.wcnt_lt
  exact ⟨by omega, BitVec.eq_of_toNat_eq (by omega)⟩

/-! A byte that meets `k` bits waiting (R98). -/

/-- The low part of the byte goes on top of the waiting bits. -/
theorem bitsOf_or_shiftLeft {w b : Byte} {k : Nat} (hk : k < 8) (hw : w.toNat < 2 ^ k) :
    bitsOf (w ||| b <<< k) = (bitsOf w).take k ++ (bitsOf b).take (8 - k) := by
  refine List.ext_getElem (by simp; omega) fun i hi _ => ?_
  have hi8 : i < 8 := by simpa using hi
  rw [List.getElem_append]
  by_cases hlt : i < k
  · simp [bitsOf, hlt, hk.le]
  · have hwi : w[i] = false :=
      (BitVec.getLsbD_eq_getElem hi8).symm.trans (getLsbD_of_toNat_lt hw (Nat.not_lt.mp hlt))
    simp [bitsOf, hlt, hk.le, hwi, hi8]

/-- The high part of the byte waits. -/
theorem take_bitsOf_shiftRight {b : Byte} {k : Nat} (hk : k < 8) :
    (bitsOf (b >>> (8 - k))).take k = (bitsOf b).drop (8 - k) := by
  refine List.ext_getElem (by simp; omega) fun i hi _ => ?_
  simp [bitsOf]

/-- R98: the output port after a byte written with bits waiting. -/
def OutPort.withByte (o : OutPort) (b : Byte) : OutPort :=
  { o with
    data := o.data ++ [o.wbuf ||| (b <<< o.wcnt.toNat)]
    cnt := o.cnt + 1#64
    wbuf := b >>> (8 - o.wcnt.toNat) }

theorem OutPort.withByte_appends {o : OutPort} (hz : o.ZeroAbove) (b : Byte) : o.Appends (bitsOf b) (o.withByte b) where
  bits := by
    have hlow := bitsOf_or_shiftLeft (b := b) o.wcnt_lt hz
    have hhigh := take_bitsOf_shiftRight (b := b) o.wcnt_lt
    simp [OutPort.bits, OutPort.pendingBits, OutPort.withByte, hlow, hhigh]
  closed := rfl
  zeroAbove _ := by
    have hk := o.wcnt_lt
    refine toNat_lt_two_pow fun i (hi : o.wcnt.toNat ≤ i) _ => ?_
    exact (BitVec.getLsbD_ushiftRight ..).trans (BitVec.getLsbD_of_ge b _ (by omega))
  counts := ⟨[_], rfl, rfl⟩

theorem OutPort.writeByte_eq_withByte {o : OutPort} (hz : o.ZeroAbove) (b : Byte) : o.writeByte b = o.withByte b :=
  (o.writeByte_appends b).unique hz (OutPort.withByte_appends hz b)

/-- R97 to R99: what the writing commands do on an open output. -/
theorem write_open {s : State} (h : s.out.closed = false) (o : OutPort) :
    (if s.out.closed then raise .badState s else finish { s with out := o }) =
      .next ({ s with out := o }.complete .ok) :=
  if_neg (by simp [h])

/-! The input port after a read of whole bytes. -/

theorem InPort.length_bits (p : InPort) : p.bits.length = p.rcnt.toNat + 8 * (p.data.length - p.pos.toNat) := by
  have := p.rcnt.isLt
  simp [InPort.bits, InPort.bufferedBits, InPort.rest]
  omega

/-- R92, R93: after `k` whole bytes IN_POS has moved by `k`, and as many bits wait as before. -/
theorem InPort.Keeps.wholeBytes {p q : InPort} (h : p.Keeps q) (hs : p.Short) (hw : p.Wf) {k : Nat} (hk : 0 < k)
    (hl : 8 * k ≤ p.bits.length) (hb : q.bits = p.bits.drop (8 * k)) :
    q.rcnt = p.rcnt ∧ q.pos = p.pos + BitVec.ofNat 64 k ∧ q.data = p.data ∧ q.seekable = p.seekable ∧ q.Wf := by
  obtain ⟨hdata, hseek⟩ := h.stream
  have hshort : p.data.length < 2 ^ 64 := hs
  have hlen := congrArg List.length hb
  have hp := p.rcnt.isLt
  have hq := q.rcnt.isLt
  rw [p.length_bits] at hl
  rw [List.length_drop, q.length_bits, p.length_bits, hdata] at hlen
  have hrange : q.pos.toNat ≤ q.data.length := h.inRange (show p.pos.toNat ≤ p.data.length by omega)
  rw [hdata] at hrange
  refine ⟨BitVec.eq_of_toNat_eq (by omega), BitVec.eq_of_toNat_eq ?_, hdata, hseek, h.wf hw⟩
  rw [BitVec.toNat_add, BitVec.toNat_ofNat]
  omega

/-- R92, R93: a reader that has no bit left is aligned and empty, at the end of the input. -/
theorem InPort.Keeps.drained {p q : InPort} (h : p.Keeps q) (hw : p.Wf) (hb : q.bits = []) :
    q.rcnt = 0#3 ∧ q.rbuf = 0#8 ∧ q.data = p.data ∧ q.seekable = p.seekable ∧ q.position.toNat = p.data.length ∧
      (p.InRange → q.pos.toNat = p.data.length) := by
  obtain ⟨hdata, hseek⟩ := h.stream
  have h0 := InPort.aligned_of_bits_nil hb
  have hlen := congrArg List.length hb
  rw [q.length_bits, List.length_nil] at hlen
  have heq : q.InRange → q.pos.toNat = q.data.length := fun hr => Nat.le_antisymm hr (by omega)
  have hposition : q.position.toNat = q.data.length := by
    by_cases hr : q.InRange
    · rw [InPort.position_of_inRange hr, heq hr]
    · exact InPort.toNat_position_of_lt (Nat.not_le.mp hr)
  exact ⟨h0, h.wf hw h0, hdata, hseek, hdata ▸ hposition, fun hr => hdata ▸ heq (h.inRange hr)⟩

/-! R94: the byte paths of the reader are the bit paths. -/

theorem InPort.readBits_of_none {p : InPort} (h : p.readBit = none) {k : Nat} (hk : k ≠ 0) :
    p.readBits k = (none, p) := by
  obtain ⟨k, rfl⟩ := Nat.exists_eq_succ_of_ne_zero hk
  rw [InPort.readBits, h]

theorem InPort.readBits_succ_of_some {p q : InPort} {b : Bool} (k : Nat) (h : p.readBit = some (b, q)) :
    p.readBits (k + 1) = ((q.readBits k).1.map (b :: ·), (q.readBits k).2) := by
  rw [InPort.readBits, h]
  rcases hq : q.readBits k with ⟨_ | l, r⟩ <;> simp [hq]

/-- Bits read in two runs, the second after the first unless the first fails. -/
theorem InPort.readBits_add (p : InPort) (m n : Nat) :
    p.readBits (m + n) = match p.readBits m with
      | (some l, q) => ((q.readBits n).1.map (l ++ ·), (q.readBits n).2)
      | (none, q) => (none, q) := by
  induction m generalizing p with
  | zero => simp [InPort.readBits]
  | succ m ih =>
    rw [Nat.succ_add]
    cases h : p.readBit with
    | none => rw [InPort.readBits_of_none h (by omega), InPort.readBits_of_none h (by omega)]
    | some x =>
      obtain ⟨b, q⟩ := x
      rw [InPort.readBits_succ_of_some _ h, InPort.readBits_succ_of_some _ h, ih]
      rcases q.readBits m with ⟨_ | l, r⟩ <;> simp [Function.comp_def]

theorem InPort.readBit_aligned_none {p : InPort} (h0 : p.rcnt = 0#3) (h : p.inByte = none) : p.readBit = none := by
  rw [InPort.readBit, if_pos h0, h]

theorem InPort.readBit_aligned_some {p q : InPort} {b : Byte} (h0 : p.rcnt = 0#3) (h : p.inByte = some (b, q)) :
    p.readBit = some (b.getLsbD 0, { q with rbuf := b, rcnt := 7#3 }) := by
  rw [InPort.readBit, if_pos h0, h]

/-- R91: eight bits of an aligned reader are the bits of the byte InByte gives. -/
theorem InPort.readBits_aligned_byte {p q : InPort} {b : Byte} (hw : p.Wf) (h0 : p.rcnt = 0#3)
    (h : p.inByte = some (b, q)) : p.readBits 8 = (some (bitsOf b), q) := by
  have hb : p.rbuf = 0#8 := hw h0
  have hbits : bitsOf b = [b[0], b[1], b[2], b[3], b[4], b[5], b[6], b[7]] := rfl
  obtain ⟨rfl, -⟩ := InPort.inByte_some h
  simp [InPort.readBits, InPort.readBit, InPort.advance, h0, h, hb, hbits]

theorem InPort.readBits_eq_inBytes {p : InPort} (hw : p.Wf) (h0 : p.rcnt = 0#3) (k : Nat) :
    p.readBits (8 * k) = ((p.inBytes k).1.map streamBits, (p.inBytes k).2) := by
  induction k generalizing p with
  | zero => rfl
  | succ k ih =>
    rw [Nat.mul_succ, Nat.add_comm, InPort.inBytes]
    cases h : p.inByte with
    | none => exact InPort.readBits_of_none (InPort.readBit_aligned_none h0 h) (by omega)
    | some x =>
      obtain ⟨b, q⟩ := x
      have hk := InPort.inByte_keeps h
      obtain ⟨rfl, -⟩ := InPort.inByte_some h
      rw [InPort.readBits_add, InPort.readBits_aligned_byte hw h0 h]
      simp only [ih (hk.wf hw) (show p.advance.rcnt = 0#3 from h0)]
      rcases p.advance.inBytes k with ⟨_ | l, r⟩ <;> rfl

theorem InPort.readByte_eq_readBits {p : InPort} (hw : p.Wf) :
    p.readByte = ((p.readBits 8).1.map (ofBits 8), (p.readBits 8).2) := by
  rw [InPort.readByte]
  by_cases h0 : p.rcnt = 0#3
  · rw [if_pos h0]
    cases h : p.inByte with
    | none => rw [InPort.readBits_of_none (InPort.readBit_aligned_none h0 h) (by decide)]; rfl
    | some x => simp [InPort.readBits_aligned_byte hw h0 h, ofBits_bitsOf]
  · rw [if_neg h0]
    rcases p.readBits 8 with ⟨_ | l, r⟩ <;> rfl

theorem InPort.readInt64_eq_readBits {p : InPort} (hw : p.Wf) :
    p.readInt64 = ((p.readBits 64).1.map (ofBits 64), (p.readBits 64).2) := by
  rw [InPort.readInt64]
  by_cases h0 : p.rcnt = 0#3
  · rw [if_pos h0, InPort.readBits_eq_inBytes hw h0 8]
    rcases p.inBytes 8 with ⟨_ | l, r⟩ <;> simp [ofBytes_eq_ofBits]
  · rw [if_neg h0]
    rcases p.readBits 64 with ⟨_ | l, r⟩ <;> rfl

/-! The read commands (R101 to R103): what the primitive gives goes to RESULT. -/

theorem exec_rdBit_some {s : State} {q : InPort} {b : Bool} (h : s.inp.readBit = some (b, q)) :
    exec .rdBit s = finishRead (some (if b then 1#64 else 0#64)) q s := by
  rw [exec, execRdBit, h]

theorem exec_rdBit_none {s : State} (h : s.inp.readBit = none) : exec .rdBit s = finishRead none s.inp s := by
  rw [exec, execRdBit, h]

theorem exec_rdByte {s : State} {r : Option Byte} {q : InPort} (h : s.inp.readByte = (r, q)) :
    exec .rdByte s = finishRead (r.map fun b => b.setWidth 64) q s := by
  rw [exec, execRdByte, h]

theorem exec_rdI64 {s : State} {r : Option Dword} {q : InPort} (h : s.inp.readInt64 = (r, q)) :
    exec .rdI64 s = finishRead r q s := by
  rw [exec, execRdI64, h]

/-- R79: the word of WR_BYTE has the byte above the opcode. -/
theorem encode_wrByte (b : Byte) : encode (.wrByte b) = 0x00000011#32 ||| (b.setWidth 32 <<< 8) := by
  have hb := b.isLt
  have h9 : b.toNat % 512 = b.toNat := by omega
  have h32 : b.toNat % 4294967296 = b.toNat := by omega
  have hshift : b.toNat <<< 8 % 4294967296 = b.toNat <<< 8 := by rw [Nat.shiftLeft_eq]; omega
  apply BitVec.eq_of_toNat_eq
  rw [encode, assemble, BitVec.toNat_append, BitVec.toNat_append]
  simp [h9, h32, hshift, Nat.or_comm]

end Sys2Proof.Machine

section
open Sys2Proof Sys2Proof.Machine

/-- Settles O24: on the writer's side the appended bits fix the port, on the reader's an aligned byte is eight bits. -/
theorem fastPathsInvisible : Obligations.FastPathsInvisible :=
  ⟨fun o v hz => (o.writeByte_appends v).unique hz (o.writeBits_appends _),
    fun o v hz => (o.writeInt64_appends v).unique hz (o.writeBits_appends _),
    fun _ hw => InPort.readByte_eq_readBits hw, fun _ hw => InPort.readInt64_eq_readBits hw⟩

/-- Settles O26: WBUF with the bit in it is `filled`, and WriteBit branches on the eighth bit. -/
theorem wrBitCommand : Obligations.WrBitCommand := by
  refine ⟨rfl, rfl, fun s bit => ⟨fun hc => if_pos hc, fun hc => ⟨s.out.filled bit, ?_, fun h => ?_, fun h => ?_⟩⟩⟩
  · exact fun i hi => getLsbD_filled s.out bit hi
  · have hw : s.out.writeBit bit = _ := if_pos h
    exact (write_open hc _).trans (by rw [hw]; rfl)
  · have hw : s.out.writeBit bit = _ := if_neg h
    exact (write_open hc _).trans (by rw [hw])

/-- Settles O27: aligned the byte goes out as it is, and unaligned `withByte` appends the same bits. -/
theorem wrByteCommand : Obligations.WrByteCommand := by
  refine ⟨encode_wrByte, fun s b => ⟨fun hc => if_pos hc, fun hc h => ?_, fun hc _ hz => ?_⟩⟩
  · have hw : s.out.writeByte b = s.out.outByte b := if_pos h
    exact (write_open hc _).trans (by rw [hw]; rfl)
  · exact (write_open hc _).trans (by rw [OutPort.writeByte_eq_withByte hz]; rfl)

/-- Settles O28: 64 bits appended are eight bytes; aligned they are the bytes of DATA as they stand. -/
theorem wrI64Command : Obligations.WrI64Command := by
  refine ⟨rfl, fun s => ⟨fun hc => if_pos hc, fun hc _ => ?_⟩⟩
  have happ := s.out.writeInt64_appends s.data
  obtain ⟨hlen, hwcnt⟩ := happ.wholeBytes (n := 8) (length_bitsOf s.data)
  refine ⟨_, write_open hc _, happ, hlen, hwcnt, fun h0 => ?_⟩
  have hw : s.out.writeInt64 s.data = (bytesOf s.data).foldl OutPort.outByte s.out := if_pos h0
  obtain ⟨hdata, hwbuf, -⟩ := s.out.outBytes_data (bytesOf s.data)
  rw [hw, hdata]
  refine ⟨hwbuf, fun k hk => ?_⟩
  simp [bytesOf, hk]

/-- Settles O29: CloseOut is `flush` and OUT_CLOSED; the writer of a closed output is aligned, so nothing is flushed. -/
theorem wrCloseCommand : Obligations.WrCloseCommand := by
  refine ⟨rfl, fun s hz => ⟨s.out.closeOut, rfl, OutPort.flush_bits hz, rfl, OutPort.flush_wcnt _,
    OutPort.flush_countsFrom _, ?_, ?_⟩, fun s hw hc => ?_⟩
  · rw [OutPort.closeOut_data, OutPort.flush]
    split <;> rfl
  · rw [OutPort.closeOut_wbuf, OutPort.flush]
    split <;> rfl
  · have hclose : s.out.closeOut = s.out := by
      rw [OutPort.closeOut, OutPort.flush, if_pos (hw.closedAligned hc), ← hc]
    rw [exec, execWrClose, hclose]
    rfl

/-- Settles O31: what ReadByte gives and takes, by bits, with IN_POS from their number. -/
theorem rdByteCommand : Obligations.RdByteCommand := by
  refine ⟨rfl, fun s hw hs => ?_⟩
  have hk := s.inp.readByte_keeps
  refine ⟨fun hl => ?_, fun hl => ?_⟩
  · obtain ⟨q, hq, hbits, -⟩ := InPort.readByte_some hs hw hl
    rw [hq] at hk
    exact ⟨q, _, exec_rdByte hq, bitsOf_ofBits_of_length (by simpa using hl), hbits,
      hk.wholeBytes (k := 1) hs hw (by decide) hl hbits⟩
  · obtain ⟨q, hq, hbits, -⟩ := InPort.readByte_none hs hw hl
    rw [hq] at hk
    exact ⟨q, exec_rdByte hq, hbits, hk.drained hw hbits⟩

/-- Settles O32: what ReadInt64 gives and takes, by bits, with IN_POS from their number. -/
theorem rdI64Command : Obligations.RdI64Command := by
  refine ⟨rfl, fun s hw hs => ?_⟩
  have hk := s.inp.readInt64_keeps
  refine ⟨fun hl => ?_, fun hl => ?_⟩
  · obtain ⟨q, hq, hbits, -⟩ := InPort.readInt64_some hs hw hl
    rw [hq] at hk
    exact ⟨q, _, exec_rdI64 hq, bitsOf_ofBits_of_length (by simpa using hl), hbits,
      hk.wholeBytes (k := 8) hs hw (by decide) hl hbits⟩
  · obtain ⟨q, hq, hbits, -⟩ := InPort.readInt64_none hs hw hl
    rw [hq] at hk
    exact ⟨q, exec_rdI64 hq, hbits, hk.drained hw hbits⟩

/-- Settles O25: both commands are what the ports' opening and rewinding write. -/
theorem openAndSeekIn : Obligations.OpenAndSeekIn :=
  ⟨rfl, rfl, fun _ => ⟨rfl, fun h => if_pos h, fun h => if_neg (by simp [h])⟩⟩

/-- Settles O30: the three branches of ReadBit, by RCNT and by what InByte gives. -/
theorem rdBitCommand : Obligations.RdBitCommand := by
  refine ⟨rfl, fun s => ⟨fun h => ?_, fun b h0 hb => ?_, fun h0 hl => ?_⟩⟩
  · rw [exec_rdBit_some (InPort.readBit_unaligned h)]
    by_cases h1 : s.inp.rcnt = 1#3
    · simp only [h1]
      rfl
    · simp only [h1, if_false]
      rfl
  · have hbyte : s.inp.inByte = some (b, s.inp.advance) := by rw [InPort.inByte, hb]
    exact exec_rdBit_some (InPort.readBit_aligned_some h0 hbyte)
  · have hbyte : s.inp.inByte = none := InPort.inByte_none.mpr (List.drop_eq_nil_of_le hl)
    exact exec_rdBit_none (InPort.readBit_aligned_none h0 hbyte)

end
end

section
/-! PROOF. The merge queue (spec/41_tree_builder.md R104 to R106, R111): Insert puts an entry at its place, so the queue
stands by frequency and, where that is equal, by slot, from the first leaf to the last merge. -/

namespace Sys2Proof.Machine

/-! Insert (R104). -/

theorem insertQ_perm (fr : NodeIdx → Dword) (n : NodeIdx) (q : List NodeIdx) : (insertQ fr n q).Perm (n :: q) := by
  obtain ⟨a, b, rfl, h⟩ := insertQ_split fr n q
  rw [h]
  exact List.perm_middle

theorem mem_insertQ {fr : NodeIdx → Dword} {n m : NodeIdx} {q : List NodeIdx} :
    m ∈ insertQ fr n q ↔ m = n ∨ m ∈ q := by
  rw [(insertQ_perm fr n q).mem_iff, List.mem_cons]

/-- R104: the place is in front of the first entry of strictly greater frequency. -/
theorem insertQ_eq_append (fr : NodeIdx → Dword) (n : NodeIdx) (q : List NodeIdx) :
    insertQ fr n q =
      q.takeWhile (fun x => decide (fr x ≤ fr n)) ++ n :: q.dropWhile (fun x => decide (fr x ≤ fr n)) := by
  induction q with
  | nil => rfl
  | cons x q ih =>
    by_cases h : fr n < fr x
    · simp [insertQ, h]
    · simp [insertQ, h, BitVec.not_lt.mp h, ih]

/-- R104: Insert keeps an order that goes up with the frequency, if the new entry may stand after those of at most its
frequency and before those of a greater one. -/
theorem insertQ_pairwise {fr : NodeIdx → Dword} {R : NodeIdx → NodeIdx → Prop} {n : NodeIdx} {q : List NodeIdx}
    (hq : q.Pairwise R) (hle : ∀ x y, R x y → fr x ≤ fr y) (hafter : ∀ x ∈ q, fr x ≤ fr n → R x n)
    (hbefore : ∀ x ∈ q, fr n < fr x → R n x) : (insertQ fr n q).Pairwise R := by
  induction q with
  | nil => exact List.pairwise_singleton R n
  | cons x q ih =>
    have hx := (List.pairwise_cons.mp hq).1
    by_cases h : fr n < fr x
    · rw [insertQ, if_pos h]
      refine List.pairwise_cons.mpr ⟨fun y hy => hbefore y hy ?_, hq⟩
      rcases List.mem_cons.mp hy with rfl | hy
      · exact h
      · have hxy := hle x y (hx y hy)
        bv_omega
    · rw [insertQ, if_neg h]
      refine List.pairwise_cons.mpr ⟨fun y hy => ?_, ih hq.of_cons
        (fun y hy => hafter y (List.mem_cons_of_mem x hy)) fun y hy => hbefore y (List.mem_cons_of_mem x hy)⟩
      rcases mem_insertQ.mp hy with rfl | hy
      · exact hafter x List.mem_cons_self (BitVec.not_lt.mp h)
      · exact hx y hy

/-! The order of the queue (R111). -/

/-- R111: of a lower frequency, or of the same one and in a lower slot. -/
def Tree.Before (t : Tree) (m n : NodeIdx) : Prop :=
  (t.nodeAt m).freq < (t.nodeAt n).freq ∨ ((t.nodeAt m).freq = (t.nodeAt n).freq ∧ m.toNat < n.toNat)

theorem Tree.Before.freq_le {t : Tree} {m n : NodeIdx} (h : t.Before m n) :
    (t.nodeAt m).freq ≤ (t.nodeAt n).freq := by
  rcases h with h | ⟨h, -⟩
  · exact BitVec.le_of_lt h
  · exact h ▸ BitVec.le_refl _

theorem Tree.Before.ne {t : Tree} {m n : NodeIdx} (h : t.Before m n) : m ≠ n := by
  rintro rfl
  rcases h with h | ⟨-, h⟩
  · exact BitVec.lt_irrefl _ h
  · exact Nat.lt_irrefl _ h

/-- R111: what the queue keeps: its order, with every slot in it below `k`. -/
structure Tree.Queue (t : Tree) (k : Nat) (q : List NodeIdx) : Prop where
  ordered : q.Pairwise t.Before
  below : ∀ m ∈ q, m.toNat < k

theorem Tree.Queue.nil (t : Tree) (k : Nat) : t.Queue k [] := ⟨List.Pairwise.nil, by simp⟩

theorem Tree.Queue.nodup {t : Tree} {k : Nat} {q : List NodeIdx} (h : t.Queue k q) : q.Nodup :=
  h.ordered.imp Tree.Before.ne

theorem Tree.Queue.length_le {t : Tree} {k : Nat} {q : List NodeIdx} (h : t.Queue k q) : q.length ≤ k := by
  have hd : (q.map BitVec.toNat).Nodup := h.nodup.map fun _ _ => BitVec.eq_of_toNat_eq
  have hs : q.map BitVec.toNat ⊆ List.range k := fun i hi => by
    obtain ⟨m, hm, rfl⟩ := List.mem_map.mp hi
    exact List.mem_range.mpr (h.below m hm)
  simpa using (List.subperm_of_subset hd hs).length_le

theorem Tree.Queue.mono {t : Tree} {k l : Nat} {q : List NodeIdx} (h : t.Queue k q) (hl : k ≤ l) : t.Queue l q :=
  ⟨h.ordered, fun m hm => Nat.lt_of_lt_of_le (h.below m hm) hl⟩

theorem Tree.Queue.of_cons {t : Tree} {k : Nat} {a : NodeIdx} {q : List NodeIdx} (h : t.Queue k (a :: q)) :
    t.Queue k q :=
  ⟨h.ordered.of_cons, fun m hm => h.below m (List.mem_cons_of_mem a hm)⟩

/-- The order of the queue is known from the frequencies of its entries. -/
theorem Tree.Queue.congr {t u : Tree} {k : Nat} {q : List NodeIdx} (h : t.Queue k q)
    (hf : ∀ m ∈ q, (u.nodeAt m).freq = (t.nodeAt m).freq) : u.Queue k q := by
  refine ⟨h.ordered.imp_of_mem fun {m n} hm hn hb => ?_, h.below⟩
  rw [Tree.Before, hf m hm, hf n hn]
  exact hb

/-- R104: a slot above all those in the queue goes after every entry of its frequency. -/
theorem Tree.Queue.insert {t : Tree} {k : Nat} {n : NodeIdx} {q : List NodeIdx} (h : t.Queue k q) (hn : k ≤ n.toNat) :
    t.Queue (n.toNat + 1) (t.insert n q) := by
  have hlt : ∀ m ∈ q, m.toNat < n.toNat := fun m hm => Nat.lt_of_lt_of_le (h.below m hm) hn
  refine ⟨insertQ_pairwise h.ordered (fun _ _ hb => hb.freq_le) (fun m hm hle => ?_) fun m _ hgt => .inl hgt,
    fun m hm => ?_⟩
  · by_cases he : (t.nodeAt m).freq = (t.nodeAt n).freq
    · exact .inr ⟨he, hlt m hm⟩
    · exact .inl (BitVec.lt_of_le_ne hle he)
  · rcases mem_insertQ.mp hm with rfl | hm
    · exact Nat.lt_succ_self _
    · exact Nat.lt_succ_of_lt (hlt m hm)

/-! The leaves (R105). -/

theorem pairwise_allBytes : allBytes.Pairwise fun b c => b.toNat < c.toNat := by
  refine List.pairwise_map.mpr (List.pairwise_lt_range.imp_of_mem fun {m n} hm hn hlt => ?_)
  rw [BitVec.toNat_ofNat, BitVec.toNat_ofNat, Nat.mod_eq_of_lt (List.mem_range.mp hm),
    Nat.mod_eq_of_lt (List.mem_range.mp hn)]
  exact hlt

theorem addLeaves_nint (f : Vector Dword 256) (l : List Byte) (t : Tree) (q : List NodeIdx) :
    (addLeaves f l (t, q)).1.nint = t.nint := by
  induction l generalizing t q with
  | nil => rfl
  | cons b l ih =>
    by_cases h0 : freqAt f b = 0#64
    · rw [addLeaves, if_pos h0, ih]
    · rw [addLeaves, if_neg h0, ih, Tree.addLeaf_nint]

/-- R105: leaves inserted in ascending order of their bytes. -/
theorem addLeaves_queue (f : Vector Dword 256) {l : List Byte} (hl : l.Pairwise fun b c => b.toNat < c.toNat) {k : Nat}
    (hk : k ≤ 256) (hlk : ∀ b ∈ l, k ≤ b.toNat) {t : Tree} {q : List NodeIdx} (h : t.Queue k q) :
    (addLeaves f l (t, q)).1.Queue 256 (addLeaves f l (t, q)).2 := by
  induction l generalizing k t q with
  | nil => exact h.mono hk
  | cons b l ih =>
    obtain ⟨hb, hl⟩ := List.pairwise_cons.mp hl
    by_cases h0 : freqAt f b = 0#64
    · rw [addLeaves, if_pos h0]
      exact ih hl hk (fun c hc => hlk c (List.mem_cons_of_mem b hc)) h
    · rw [addLeaves, if_neg h0]
      have hkb : k ≤ (leafIdx b).toNat := toNat_leafIdx b ▸ hlk b List.mem_cons_self
      have hfreq : ∀ m ∈ q, ((t.addLeaf b (freqAt f b)).nodeAt m).freq = (t.nodeAt m).freq := fun m hm => by
        rw [Tree.nodeAt_addLeaf, if_neg]
        rintro rfl
        exact Nat.not_lt.mpr hkb (h.below _ hm)
      refine ih hl (Nat.succ_le_of_lt (leafIdx_lt b)) (fun c hc => ?_) ((h.congr hfreq).insert hkb)
      rw [toNat_leafIdx]
      exact hb c hc

/-- R105: the initial queue. -/
theorem initialQueue_ordered (f : Vector Dword 256) :
    (addLeaves f allBytes (Tree.empty, [])).1.Queue 256 (addLeaves f allBytes (Tree.empty, [])).2 :=
  addLeaves_queue f pairwise_allBytes (Nat.zero_le 256) (fun _ _ => Nat.zero_le _) (Tree.Queue.nil _ 0)

/-- With no internal node in it, a forest is its leaves. -/
theorem exists_leaf_of_internals_nil {fs : List Shape} (h : fs.flatMap Shape.internals = []) {sh : Shape}
    (hm : sh ∈ fs) : ∃ b, sh = .leaf b := by
  cases sh with
  | leaf b => exact ⟨b, rfl⟩
  | node i l r => exact absurd (List.flatMap_eq_nil_iff.mp h _ hm) (List.cons_ne_nil _ _)

theorem leaf_mem_iff_of_internals_nil {fs : List Shape} (h : fs.flatMap Shape.internals = []) {b : Byte} :
    Shape.leaf b ∈ fs ↔ b ∈ fs.flatMap Shape.leaves := by
  refine ⟨fun hm => List.mem_flatMap.mpr ⟨_, hm, List.mem_singleton.mpr rfl⟩, fun hb => ?_⟩
  obtain ⟨sh, hm, hb⟩ := List.mem_flatMap.mp hb
  obtain ⟨c, rfl⟩ := exists_leaf_of_internals_nil h hm
  exact List.mem_singleton.mp hb ▸ hm

/-- R45: a leaf without a parent is known from its frequency. -/
theorem Shape.Holds.nodeAt_leaf {t : Tree} {b : Byte} (h : (Shape.leaf b).Holds t none) :
    t.nodeAt (leafIdx b) = { Node.empty with valid := true, freq := (t.nodeAt (leafIdx b)).freq } := by
  obtain ⟨hv, hi, hl, hr, hp, hq⟩ := h
  cases hn : t.nodeAt (leafIdx b)
  simp_all [Node.empty]

/-! Merges (R106). -/

theorem ne_internalIdx {n : NodeIdx} {k : BitVec 8} (h : n.toNat < 256 + k.toNat) : n ≠ internalIdx k := by
  rintro rfl
  exact Nat.lt_irrefl _ (toNat_internalIdx k ▸ h)

@[simp] theorem Tree.merge_root (t : Tree) (a c : NodeIdx) : (t.merge a c).root = t.root := by
  simp [Tree.merge, Tree.setParent_eq]

@[simp] theorem Tree.merge_rootValid (t : Tree) (a c : NodeIdx) : (t.merge a c).rootValid = t.rootValid := by
  simp [Tree.merge]

/-- R106: what a merge of two allocated nodes writes. -/
theorem Tree.nodeAt_merge_below {t : Tree} {a c : NodeIdx} (h255 : t.nint ≠ 255#8) (hac : a ≠ c)
    (ha : a.toNat < 256 + t.nint.toNat) (hc : c.toNat < 256 + t.nint.toNat) (m : NodeIdx) :
    (t.merge a c).nodeAt m =
      if m = internalIdx t.nint then
        { Node.empty with valid := true, internal := true, freq := (t.nodeAt a).freq + (t.nodeAt c).freq,
                          left := a, right := c }
      else if m = a ∨ m = c then { t.nodeAt m with parent := internalIdx t.nint, hasParent := true }
      else t.nodeAt m := by
  have hn := toNat_internalIdx t.nint ▸ internalIdx_lt h255
  exact Tree.nodeAt_merge h255 hac (ne_internalIdx ha) (ne_internalIdx hc) (Nat.lt_trans ha hn) (Nat.lt_trans hc hn) m

/-- A merge gives a frequency to no node but the one it makes. -/
theorem Tree.freq_merge {t : Tree} {a c m : NodeIdx} (h255 : t.nint ≠ 255#8) (hac : a ≠ c)
    (ha : a.toNat < 256 + t.nint.toNat) (hc : c.toNat < 256 + t.nint.toNat) (hm : m.toNat < 256 + t.nint.toNat) :
    ((t.merge a c).nodeAt m).freq = (t.nodeAt m).freq := by
  rw [Tree.nodeAt_merge_below h255 hac ha hc, if_neg (ne_internalIdx hm)]
  split <;> rfl

/-- R106: the order of the queue after a merge. -/
theorem Tree.Queue.merge {t : Tree} {a c : NodeIdx} {q : List NodeIdx} (h255 : t.nint ≠ 255#8)
    (h : t.Queue (256 + t.nint.toNat) (a :: c :: q)) :
    (t.merge a c).Queue (256 + (t.merge a c).nint.toNat) ((t.merge a c).insert (internalIdx t.nint) q) := by
  have hac := ((List.pairwise_cons.mp h.ordered).1 c List.mem_cons_self).ne
  have ha := h.below a List.mem_cons_self
  have hc := h.of_cons.below c List.mem_cons_self
  have hq := h.of_cons.of_cons
  have hu := (hq.congr fun m hm => Tree.freq_merge h255 hac ha hc (hq.below m hm)).insert
    (n := internalIdx t.nint) (toNat_internalIdx t.nint).ge
  rwa [toNat_internalIdx, Nat.add_assoc, ← nint_succ h255, ← Tree.merge_nint t a c] at hu

/-- R111: the order of the queue after any number of merges. With `NINT` and the queue's entries together at most 256
there is a slot for each merge. -/
theorem mergeLoop_ordered (k : Nat) {t : Tree} {q : List NodeIdx} (h : t.Queue (256 + t.nint.toNat) q)
    (hroom : t.nint.toNat + q.length ≤ 256) :
    (mergeLoop k (t, q)).2.Pairwise (mergeLoop k (t, q)).1.Before := by
  induction k generalizing t q with
  | zero => exact h.ordered
  | succ k ih =>
    match q, h, hroom with
    | [], h, _ => exact h.ordered
    | [_], h, _ => exact h.ordered
    | a :: c :: q, h, hroom =>
      have h255 : t.nint ≠ 255#8 := by
        intro e
        simp [e] at hroom
        omega
      refine ih (h.merge h255) ?_
      rw [Tree.merge_nint, nint_succ h255, Tree.insert, (insertQ_perm _ _ _).length_eq]
      simp only [List.length_cons] at hroom ⊢
      omega

end Sys2Proof.Machine

section
open Sys2Proof Sys2Proof.Machine

/-- Settles O34: the place of Insert, and the order of the frequencies as one that Insert keeps. -/
theorem insertStable : Obligations.InsertStable := fun fr n q =>
  ⟨insertQ_eq_append fr n q, fun hq =>
    insertQ_pairwise hq (fun _ _ h => h) (fun _ _ h => h) fun _ _ h => BitVec.le_of_lt h⟩

/-- Settles O35: the entries are the leaves of the bytes that occur, as the forest holds them, and the bytes are
inserted in ascending order. -/
theorem initialQueue : Obligations.InitialQueue := by
  intro f t q h
  have hord := (initialQueue_ordered f).ordered
  obtain ⟨u, gs, e, hF, hI, hP⟩ := addLeaves_forest allBytes nodup_allBytes (Forest.empty f) rfl (by simp)
  rw [h] at hord
  obtain ⟨rfl, rfl⟩ : t = u ∧ q = gs.map Shape.index := Prod.mk.inj (h.symm.trans e)
  have hmem : ∀ b, Shape.leaf b ∈ gs ↔ freqAt f b ≠ 0#64 := fun b => by
    rw [leaf_mem_iff_of_internals_nil hI, hP.mem_iff]
    simp [mem_allBytes]
  refine ⟨fun n => ⟨fun hn => ?_, ?_⟩, fun b hb => ?_, hord⟩
  · obtain ⟨sh, hsh, rfl⟩ := List.mem_map.mp hn
    obtain ⟨b, rfl⟩ := exists_leaf_of_internals_nil hI hsh
    exact ⟨b, rfl, (hmem b).mp hsh⟩
  · rintro ⟨b, rfl, hb⟩
    exact List.mem_map.mpr ⟨.leaf b, (hmem b).mpr hb, rfl⟩
  · have hleaf := hF.holds _ ((hmem b).mpr hb)
    exact hF.leafFreq b hleaf.1 ▸ hleaf.nodeAt_leaf

/-- Settles O36: the slots that a merge writes, with the loop's next round on the tree and the queue it leaves. -/
theorem mergeStep : Obligations.MergeStep := by
  intro k t a c q h255 hac ha hc
  have hnode := Tree.nodeAt_merge_below h255 hac ha hc
  refine ⟨t.merge a c, internalIdx t.nint, toNat_internalIdx t.nint, rfl, t.merge_nint a c, t.merge_nleaf a c,
    t.merge_root a c, t.merge_rootValid a c, ?_, ?_, ?_, fun m hma hmc hmn => ?_⟩
  · rw [hnode, if_pos rfl]
    rfl
  · rw [hnode, if_neg (ne_internalIdx ha), if_pos (.inl rfl)]
  · rw [hnode, if_neg (ne_internalIdx hc), if_pos (.inr rfl)]
  · rw [hnode, if_neg hmn, if_neg (not_or.mpr ⟨hma, hmc⟩)]

/-- Settles O37: the initial queue is in order, and each merge keeps that. -/
theorem mergeOrder : Obligations.MergeOrder := by
  intro f k t q h
  have h0 := initialQueue_ordered f
  have hnint : (addLeaves f allBytes (Tree.empty, [])).1.nint = 0#8 := addLeaves_nint f allBytes Tree.empty []
  have hm := mergeLoop_ordered k (h0.mono (Nat.le_add_right ..)) (by simpa [hnint] using h0.length_le)
  rwa [Prod.mk.eta, h] at hm

end
end

section
/-! PROOF. COUNT and BUILD (spec/41_tree_builder.md R107 to R112): what a counting pass leaves in State, and what the
tree of a frequency table holds. -/

namespace Sys2Proof.Machine

/-! COUNT (R107). -/

/-- R107: a count of fewer than 2^64 occurrences is exact. -/
theorem toNat_count {l : List Byte} (hl : l.length < 2 ^ 64) (b : Byte) :
    (BitVec.ofNat 64 (l.count b)).toNat = l.count b := by
  rw [BitVec.toNat_ofNat]
  exact Nat.mod_eq_of_lt (Nat.lt_of_le_of_lt List.count_le_length hl)

theorem InPort.seek0_advanced (p : InPort) (k : Nat) :
    p.seek0.advanced k = { p with pos := BitVec.ofNat 64 k, rbuf := 0#8, rcnt := 0#3 } := by
  simp [InPort.advanced, InPort.seek0]

theorem execCount_unseekable {s : State} (h : s.inp.seekable = false) :
    execCount s = .next (s.complete .unseekableInput) :=
  if_neg (by simp [h])

theorem execCount_seekable {s : State} (h : s.inp.seekable = true) :
    execCount s = .next ((s.invalidateTree.counted (countPass s.inp)).complete
      (if (countPass s.inp).tooLong then .badLength else .ok)) := by
  cases hl : (countPass s.inp).tooLong <;> simp [execCount, h, hl]

/-! BUILD (R108 to R112). -/

theorem symbolCount_le (f : Vector Dword 256) : symbolCount f ≤ 256 :=
  length_leaves_le (nodup_allBytes.filter _)

theorem freqAt_of_symbolCount_zero {f : Vector Dword 256} (h : symbolCount f = 0) (b : Byte) : freqAt f b = 0#64 := by
  by_contra hb
  exact symbolCount_pos hb h

theorem Tree.Partial.takeRoot {t : Tree} (h : t.Partial) (q : List NodeIdx) : (t.takeRoot q).Partial := by
  unfold Tree.takeRoot
  split
  · exact ⟨h.invalidEmpty, h.allocated⟩
  · exact h

/-- R44, R45: BUILD takes the internal slots in order and leaves the others empty. -/
theorem buildTree_partial (f : Vector Dword 256) : (buildTree f).Partial := by
  obtain ⟨t, fs, e1, hF, -⟩ := addLeaves_forest allBytes nodup_allBytes (Forest.empty f) rfl (by simp)
  obtain ⟨u, gs, e2, hG, -⟩ := mergeLoop_forest (fs.map Shape.index).length hF (by simp)
  rw [List.map_nil] at e1
  simp only [buildTree, e1, e2]
  exact hG.inOrder.takeRoot _

theorem buildTree_nint {f : Vector Dword 256} {sh : Shape} (h : (buildTree f).Is sh)
    (hl : sh.leaves.length = symbolCount f) : (buildTree f).nint.toNat = symbolCount f - 1 := by
  rw [h.nint, ← hl, sh.length_leaves, Nat.add_sub_cancel]

/-- R112: a tree of one leaf is that leaf. -/
theorem Shape.exists_leaf_of_length {sh : Shape} (h : sh.leaves.length = 1) : ∃ b, sh = .leaf b := by
  cases sh with
  | leaf b => exact ⟨b, rfl⟩
  | node i l r =>
    rw [Shape.length_leaves, Shape.internals, List.length_cons] at h
    omega

theorem Shape.Holds.leaf_not_internal {t : Tree} {p : Option NodeIdx} {sh : Shape} (h : sh.Holds t p) {b : Byte}
    (hb : b ∈ sh.leaves) : (t.nodeAt (leafIdx b)).internal = false := by
  induction sh generalizing p with
  | leaf c =>
    obtain ⟨-, hi, -⟩ := h
    exact List.mem_singleton.mp hb ▸ hi
  | node i l r ihl ihr =>
    obtain ⟨-, -, -, -, -, -, -, hl, hr⟩ := h
    exact (List.mem_append.mp hb).elim (ihl hl) (ihr hr)

/-- R53 (1): an internal node of the store is one of the shape. -/
theorem Tree.Is.mem_internals {t : Tree} {sh : Shape} (h : t.Is sh) {n : NodeIdx}
    (hn : (t.nodeAt n).internal = true) : n ∈ sh.internals := by
  have hv : (t.nodeAt n).valid = true := by
    by_contra hv
    rw [h.invalidEmpty n (by simpa using hv)] at hn
    cases hn
  rcases List.mem_append.mp (h.reachable n hv) with hm | hm
  · obtain ⟨b, hb, rfl⟩ := List.mem_map.mp hm
    rw [h.holds.leaf_not_internal hb] at hn
    cases hn
  · exact hm

/-! Frequencies (R110). -/

/-- R45, R108: a leaf slot has its byte's frequency, 0 where there is no leaf. -/
theorem buildTree_leafFreq (f : Vector Dword 256) (b : Byte) :
    ((buildTree f).nodeAt (leafIdx b)).freq = freqAt f b := by
  obtain ⟨hzero, hpos⟩ := buildTree_spec f
  by_cases h0 : symbolCount f = 0
  · rw [hzero h0, Tree.nodeAt_empty, freqAt_of_symbolCount_zero h0]
    rfl
  · obtain ⟨sh, hs, hleaves, -, -, hfreq, -⟩ := hpos h0
    by_cases hb : b ∈ sh.leaves
    · exact hfreq b hb
    · have hv : ((buildTree f).nodeAt (leafIdx b)).valid = false :=
        Bool.eq_false_iff.mpr (mt (hs.leaf_valid b).mp hb)
      rw [hs.invalidEmpty _ hv, Classical.not_not.mp (mt (hleaves b).mpr hb)]
      rfl

/-- R110: an internal node has the 64-bit sum of its children's frequencies. -/
theorem buildTree_nodeFreq (f : Vector Dword 256) {n : NodeIdx} (hn : ((buildTree f).nodeAt n).internal = true) :
    ((buildTree f).nodeAt n).freq = ((buildTree f).nodeAt ((buildTree f).nodeAt n).left).freq +
      ((buildTree f).nodeAt ((buildTree f).nodeAt n).right).freq := by
  obtain ⟨hzero, hpos⟩ := buildTree_spec f
  by_cases h0 : symbolCount f = 0
  · rw [hzero h0, Tree.nodeAt_empty] at hn
    cases hn
  · obtain ⟨sh, hs, -, -, -, -, hsums⟩ := hpos h0
    have hm := hs.mem_internals hn
    exact hsums n (hs.holds.internal_range hm).1 (hs.holds.valid (List.mem_append_right _ hm))

/-- R110: where no sum wraps, an internal node has the exact sum of its children's frequencies. -/
theorem Shape.Holds.freq_exact {f : Vector Dword 256} {t : Tree} {p : Option NodeIdx} {sh : Shape} (h : sh.Holds t p)
    (hleaf : ∀ b, (t.nodeAt (leafIdx b)).valid = true → (t.nodeAt (leafIdx b)).freq = freqAt f b)
    (hsum : ∀ n, 256 ≤ n.toNat → (t.nodeAt n).valid = true →
      (t.nodeAt n).freq = (t.nodeAt (t.nodeAt n).left).freq + (t.nodeAt (t.nodeAt n).right).freq)
    (hw : sh.weight f < 2 ^ 64) {n : NodeIdx} (hn : n ∈ sh.internals) :
    (t.nodeAt n).freq.toNat =
      (t.nodeAt (t.nodeAt n).left).freq.toNat + (t.nodeAt (t.nodeAt n).right).freq.toNat := by
  induction sh generalizing p with
  | leaf b => cases hn
  | node i l r ihl ihr =>
    have hnode := h.freq hleaf hsum hw
    obtain ⟨-, -, -, hleft, hright, -, -, hl, hr⟩ := h
    rw [Shape.weight] at hw hnode
    have hwl : l.weight f < 2 ^ 64 := by omega
    have hwr : r.weight f < 2 ^ 64 := by omega
    rcases List.mem_cons.mp hn with rfl | hn
    · rw [hleft, hright, hl.freq hleaf hsum hwl, hr.freq hleaf hsum hwr]
      exact hnode
    · exact (List.mem_append.mp hn).elim (ihl hl hwl) (ihr hr hwr)

/-- R110: the weight of the leaves of all bytes that occur is the sum of FREQ. -/
theorem Shape.weight_eq_total {f : Vector Dword 256} {sh : Shape} (hd : sh.leaves.Nodup)
    (hl : ∀ b, b ∈ sh.leaves ↔ freqAt f b ≠ 0#64) :
    sh.weight f = (allBytes.map fun b => (freqAt f b).toNat).sum := by
  have hperm : sh.leaves.Perm (allBytes.filter fun b => freqAt f b ≠ 0#64) :=
    (List.perm_ext_iff_of_nodup hd (nodup_allBytes.filter _)).mpr fun b => by simp [hl, mem_allBytes]
  have hrest : ((allBytes.filter fun b => ¬freqAt f b ≠ 0#64).map fun b => (freqAt f b).toNat).sum = 0 := by
    refine List.sum_eq_zero fun k hk => ?_
    obtain ⟨b, hb, rfl⟩ := List.mem_map.mp hk
    have h0 : freqAt f b = 0#64 := by simpa using (List.mem_filter.mp hb).2
    rw [h0]
    rfl
  rw [Shape.weight_eq_sum, (hperm.map _).sum_eq,
    ← List.sum_map_filter_add_sum_map_filter_not (fun b => freqAt f b ≠ 0#64) _ allBytes, hrest, Nat.add_zero]

/-- R110: with the sum of FREQ below 2^64 the root has that sum as its frequency, and no sum below it wraps. -/
theorem buildTree_freq_exact {f : Vector Dword 256} (h0 : symbolCount f ≠ 0)
    (hw : (allBytes.map fun b => (freqAt f b).toNat).sum < 2 ^ 64) :
    ((buildTree f).nodeAt (buildTree f).root).freq.toNat = (allBytes.map fun b => (freqAt f b).toNat).sum ∧
    ∀ n, ((buildTree f).nodeAt n).internal = true →
      ((buildTree f).nodeAt n).freq.toNat = ((buildTree f).nodeAt ((buildTree f).nodeAt n).left).freq.toNat +
        ((buildTree f).nodeAt ((buildTree f).nodeAt n).right).freq.toNat := by
  obtain ⟨sh, hs, hleaves, -, -, -, hsums⟩ := (buildTree_spec f).2 h0
  have hweight := Shape.weight_eq_total hs.leavesDistinct hleaves
  have hleaf := fun b (_ : ((buildTree f).nodeAt (leafIdx b)).valid = true) => buildTree_leafFreq f b
  rw [← hweight] at hw ⊢
  exact ⟨hs.root ▸ hs.holds.freq hleaf hsums hw, fun _ hn =>
    hs.holds.freq_exact hleaf hsums hw (hs.mem_internals hn)⟩

/-- R110: after COUNT the entries of FREQ add up to LENGTH. -/
theorem countPass_total {p : InPort} (h : p.data.length < 2 ^ 63) :
    (allBytes.map fun b => (freqAt (countPass p).freq b).toNat).sum = (countPass p).length.toNat ∧
      (countPass p).length.toNat = p.data.length := by
  obtain ⟨-, -, hlen, hfreq⟩ := countPass_short h
  have hlt : p.data.length < 2 ^ 64 := Nat.lt_trans h (by decide)
  have hl : (countPass p).length.toNat = p.data.length := by
    rw [hlen, BitVec.toNat_ofNat, Nat.mod_eq_of_lt hlt]
  refine ⟨?_, hl⟩
  rw [hl, ← sum_counts p.data]
  simp only [hfreq, toNat_count hlt]

end Sys2Proof.Machine

section
open Sys2Proof Sys2Proof.Machine

/-- Settles O33: the counting pass on both sides of 2^63 bytes, with the port, the counts and the error it ends with. -/
theorem countCommand : Obligations.CountCommand := by
  refine ⟨by decide, fun s => ⟨execCount_unseekable, fun hs hl => ?_, fun hs hl => ?_⟩⟩
  · obtain ⟨hp, ht, hn, hf⟩ := countPass_short hl
    refine ⟨(countPass s.inp).freq, ?_, fun b => ?_⟩
    · rw [InPort.seek0_advanced] at hp
      rw [exec, execCount_seekable hs, State.counted, hp, hn, ht]
      rfl
    · rw [hf, toNat_count (Nat.lt_trans hl (by decide))]
  · obtain ⟨hp, ht, hn, hf⟩ := countPass_long hl
    refine ⟨(countPass s.inp).freq, ?_, fun b => ?_⟩
    · rw [InPort.seek0_advanced] at hp
      rw [exec, execCount_seekable hs, State.counted, hp, hn, ht, maxLen_eq]
      rfl
    · rw [hf, toNat_count (Nat.lt_of_le_of_lt (List.length_take_le ..) (by decide))]

/-- Settles O38: the tree has the leaves counted, one internal node fewer, and the internal slots taken in order. -/
theorem buildCounts : Obligations.BuildCounts := by
  intro s
  refine ⟨buildTree s.freq, rfl, ?_⟩
  obtain ⟨hzero, hpos⟩ := buildTree_spec s.freq
  have halloc := (buildTree_partial s.freq).allocated
  by_cases h0 : symbolCount s.freq = 0
  · rw [hzero h0] at halloc ⊢
    have hnint : Tree.empty.nint.toNat = 0 := rfl
    refine ⟨by rw [h0]; rfl, by rw [h0]; rfl, symbolCount_le _, by simp [h0, Tree.empty], fun n hn => ?_, by omega,
      by omega, fun _ => rfl⟩
    rw [halloc n hn, hnint]
    omega
  · obtain ⟨sh, hs, hleaves, hlen, hroot, -, -⟩ := hpos h0
    have hnint := buildTree_nint hs hlen
    refine ⟨hnint, hs.nleaf.trans hlen, symbolCount_le _, by rw [hs.rootValid]; simp [h0], fun n hn => ?_, hroot,
      fun h1 => ?_, fun h => absurd h h0⟩
    · rw [halloc n hn, hnint]
      omega
    · obtain ⟨b, rfl⟩ := Shape.exists_leaf_of_length (hlen.trans h1)
      exact ⟨b, (hleaves b).mp (List.mem_singleton.mpr rfl), hs.root⟩

/-- Settles O39: the tree that BUILD makes of a table with a byte that occurs. -/
theorem buildShape : Obligations.BuildShape := by
  refine ⟨by decide, fun s h0 => ?_⟩
  obtain ⟨sh, hs, hleaves, -⟩ := (buildTree_spec s.freq).2 h0
  exact ⟨buildTree s.freq, sh, rfl, hs, hleaves, hs.leavesDistinct⟩

/-- Settles O40: the frequencies of any BUILD, and the exact sums of one after a COUNT, whose entries add up to the
length of the input. -/
theorem buildFrequencies : Obligations.BuildFrequencies := by
  refine ⟨fun s t h => ?_, fun s a t hs hl hne ha ht => ?_⟩
  · cases h
    exact ⟨buildTree_leafFreq s.freq, fun n => buildTree_nodeFreq s.freq⟩
  · rw [exec, execCount_seekable hs] at ha
    cases ha
    cases ht
    obtain ⟨htotal, hlen⟩ := countPass_total hl
    have hpos : (countPass s.inp).length ≠ 0#64 := fun e => by
      rw [e] at hlen
      exact hne (List.eq_nil_of_length_eq_zero hlen.symm)
    have hsymbols := countPass_symbols (countPass_short hl).2.1 hpos
    obtain ⟨hroot, hexact⟩ := buildTree_freq_exact hsymbols (by omega)
    exact ⟨BitVec.eq_of_toNat_eq (hroot.trans htotal), htotal, hexact⟩

end
end

section
/-! PROOF. The tree codec (spec/42_tree_codec.md R113 to R117): the states that SER_TREE and DES_TREE complete in, the
two failures of a reading told apart by their bits, and a written tree read back. -/

namespace Sys2Proof.Machine

/-! SER_TREE (R113, R116). -/

/-- R116: a marker bit for each node and eight bits more for each leaf. -/
theorem Shape.length_preorder (sh : Shape) :
    sh.preorder.length = (2 * sh.leaves.length - 1) + 8 * sh.leaves.length := by
  have h : sh.preorder.length = sh.internals.length + 9 * sh.leaves.length := by
    induction sh with
    | leaf b => simp [preorder, internals, leaves]
    | node i l r ihl ihr =>
      simp only [preorder, internals, leaves, List.length_cons, List.length_append, ihl, ihr]
      omega
  have := sh.length_leaves
  omega

theorem execSerTree_badState {s : State} (h : s.out.closed = true ∨ s.tree.rootValid = false) :
    execSerTree s = .next (s.complete .badState) := by
  unfold execSerTree
  rcases h with h | h
  · exact if_pos h
  · rw [h]
    exact ite_self _

/-- R113: SER_TREE of the tree `sh` on an open output. -/
theorem execSerTree_of_is {s : State} {sh : Shape} (h : s.tree.Is sh) (hc : s.out.closed = false) :
    ∃ o, execSerTree s = .next ({ s with out := o }.complete .ok) ∧ s.out.Appends sh.preorder o := by
  obtain ⟨o, ho, ha⟩ := ser_holds h.holds Config.stackDepth (Nat.lt_succ_of_le h.internals_le) s.out
  rw [← h.root] at ho
  exact ⟨o, by simp [execSerTree, hc, h.rootValid, ho, finish], ha⟩

/-! DES_TREE (R114): the states it completes in. -/

/-- R142: the codes number the ends of a command in order. -/
theorem ErrCode.code_toNat (e : ErrCode) : e.code.toNat = e.ctorIdx := by cases e <;> rfl

theorem ErrCode.code_injective {e f : ErrCode} (h : e.code = f.code) : e = f := by
  rw [← ofNat_ctorIdx e, ← code_toNat, h, code_toNat, ofNat_ctorIdx]

/-- R114: the tree `t` read and the reader left at `q`. -/
def State.treeRead (s : State) (q : InPort) (t : Tree) : State :=
  { s with inp := q, tree := t, codes := Codes.empty }.complete .ok

/-- R114, R32: no tree, the reader left at `q`, and EOF where the stream ended. -/
def State.treeFailed (s : State) (e : ErrCode) (q : InPort) : State :=
  { s with
    inp := q
    tree := Tree.empty
    codes := Codes.empty
    status := if e = ErrCode.truncatedArchive then { s.status with eof := true } else s.status }.complete e

theorem exec_desTree_node {s : State} {r : NodeIdx} {q : InPort} {u : Tree} (h : readTree s.inp = .node r q u) :
    exec .desTree s = .next (s.treeRead q (u.withRoot r)) := by
  simp only [exec, execDesTree, h]
  rfl

theorem exec_desTree_stop {s : State} {e : ErrCode} {q : InPort} (h : readTree s.inp = .stop e q) :
    exec .desTree s = .next (s.treeFailed e q) := by
  simp only [exec, execDesTree, h, raiseReading, State.treeFailed]
  split <;> rfl

/-- R114, R144: the error and the reader that DES_TREE ends with are those of the reading. -/
theorem exec_desTree_failed_iff {s : State} {e : ErrCode} {q : InPort} (he : e ≠ .ok) :
    exec .desTree s = .next (s.treeFailed e q) ↔ readTree s.inp = .stop e q := by
  refine ⟨fun h => ?_, exec_desTree_stop⟩
  cases hr : readTree s.inp with
  | overflow => exact absurd hr (readTree_fits s.inp)
  | node r p u =>
    rw [exec_desTree_node hr] at h
    have hcode : ErrCode.ok.code = e.code := congrArg (fun t => t.status.errcode) (Host.Outcome.next.inj h)
    exact absurd (ErrCode.code_injective hcode).symm he
  | stop f p =>
    rw [exec_desTree_stop hr] at h
    have hcode : f.code = e.code := congrArg (fun t => t.status.errcode) (Host.Outcome.next.inj h)
    have hinp : p = q := congrArg State.inp (Host.Outcome.next.inj h)
    rw [ErrCode.code_injective hcode, hinp]

/-! R114: the two failures, by the bits. -/

theorem treeCut_iff_readTree {p : InPort} (hs : p.Short) (hw : p.Wf) :
    TreeCut p.bits ↔ ∃ q, readTree p = .stop .truncatedArchive q := by
  refine ⟨fun h => ?_, fun ⟨q, h⟩ => ?_⟩
  · obtain ⟨q, hq, -⟩ := readTree_cut hs hw h
    exact ⟨q, hq⟩
  · rcases readTree_stop hs hw h with ⟨-, hcut, -⟩ | ⟨he, -⟩
    · exact hcut
    · cases he

theorem treeCorrupt_iff_readTree {p : InPort} (hs : p.Short) (hw : p.Wf) {rest : List Bool} :
    TreeCorrupt p.bits rest ↔ ∃ q, readTree p = .stop .corruptTree q ∧ q.bits = rest := by
  refine ⟨fun h => ?_, fun ⟨q, h, hq⟩ => ?_⟩
  · obtain ⟨q, hq, hb, -⟩ := readTree_corrupt hs hw h
    exact ⟨q, hq, hb⟩
  · rcases readTree_stop hs hw h with ⟨he, -⟩ | ⟨-, hcorrupt⟩
    · cases he
    · exact hq ▸ hcorrupt

/-! R45: a tree read from the input has no frequencies. -/

/-- R45: the frequency of every node is 0. -/
def Tree.NoFreq (t : Tree) : Prop := ∀ n, (t.nodeAt n).freq = 0#64

theorem Tree.noFreq_empty : Tree.empty.NoFreq := fun n => by rw [nodeAt_empty]; rfl

theorem Tree.NoFreq.setNode {t : Tree} (h : t.NoFreq) (n : NodeIdx) {v : Node} (hv : v.freq = 0#64) :
    (t.setNode n v).NoFreq := fun m => by
  rw [nodeAt_setNode]
  split
  · exact hv
  · exact h m

theorem Tree.NoFreq.setLeft {t : Tree} (h : t.NoFreq) (n l : NodeIdx) : (t.setLeft n l).NoFreq := h.setNode n (h n)

theorem Tree.NoFreq.setRight {t : Tree} (h : t.NoFreq) (n r : NodeIdx) : (t.setRight n r).NoFreq := h.setNode n (h n)

theorem Tree.NoFreq.setParent {t : Tree} (h : t.NoFreq) (n : NodeIdx) (p : Option NodeIdx) :
    (t.setParent n p).NoFreq := by
  rw [setParent_eq]
  exact h.setNode n (h n)

theorem Tree.NoFreq.openInternal {t : Tree} (h : t.NoFreq) (p : Option NodeIdx) : (t.openInternal p).NoFreq :=
  (NoFreq.setNode (t := { t with nint := t.nint + 1#8 }) h _ rfl).setParent _ p

theorem Tree.NoFreq.openLeaf {t : Tree} (h : t.NoFreq) (v : Byte) (p : Option NodeIdx) : (t.openLeaf v p).NoFreq :=
  (NoFreq.setNode (t := { t with nleaf := t.nleaf + 1#9 }) h _ rfl).setParent _ p

theorem des_noFreq {d : Nat} {par : Option NodeIdx} {p q : InPort} {t u : Tree} {r : NodeIdx} (ht : t.NoFreq)
    (h : des d par p t = .node r q u) : u.NoFreq := by
  induction d generalizing par p q t u r with
  | zero => cases h
  | succ d ih =>
    rw [des] at h
    split at h
    · cases h
    · split at h
      · cases h
      · dsimp only at h
        split at h
        · next l p2 u2 hl =>
          have hu2 := ih (ht.openInternal par) hl
          split at h
          · next r2 p3 u3 hr =>
            cases h
            exact (ih (hu2.setLeft _ l) hr).setRight _ r2
          · cases h
          · cases h
        · cases h
        · cases h
    · split at h
      · cases h
      · split at h
        · cases h
        · cases h
          exact ht.openLeaf _ par

/-! A whole tree (R114 to R117). -/

/-- R114: a reading that succeeds, with the shape it has built. -/
theorem readTree_built {p q : InPort} {r : NodeIdx} {u : Tree} (hs : p.Short) (hw : p.Wf)
    (h : readTree p = .node r q u) :
    ∃ sh, (u.withRoot r).Is sh ∧ p.bits = sh.preorder ++ q.bits ∧
      sh.internals.map BitVec.toNat = List.range' 256 sh.internals.length ∧ (u.withRoot r).NoFreq ∧ p.Keeps q := by
  obtain ⟨sh, hi, hk, hb⟩ := readTree_node h
  obtain ⟨sh', hi', hn⟩ := readTree_numbered h
  cases hi.unique hi'
  have hf : u.NoFreq := des_noFreq Tree.noFreq_empty h
  exact ⟨sh, hi, hb hs hw, hn, hf, hk⟩

theorem readTree_stop_not_tree {p q : InPort} {e : ErrCode} (hs : p.Short) (hw : p.Wf)
    (h : readTree p = .stop e q) :
    ¬ ∃ (sh : Shape) (rest : List Bool), sh.leaves.Nodup ∧ p.bits = sh.preorder ++ rest := by
  rintro ⟨sh, rest, hd, hb⟩
  rcases readTree_stop hs hw h with ⟨-, hcut, -⟩ | ⟨-, hcorrupt⟩
  · exact hcut.not_tree sh hb
  · exact hcorrupt.not_tree hd hb

/-- R115: the bits of a tree with distinct leaves make DES_TREE read that tree, and no more bits than them. -/
theorem exec_desTree_preorder {s : State} {sh : Shape} {rest : List Bool} (hw : s.inp.Wf) (hs : s.inp.Short)
    (hd : sh.leaves.Nodup) (hb : s.inp.bits = sh.preorder ++ rest) :
    ∃ q t sh', exec .desTree s = .next (s.treeRead q t) ∧ q.bits = rest ∧ t.Is sh' ∧ sh'.same sh = true := by
  obtain ⟨r, q, u, sh', hr, hq, hi, hsame, -⟩ := readTree_preorder hd hs hw hb
  exact ⟨q, u.withRoot r, sh', exec_desTree_node hr, hq, hi, hsame⟩

theorem Shape.internals_le_of_nodup {sh : Shape} (h : sh.leaves.Nodup) : sh.internals.length ≤ 255 := by
  have := length_leaves_le h
  have := sh.length_leaves
  omega

theorem Shape.codeFor_of_same {a b : Shape} (h : a.same b = true) (c : Byte) : a.codeFor c = b.codeFor c := by
  obtain ⟨-, -, -, hpath⟩ := same_leaves h
  rw [codeFor, codeFor, hpath]

end Sys2Proof.Machine

section
open Sys2Proof Sys2Proof.Machine

/-- Settles O41: the two states that SER_TREE turns away, and the walk of a held tree with the bits it appends. -/
theorem serTreeCommand : Obligations.SerTreeCommand := by
  refine ⟨by decide, fun s => execSerTree_badState, fun s sh hc hi => ?_⟩
  obtain ⟨o, ho, ha⟩ := execSerTree_of_is hi hc
  exact ⟨o, ho, ha, sh.length_preorder⟩

/-- Settles O42: how the reading ends, node or failure, with the bits that belong to each end. -/
theorem desTreeCommand : Obligations.DesTreeCommand := by
  refine ⟨by decide, fun s hw hs => ⟨?_, ?_, fun rest => ?_⟩⟩
  · cases hr : readTree s.inp with
    | overflow => exact absurd hr (readTree_fits s.inp)
    | node r q u =>
      obtain ⟨sh, hi, hb, hn, hf, hk⟩ := readTree_built hs hw hr
      obtain ⟨hdata, hseek⟩ := hk.stream
      have hnint := hi.nint
      have hle := hi.internals_le
      exact .inl ⟨q, u.withRoot r, sh, exec_desTree_node hr, hi, hb, hn, by omega,
        by rw [hi.nleaf, hnint, sh.length_leaves], hf, hdata, hseek, hk.wf hw⟩
    | stop e q =>
      obtain ⟨-, hk⟩ := des_stop hr
      obtain ⟨hdata, hseek⟩ := hk.stream
      refine .inr ⟨readTree_stop_not_tree hs hw hr, q, hdata, hseek, hk.wf hw, ?_⟩
      have hexec := exec_desTree_stop hr
      rcases readTree_stop hs hw hr with ⟨rfl, -, hb⟩ | ⟨rfl, -⟩
      · exact .inl ⟨hexec, hb⟩
      · exact .inr hexec
  · rw [treeCut_iff_readTree hs hw]
    exact exists_congr fun q => (exec_desTree_failed_iff (by decide)).symm
  · rw [treeCorrupt_iff_readTree hs hw]
    exact exists_congr fun q => and_congr_left' (exec_desTree_failed_iff (by decide)).symm

/-- Settles O43: DES_TREE on the bits of a tree, whose at most 256 leaves bound its internal nodes and its paths. -/
theorem desTreeAccepts : Obligations.DesTreeAccepts := by
  intro s sh rest hw hs hd hb
  obtain ⟨q, t, sh', hexec, hq, hi, hsame⟩ := exec_desTree_preorder hw hs hd hb
  have hle := Shape.internals_le_of_nodup hd
  exact ⟨q, t, sh', hexec, hq, hi, hsame, hle, length_leaves_le hd, fun b =>
    Nat.lt_succ_of_le ((sh.length_codeFor b).trans hle)⟩

/-- Settles O44: what SER_TREE appends is the pre-order of its tree, which DES_TREE reads back. -/
theorem serThenDes : Obligations.SerThenDes := by
  intro s a u sh rest hi hc ha hw hs hb
  obtain ⟨o, ho, happends⟩ := execSerTree_of_is hi hc
  cases ho.symm.trans ha
  have hbits : u.inp.bits = sh.preorder ++ rest := by
    rw [hb, State.complete_out, happends.bits, List.drop_left]
  obtain ⟨q, t, sh', hexec, hq, hi', hsame⟩ := exec_desTree_preorder hw hs hi.leavesDistinct hbits
  have hlen := sh.length_preorder
  have hleaves := sh.length_leaves
  refine ⟨u.treeRead q t, sh', hexec, rfl, hi', hsame, hq, Shape.codeFor_of_same hsame, ?_⟩
  have hcount : u.inp.bits.length = sh.preorder.length + q.bits.length := by
    rw [hbits, hq, List.length_append]
  change u.inp.bits.length = q.bits.length + _
  omega

end
end

section
/-! PROOF. The content codec (spec/43_content_codec.md R118, R119, R121 to R124): the codes of a tree, of which
none begins another and which fill Kraft's sum, the table of CODES, and a symbol written and read back. -/

namespace Sys2Proof.Machine

/-! The codes of a shape (R121, R122). -/

@[simp] theorem Shape.codeFor_leaf (b c : Byte) : (Shape.leaf b).codeFor c = [] := by
  by_cases h : b = c <;> simp [Shape.codeFor, Shape.path, h]

/-- R121: the first choice on the path to a leaf says in which subtree it is. -/
theorem Shape.codeFor_node {i : NodeIdx} {l r : Shape} (hd : (Shape.node i l r).leaves.Nodup) {b : Byte}
    (hb : b ∈ (Shape.node i l r).leaves) :
    (b ∈ l.leaves ∧ (Shape.node i l r).codeFor b = false :: l.codeFor b) ∨
      (b ∈ r.leaves ∧ (Shape.node i l r).codeFor b = true :: r.codeFor b) := by
  rcases List.mem_append.mp hb with hl | hr
  · exact .inl ⟨hl, path_left hl⟩
  · exact .inr ⟨hr, path_right (fun hl => (List.nodup_append.mp hd).2.2 b hl b hr rfl) hr⟩

/-- R121: the descent by the code of a leaf ends at that leaf. -/
theorem Shape.Holds.follow_codeFor {t : Tree} {p : Option NodeIdx} {sh : Shape} (h : sh.Holds t p)
    (hd : sh.leaves.Nodup) {b : Byte} (hb : b ∈ sh.leaves) : t.follow sh.index (sh.codeFor b) = leafIdx b := by
  induction sh generalizing p with
  | leaf c =>
    obtain rfl : b = c := List.mem_singleton.mp hb
    rw [codeFor_leaf, Tree.follow, index_leaf]
  | node i l r ihl ihr =>
    obtain ⟨-, -, -, hleft, hright, -, -, hl, hr⟩ := h
    obtain ⟨hdl, hdr, -⟩ := List.nodup_append.mp hd
    rcases codeFor_node hd hb with ⟨hm, hc⟩ | ⟨hm, hc⟩
    · simpa [hc, Tree.follow, hleft] using ihl hl hdl hm
    · simpa [hc, Tree.follow, hright] using ihr hr hdr hm

/-- R122: two leaves part at some node, and their codes part there. -/
theorem Shape.codeFor_prefixFree {sh : Shape} (hd : sh.leaves.Nodup) {b c : Byte} (hb : b ∈ sh.leaves)
    (hc : c ∈ sh.leaves) (hne : b ≠ c) : ¬ sh.codeFor b <+: sh.codeFor c := by
  induction sh with
  | leaf a => exact absurd ((List.mem_singleton.mp hb).trans (List.mem_singleton.mp hc).symm) hne
  | node i l r ihl ihr =>
    obtain ⟨hdl, hdr, -⟩ := List.nodup_append.mp hd
    rcases codeFor_node hd hb with ⟨hmb, eb⟩ | ⟨hmb, eb⟩ <;> rcases codeFor_node hd hc with ⟨hmc, ec⟩ | ⟨hmc, ec⟩ <;>
      rw [eb, ec, List.cons_prefix_cons]
    · exact fun h => ihl hdl hmb hmc h.2
    · exact fun h => Bool.false_ne_true h.1
    · exact fun h => Bool.false_ne_true h.1.symm
    · exact fun h => ihr hdr hmb hmc h.2

/-- R122: with at least two leaves the root is no leaf, so every path has a first choice. -/
theorem Shape.one_le_length_codeFor {sh : Shape} (hd : sh.leaves.Nodup) (h2 : 2 ≤ sh.leaves.length) {b : Byte}
    (hb : b ∈ sh.leaves) : 1 ≤ (sh.codeFor b).length := by
  cases sh with
  | leaf a => exact absurd h2 (by simp [leaves])
  | node i l r => rcases codeFor_node hd hb with ⟨-, hc⟩ | ⟨-, hc⟩ <;> simp [hc]

/-- R122, Kraft's equation: each subtree has half the sum. -/
theorem Shape.kraft {sh : Shape} (hd : sh.leaves.Nodup) :
    (sh.leaves.map fun b => (1 / 2 : ℚ) ^ (sh.codeFor b).length).sum = 1 := by
  induction sh with
  | leaf b => simp [leaves]
  | node i l r ihl ihr =>
    obtain ⟨hdl, hdr, hdis⟩ := List.nodup_append.mp hd
    have half {x : Shape} (hx : ∀ b ∈ x.leaves, ((Shape.node i l r).codeFor b).length = (x.codeFor b).length + 1)
        (ih : (x.leaves.map fun b => (1 / 2 : ℚ) ^ (x.codeFor b).length).sum = 1) :
        (x.leaves.map fun b => (1 / 2 : ℚ) ^ ((Shape.node i l r).codeFor b).length).sum = 1 / 2 := by
      rw [List.map_congr_left fun b hb => by rw [hx b hb, pow_succ], List.sum_map_mul_right, ih, one_mul]
    have hl := half (fun b hb => by rw [path_left hb, List.length_cons]) (ihl hdl)
    have hr := half (fun b hb => by rw [path_right (fun h => hdis b h b hb rfl) hb, List.length_cons]) (ihr hdr)
    rw [leaves, List.map_append, List.sum_append, hl, hr]
    norm_num

/-! The code table (R118). -/

/-- The leaves of a tree in the order of their bytes. -/
theorem Tree.Is.leaves_perm {t : Tree} {sh : Shape} (h : t.Is sh) :
    sh.leaves.Perm (allBytes.filter fun b => (t.nodeAt (leafIdx b)).valid) :=
  (List.perm_ext_iff_of_nodup h.leavesDistinct (nodup_allBytes.filter _)).mpr fun b => by
    simp [List.mem_filter, mem_allBytes, h.leaf_valid]

/-- R47: the length of a code of at most 255 bits fits its entry. -/
theorem Codes.Hold.toNat_lenAt {c : Codes} {sh : Shape} (h : c.Hold sh) (hle : sh.internals.length ≤ 255) (b : Byte) :
    (c.lenAt b).toNat = (sh.codeFor b).length := by
  have hlen := sh.length_codeFor b
  rw [(h b).1, BitVec.toNat_ofNat, Nat.mod_eq_of_lt (by omega)]

/-- R47: the bits above a code are 0. -/
theorem Codes.Hold.bitsAt_above {c : Codes} {sh : Shape} (h : c.Hold sh) (b : Byte) {i : Nat}
    (hi : (sh.codeFor b).length ≤ i) : (c.bitsAt b).getLsbD i = false := by
  rw [(h b).2, getLsbD_ofBits, List.getD_eq_default _ _ hi, Bool.and_false]

/-- R118: CODES over a tree puts the codes of its shape into the table. -/
theorem execCodes_of_is {s : State} {sh : Shape} (h : s.tree.Is sh) :
    ∃ c, execCodes s = .next ({ s with codes := c }.complete .ok) ∧ c.valid = true ∧ c.Hold sh := by
  obtain ⟨c, hc, hv, hold⟩ := h.codesOf
  refine ⟨c, ?_, hv, hold⟩
  simp only [execCodes, h.rootValid, hc, if_true]
  rfl

/-! One symbol (R119, R120). -/

/-- R76, R79: the word of a command of class Y has the byte above the opcode. -/
theorem assemble_byte (opc b : Byte) : assemble opc (b.setWidth 9) 0#2 = opc.setWidth 32 ||| (b.setWidth 32 <<< 8) := by
  refine BitVec.eq_of_getLsbD_eq fun i hi => ?_
  simp only [assemble, BitVec.getLsbD_append, BitVec.getLsbD_or, BitVec.getLsbD_setWidth, BitVec.getLsbD_shiftLeft,
    BitVec.getLsbD_zero]
  by_cases h8 : i < 8
  · simp [h8, hi]
  · have ho : opc.getLsbD i = false := BitVec.getLsbD_of_ge opc i (Nat.not_lt.mp h8)
    by_cases h17 : i - 8 < 9
    · have h32 : i - 8 < 32 := by omega
      simp [h8, ho, hi, h17, h32]
    · have hb : b.getLsbD (i - 8) = false := BitVec.getLsbD_of_ge b _ (by omega)
      simp [h8, ho, h17, hb]

/-- R123: what ENC_SYM without an error has appended is the code of a leaf. -/
theorem execEncSym_ok {b : Byte} {s t : State} (h : execEncSym b s = .next t) (he : t.status.errcode = 0#4) :
    s.codes.valid = true ∧ (s.tree.nodeAt (leafIdx b)).valid = true ∧ s.out.Appends (s.codes.codeOf b) t.out := by
  rcases execEncSym_next h with ⟨e, hraised, rfl⟩ | ⟨-, hv, hl, rfl⟩
  · obtain rfl : e = .ok := ErrCode.code_injective he
    simp at hraised
  · exact ⟨hv, hl, s.out.writeBits_appends _⟩

/-- R53 (3): a valid code table holds the codes of the tree there is. -/
theorem State.CodesWf.hold {s : State} (h : s.CodesWf) (hv : s.codes.valid = true) {sh : Shape} (ht : s.tree.Is sh) :
    s.codes.Hold sh := by
  obtain ⟨sh', ht', hold⟩ := (if_pos hv).mp h
  exact ht.unique ht' ▸ hold

/-- R124: over a tree a descent ends at a leaf or for want of a bit. -/
theorem Tree.Is.readSym_cases {t : Tree} {sh : Shape} (h : t.Is sh) (p : InPort) :
    (∃ b q, t.readSym p = .leaf (leafIdx b) q) ∨ ∃ q, t.readSym p = .stop .truncatedArchive q := by
  rw [Tree.readSym, h.root]
  rcases descend_holds h.holds Config.stackDepth (Nat.lt_succ_of_le h.internals_le) p with
    ⟨b, q, -, hq, -⟩ | ⟨q, hq, -⟩
  · exact .inl ⟨b, q, hq⟩
  · exact .inr ⟨q, hq⟩

end Sys2Proof.Machine

section
open Sys2Proof Sys2Proof.Machine

/-- Settles O45: the table holds the codes of the tree's shape, and those are the paths from ROOT. -/
theorem codesCommand : Obligations.CodesCommand := by
  refine ⟨by decide, fun s hr => if_neg (by simp [hr]), fun s sh ht => ?_⟩
  obtain ⟨c, hexec, hv, hold⟩ := execCodes_of_is ht
  have hcode := hold.codeOf ht.internals_le
  have hlen := hold.toNat_lenAt ht.internals_le
  refine ⟨c, hexec, hv, fun b => ⟨hcode b, hlen b, fun i hi => hold.bitsAt_above b (hlen b ▸ hi)⟩, fun b hb => ?_⟩
  rw [hcode, ht.root]
  exact ht.holds.follow_codeFor ht.leavesDistinct ((ht.leaf_valid b).mp hb)

/-- Settles O46: the leaves are those of the tree's shape, whose codes are its paths. -/
theorem codesPrefixFree : Obligations.CodesPrefixFree := by
  intro s t hs h2 hexec hr
  obtain ⟨sh, ht⟩ := hs.tree.exists_is hr
  obtain ⟨c, hc, -, hold⟩ := execCodes_of_is ht
  cases hc.symm.trans hexec
  have hcode : c.codeOf = sh.codeFor := funext (hold.codeOf ht.internals_le)
  have hd := ht.leavesDistinct
  simp only [State.complete_tree, State.complete_codes, hcode, ht.leaf_valid]
  refine ⟨fun b c hb hc hne => sh.codeFor_prefixFree hd hb hc hne,
    fun b hb => sh.one_le_length_codeFor hd (ht.nleaf ▸ h2) hb, ?_⟩
  rw [← (ht.leaves_perm.map _).sum_eq, Shape.kraft hd]

/-- Settles O47: the three tests in their order, and the bits of the code appended. -/
theorem encSymCommand : Obligations.EncSymCommand := by
  refine ⟨assemble_byte 0x31#8, fun s b => ⟨fun h => ?_, fun hc hv hl => ?_, fun hc hv hl => ?_⟩⟩
  · rcases h with h | h <;> simp [exec, execEncSym, h, raise]
  · simp [exec, execEncSym, hc, hv, hl, raise]
  · exact ⟨_, by simp [exec, execEncSym, hc, hv, hl, finish], s.out.writeBits_appends _⟩

/-- Settles O49: the bits appended are the code of b, which is its path in either tree, and the descent follows it. -/
theorem encSymThenDecSym : Obligations.EncSymThenDecSym := by
  intro s a u sh sh' b rest hs ht hu hsame ha he hw hshort hbits
  obtain ⟨hv, hl, happ⟩ := execEncSym_ok ha he
  have hold := hs.codes.hold hv ht
  obtain ⟨hleaves, -⟩ := Shape.same_leaves hsame
  have hb : b ∈ sh'.leaves := hleaves ▸ (ht.leaf_valid b).mp hl
  rw [happ.bits, List.drop_left, hold.codeOf ht.internals_le, ← Shape.codeFor_of_same hsame] at hbits
  obtain ⟨q, hq, hrest, -⟩ := hu.readSym_code hw hshort hb hbits
  refine ⟨_, execDecSym_leaf hu.rootValid hq, rfl, rfl, hrest, ?_⟩
  rw [State.complete_inp, hrest, hbits, List.length_append, hold.toNat_lenAt ht.internals_le,
    Shape.codeFor_of_same hsame, Nat.add_comm]

/-- Settles O50: with no tree the code is BAD_STATE's, and over a tree no child is missing. -/
theorem decSymNeverCorrupt : Obligations.DecSymNeverCorrupt := by
  intro s hs
  by_cases hr : s.tree.rootValid = true
  · obtain ⟨sh, ht⟩ := hs.tree.exists_is hr
    rcases ht.readSym_cases s.inp with ⟨b, q, hq⟩ | ⟨q, hq⟩
    · exact ⟨_, execDecSym_leaf hr hq, by simp [ErrCode.code]⟩
    · exact ⟨_, execDecSym_truncated hr hq, by simp [ErrCode.code]⟩
  · exact ⟨_, if_neg hr, by simp [ErrCode.code]⟩

end
end

section
/-! PROOF. The sequencers (spec/44_sequencers.md R125 to R132): the archive ENCODE makes of a counted input, how DECODE
ends by what its header, its tree section and its content are, and the one read back from the other. -/

namespace Sys2Proof.Machine

/-! The output port at the end of a sequencer (R90, R132). -/

/-- R132: a closed output that holds just the bytes `l`. -/
def OutPort.closedWith (l : List Byte) : OutPort :=
  { data := l, cnt := BitVec.ofNat 64 l.length, closed := true, wbuf := 0#8, wcnt := 0#3 }

theorem OutPort.Finished.eq_closedWith {o : OutPort} (h : o.Finished) : o = closedWith o.data := by
  obtain ⟨hclosed, hwcnt, hwbuf, hcnt⟩ := h
  cases o
  simp_all [closedWith]

/-- R127: bytes decoded into an output opened for them are the whole output. -/
theorem OutPort.closeOut_writeBytes (o : OutPort) (l : List Byte) :
    (l.foldl OutPort.writeByte o.reopen).closeOut = closedWith l := by
  obtain ⟨hdata, hwcnt, -⟩ := OutPort.writeBytes_aligned l (o := o.reopen) rfl
  have hflush : (l.foldl OutPort.writeByte o.reopen).flush = l.foldl OutPort.writeByte o.reopen := if_pos hwcnt
  rw [(OutPort.writeBytes_appends l o.reopen).finished.eq_closedWith, OutPort.closeOut_data, hflush, hdata]
  rfl

theorem length_padded (l : List Bool) : (l ++ padding l).length = 8 * ((l.length + 7) / 8) := by
  rw [List.length_append, padding, List.length_replicate]
  omega

/-- R90, R125 (4): the bytes of an output opened and closed by a command are the bits it wrote and their padding. -/
theorem OutPort.Appends.streamBits_closeOut {o r : OutPort} {l : List Bool} (h : r.reopen.Appends l o) :
    streamBits o.closeOut.data = l ++ padding l := by
  have hbits : o.bits = l := h.bits
  have hzero : o.ZeroAbove := h.zeroAbove Nat.one_pos
  have hflush := OutPort.flush_bits hzero
  rw [hbits, OutPort.bits_of_aligned o.flush_wcnt] at hflush
  exact hflush

/-! The archive (R125). -/

/-- R125 (1) to (3): the header, the tree and the content of an archive of `l`. -/
def archiveBits (sh : Shape) (l : List Byte) : List Bool :=
  bitsOf (BitVec.ofNat 64 l.length) ++ sh.preorder ++ l.flatMap sh.codeFor

/-- R125: the bytes `x` are the archive of `l` with the tree `sh`. -/
structure IsArchive (x : List Byte) (sh : Shape) (l : List Byte) : Prop where
  distinct : sh.leaves.Nodup
  covers : ∀ b ∈ l, b ∈ sh.leaves
  bits : streamBits x = archiveBits sh l ++ padding (archiveBits sh l)
  short : x.length < 2 ^ 64

theorem length_archiveBits (sh : Shape) (l : List Byte) :
    (archiveBits sh l).length = 64 + (10 * sh.leaves.length - 1) + (l.flatMap sh.codeFor).length := by
  have hpos := sh.length_leaves
  rw [archiveBits, List.length_append, List.length_append, length_bitsOf, sh.length_preorder]
  omega

theorem length_of_archiveBits {x : List Byte} {sh : Shape} {l : List Byte}
    (h : streamBits x = archiveBits sh l ++ padding (archiveBits sh l)) :
    x.length = 8 + (10 * sh.leaves.length - 1 + (l.flatMap sh.codeFor).length + 7) / 8 := by
  have hlen := congrArg List.length h
  rw [length_streamBits, length_padded, length_archiveBits] at hlen
  omega

/-! ENCODE (R126). -/

/-- R126: the state of ENCODE after its counting pass. -/
def State.encoding (s : State) : State := s.openStreams.invalidateTree.counted (countPass s.inp.seek0)

/-- R126: what ENCODE has counted of an input of at most 2^63 - 1 bytes. -/
theorem State.encoding_eq {s : State} (h : s.inp.data.length < 2 ^ 63) :
    s.encoding = { s with
      inp := { s.inp with pos := BitVec.ofNat 64 s.inp.data.length, rbuf := 0#8, rcnt := 0#3 }
      out := s.out.reopen
      freq := (countPass s.inp.seek0).freq
      length := BitVec.ofNat 64 s.inp.data.length
      tree := Tree.empty
      codes := Codes.empty } := by
  obtain ⟨hinp, -, hlen, -⟩ := countPass_short (p := s.inp.seek0) h
  rw [InPort.seek0_advanced] at hinp
  rw [encoding, counted, hinp, hlen]
  rfl

/-- R126: ENCODE of an empty input writes the header alone. -/
theorem execEncode_empty {s : State} (hseek : s.inp.seekable = true) (hempty : s.inp.data = []) :
    execEncode s = .next ({ s with
      inp := { s.inp with pos := 0#64, rbuf := 0#8, rcnt := 0#3 }
      out := OutPort.closedWith (List.replicate 8 0#8)
      freq := (countPass s.inp.seek0).freq
      length := 0#64
      tree := Tree.empty
      codes := Codes.empty }.complete .ok) := by
  have hlt : s.inp.data.length < 2 ^ 63 := by rw [hempty]; decide
  obtain ⟨-, hlong, -, -⟩ := countPass_short (p := s.inp.seek0) hlt
  have hlen : s.encoding.length = 0#64 := by rw [State.encoding_eq hlt, hempty]; rfl
  rw [execEncode_counted hseek hlong, ← State.encoding, encodeCounted, if_pos hlen, hlen, State.encoding_eq hlt, hempty]
  rfl

/-- R125 (2), (3), R126: the tree and the content, written over the tree and the codes of `sh`. -/
theorem encodeBody_of_is {s : State} {sh : Shape} (ht : s.tree.Is sh) (hc : s.codes.Hold sh) (hs : s.inp.Short)
    (hn : s.length.toNat = s.inp.data.length) (hl : ∀ b ∈ s.inp.data, b ∈ sh.leaves) :
    ∃ o, encodeBody s = .next ({ s with
        inp := s.inp.seek0.advanced s.inp.data.length
        out := o.closeOut }.complete .ok) ∧
      s.out.Appends (sh.preorder ++ s.inp.data.flatMap sh.codeFor) o := by
  obtain ⟨w, hw, hpre⟩ := ser_holds ht.holds Config.stackDepth (Nat.lt_succ_of_le ht.internals_le) s.out
  obtain ⟨o, ho, hcontent⟩ := encodeSyms_codes ht hc s.inp.data [] hl (p := s.inp.seek0) hs
    (by rw [InPort.seek0_rest, List.append_nil]) w
  rw [← ht.root] at hw
  refine ⟨o, ?_, hpre.trans hcontent⟩
  simp only [encodeBody, hw, hn, ho]
  rfl

/-- R125, R126: after the counting pass of an input with at least one byte the output gets the archive. -/
theorem encodeCounted_of_is {s : State} {sh : Shape} (ht : (buildTree s.freq).Is sh) (hs : s.inp.Short)
    (hn : s.length = BitVec.ofNat 64 s.inp.data.length) (hne : s.inp.data ≠ [])
    (hl : ∀ b ∈ s.inp.data, b ∈ sh.leaves) :
    ∃ o c, encodeCounted s = .next ({ s with
        inp := s.inp.seek0.advanced s.inp.data.length
        out := o.closeOut
        tree := buildTree s.freq
        codes := c }.complete .ok) ∧ c.valid = true ∧ c.Hold sh ∧ s.out.Appends (archiveBits sh s.inp.data) o := by
  have hlen : s.length.toNat = s.inp.data.length := by rw [hn, BitVec.toNat_ofNat, Nat.mod_eq_of_lt hs]
  have h0 : s.length ≠ 0#64 := fun e => hne (List.eq_nil_of_length_eq_zero (by rw [← hlen, e]; rfl))
  obtain ⟨c, hc, hv, hold⟩ := ht.codesOf
  obtain ⟨o, ho, happ⟩ := encodeBody_of_is (s := { s.build with codes := c, out := s.out.writeInt64 s.length })
    ht hold hs hlen hl
  refine ⟨o, c, ?_, hv, hold, ?_⟩
  · rw [encodeCounted, if_neg h0]
    simp only [State.build_tree, hc]
    exact ho
  · rw [archiveBits, ← hn, List.append_assoc]
    exact (s.out.writeInt64_appends s.length).trans happ

/-- R107: the counts of an input of at most 2^63 - 1 bytes are exact. -/
theorem toNat_countPass_freq {p : InPort} (h : p.data.length < 2 ^ 63) (b : Byte) :
    (freqAt (countPass p).freq b).toNat = p.data.count b := by
  obtain ⟨-, -, -, hfreq⟩ := countPass_short h
  rw [hfreq, toNat_count (Nat.lt_trans h (by decide))]

theorem countPass_freq_ne_zero {p : InPort} (h : p.data.length < 2 ^ 63) {b : Byte} (hb : b ∈ p.data) :
    freqAt (countPass p).freq b ≠ 0#64 := fun e => by
  have hcount := toNat_countPass_freq h b
  rw [e] at hcount
  exact absurd hcount.symm (List.count_pos_iff.mpr hb).ne'

/-- R126: ENCODE of a seekable input of 1 to 2^63 - 1 bytes ends with BUILD's tree, its codes and this output. -/
theorem execEncode_archive {s : State} (hseek : s.inp.seekable = true) (hne : s.inp.data ≠ [])
    (hlt : s.inp.data.length < 2 ^ 63) :
    ∃ o c sh, execEncode s = .next ({ s with
        inp := { s.inp with pos := BitVec.ofNat 64 s.inp.data.length, rbuf := 0#8, rcnt := 0#3 }
        out := o
        freq := (countPass s.inp.seek0).freq
        length := BitVec.ofNat 64 s.inp.data.length
        tree := buildTree (countPass s.inp.seek0).freq
        codes := c }.complete .ok) ∧
      (buildTree (countPass s.inp.seek0).freq).Is sh ∧ c.valid = true ∧ c.Hold sh ∧ o.Finished ∧
      IsArchive o.data sh s.inp.data := by
  obtain ⟨-, hlong, -, hfreq⟩ := countPass_short (p := s.inp.seek0) hlt
  obtain ⟨b, hb⟩ := List.exists_mem_of_ne_nil _ hne
  obtain ⟨sh, ht, hleaves, -⟩ :=
    (buildTree_spec (countPass s.inp.seek0).freq).2 (symbolCount_pos (countPass_freq_ne_zero hlt hb))
  have hcovers : ∀ b ∈ s.inp.data, b ∈ sh.leaves := fun b hb =>
    (hleaves b).mpr (countPass_freq_ne_zero (p := s.inp.seek0) hlt hb)
  have henc := State.encoding_eq hlt
  have hdata : s.encoding.inp.data = s.inp.data := by rw [henc]
  obtain ⟨o, c, hexec, hv, hold, happ⟩ := encodeCounted_of_is (s := s.encoding) ht
    (by rw [InPort.Short, hdata]; exact Nat.lt_trans hlt (by decide)) (by rw [henc]) (by rwa [hdata])
    (by rwa [hdata])
  rw [hdata] at hexec happ
  change s.out.reopen.Appends _ o at happ
  have hbits := happ.streamBits_closeOut
  refine ⟨o.closeOut, c, sh, ?_, ht, hv, hold, happ.finished, ht.leavesDistinct, hcovers, hbits, ?_⟩
  · rw [execEncode_counted hseek hlong, ← State.encoding, hexec, henc, InPort.seek0_advanced]
  · have hcontent := content_le ht hlt hfreq hcovers
    have hle := length_leaves_le ht.leavesDistinct
    rw [length_of_archiveBits hbits]
    omega

/-! The header of an archive (R127). -/

/-- R93: eight bytes at the front of the input make the value they stand for. -/
theorem InPort.readInt64_header {p : InPort} {h : Dword} (hd : p.data.take 8 = bytesOf h) :
    p.seek0.readInt64 = (some h, { p with pos := 8#64, rbuf := 0#8, rcnt := 0#3 }) := by
  have hv : ofBytes (bytesOf h) = h := by rw [ofBytes_eq_ofBits, streamBits_bytesOf, ofBits_bitsOf]
  have hp : p.seek0.inBytes 8 = (some (bytesOf h), { p with pos := 8#64, rbuf := 0#8, rcnt := 0#3 }) := by
    obtain ⟨data, seekable, pos, rbuf, rcnt⟩ := p
    obtain ⟨m, rfl⟩ : ∃ m, data = bytesOf h ++ m := ⟨data.drop 8, by rw [← hd, List.take_append_drop]⟩
    rfl
  simp [readInt64, hp, hv]

/-- R93: fewer than eight bytes make none, and all of them are taken. -/
theorem InPort.readInt64_noHeader {p : InPort} (hd : p.data.length < 8) :
    p.seek0.readInt64 = (none, { p with pos := BitVec.ofNat 64 p.data.length, rbuf := 0#8, rcnt := 0#3 }) := by
  have hs : p.seek0.Short := Nat.lt_trans hd (by decide)
  have hbits : p.seek0.bits.length < 64 := by
    rw [bits_of_aligned rfl, seek0_rest, length_streamBits]
    omega
  obtain ⟨q, hq, hnil, -⟩ := readInt64_none hs p.seek0_wf hbits
  have hk := p.seek0.readInt64_keeps
  rw [hq] at hk ⊢
  obtain ⟨hrcnt, hrbuf, hdata, hseek, -, hpos⟩ := hk.drained p.seek0_wf hnil
  have hcount : q.pos = BitVec.ofNat 64 p.data.length := BitVec.eq_of_toNat_eq (by
    rw [BitVec.toNat_ofNat, Nat.mod_eq_of_lt (show p.data.length < 2 ^ 64 from hs)]
    exact hpos p.seek0_inRange)
  cases q
  simp_all

/-- R125 (1): bits that begin with those of a 64-bit value are bytes that begin with its bytes. -/
theorem header_of_streamBits {d : List Byte} {h : Dword} {x : List Bool} (e : streamBits d = bitsOf h ++ x) :
    d.take 8 = bytesOf h ∧ streamBits (d.drop 8) = x := by
  have hlen := congrArg List.length e
  rw [length_streamBits, List.length_append, length_bitsOf] at hlen
  rw [← List.take_append_drop 8 d, streamBits_append, ← streamBits_bytesOf] at e
  obtain ⟨hfront, hrest⟩ := List.append_inj e (by simp [bytesOf]; omega)
  exact ⟨streamBits_injective hfront, hrest⟩

/-- R127: the header stands for a length from 1 to 2^63 - 1. -/
structure PositiveHeader (d : List Byte) (h : Dword) : Prop where
  front : d.take 8 = bytesOf h
  sign : h.getLsbD 63 = false
  ne_zero : h ≠ 0#64

theorem positiveHeader_of_streamBits {d : List Byte} {n : Nat} {x : List Bool} (hn : 0 < n) (hlt : n < 2 ^ 63)
    (e : streamBits d = bitsOf (BitVec.ofNat 64 n) ++ x) :
    PositiveHeader d (BitVec.ofNat 64 n) ∧ (BitVec.ofNat 64 n).toNat = n ∧ streamBits (d.drop 8) = x := by
  obtain ⟨hfront, hrest⟩ := header_of_streamBits e
  have hval : (BitVec.ofNat 64 n).toNat = n := by
    rw [BitVec.toNat_ofNat, Nat.mod_eq_of_lt (Nat.lt_trans hlt (by decide))]
  refine ⟨⟨hfront, getLsbD_of_toNat_lt (n := 63) (hval.symm ▸ hlt) (Nat.le_refl 63), fun h0 => ?_⟩, hval, hrest⟩
  rw [h0] at hval
  exact hn.ne hval

/-! DECODE (R127): its ends, by what is read. -/

/-- R127: the state of DECODE with the header `h` read. -/
def State.decoding (s : State) (h : Dword) : State :=
  { s with
    inp := { s.inp with pos := 8#64, rbuf := 0#8, rcnt := 0#3 }
    out := s.out.reopen
    length := h
    tree := Tree.empty
    codes := Codes.empty }

theorem State.decoding_bits (s : State) (h : Dword) : (s.decoding h).inp.bits = streamBits (s.inp.data.drop 8) :=
  InPort.bits_of_aligned rfl

theorem State.decoding_wf (s : State) (h : Dword) : (s.decoding h).inp.Wf := fun _ => rfl

theorem execDecode_noHeader {s : State} (hd : s.inp.data.length < 8) :
    execDecode s = .next ({ s with
      inp := { s.inp with pos := BitVec.ofNat 64 s.inp.data.length, rbuf := 0#8, rcnt := 0#3 }
      out := OutPort.closedWith []
      tree := Tree.empty
      codes := Codes.empty
      status := { s.status with eof := true } }.complete .truncatedArchive) := by
  simp only [execDecode, State.invalidateTree_inp, State.openStreams_inp, InPort.readInt64_noHeader hd]
  rfl

theorem execDecode_header {s : State} {h : Dword} (hd : s.inp.data.take 8 = bytesOf h) :
    execDecode s = decodeLength h (s.decoding h) := by
  simp only [execDecode, State.invalidateTree_inp, State.openStreams_inp, InPort.readInt64_header hd]
  rfl

theorem execDecode_body {s : State} {h : Dword} (hd : PositiveHeader s.inp.data h) :
    execDecode s = decodeBody (s.decoding h) := by
  rw [execDecode_header hd.front, decodeLength, if_neg (Bool.eq_false_iff.mp hd.sign), if_neg hd.ne_zero]
  rfl

/-- R127: a tree section that fails. -/
theorem decodeBody_treeStop {s : State} {e : ErrCode} {q : InPort} (hr : readTree s.inp = .stop e q) :
    decodeBody s = raiseReading e { s.invalidateTree with inp := q }.closeOut := by
  rw [decodeBody, hr]

/-- R127: a content that fails. -/
theorem decodeBody_contentStop {s : State} {r : NodeIdx} {q p : InPort} {t : Tree} {e : ErrCode} {o : OutPort}
    (hr : readTree s.inp = .node r q t) (hc : decodeSyms (t.withRoot r) s.length.toNat q s.out = .stop e p o) :
    decodeBody s = raiseReading e { s with inp := p, out := o, tree := t.withRoot r }.closeOut := by
  simp only [decodeBody, hr, hc]

/-- R127: a content read to its end. -/
theorem decodeBody_done {s : State} {r : NodeIdx} {q p : InPort} {t : Tree} {o : OutPort}
    (hr : readTree s.inp = .node r q t) (hc : decodeSyms (t.withRoot r) s.length.toNat q s.out = .done p o) :
    decodeBody s = finish { s with inp := p, out := o, tree := t.withRoot r }.closeOut := by
  simp only [decodeBody, hr, hc]

/-- R127: a DECODE that fails after its header has met the end of its bits or a corrupt tree. -/
theorem decodeBody_fails {s t : State} (hs : s.inp.Short) (hw : s.inp.Wf) (h : decodeBody s = .next t)
    (he : t.status.errcode ≠ 0#4) :
    TreeCut s.inp.bits ∨ (∃ rest, TreeCorrupt s.inp.bits rest) ∨
      ∃ sh l, ContentCut s.inp.bits sh l ∧ l.length < s.length.toNat := by
  cases hr : readTree s.inp with
  | overflow => exact absurd hr (readTree_fits s.inp)
  | stop e q =>
    rcases readTree_stop hs hw hr with ⟨-, hcut, -⟩ | ⟨-, hcorrupt⟩
    · exact .inl hcut
    · exact .inr (.inl ⟨q.bits, hcorrupt⟩)
  | node r q u =>
    obtain ⟨sh, ht, hk, hbits⟩ := readTree_node hr
    cases hc : decodeSyms (u.withRoot r) s.length.toNat q s.out with
    | done p o =>
      rw [decodeBody_done hr hc] at h
      cases h
      exact absurd rfl he
    | overflow => simp [decodeBody, hr, hc] at h
    | stop e p o =>
      obtain ⟨l, hl, hlt, b, hb, y, hy, hcut⟩ := decodeSyms_stop ht (hk.stream.short hs) (hk.wf hw) hc
      refine .inr (.inr ⟨sh, l, ⟨ht.leavesDistinct, hl, b, hb, y, ?_, hcut⟩, hlt⟩)
      rw [hbits hs hw, hy, List.append_assoc]

/-- R117: the tree read from the pre-order of `sh` has the leaves and the codes of `sh`. -/
theorem readTree_alike {sh : Shape} {p : InPort} {rest : List Bool} (hd : sh.leaves.Nodup) (hs : p.Short) (hw : p.Wf)
    (hp : p.bits = sh.preorder ++ rest) :
    ∃ r q u sh', readTree p = .node r q u ∧ (u.withRoot r).Is sh' ∧ sh'.same sh = true ∧ sh'.leaves = sh.leaves ∧
      sh'.codeFor = sh.codeFor ∧ q.bits = rest ∧ p.SameStream q ∧ q.Short ∧ q.Wf := by
  obtain ⟨r, q, u, sh', hr, hq, ht, hsame, hk⟩ := readTree_preorder hd hs hw hp
  obtain ⟨hleaves, -⟩ := Shape.same_leaves hsame
  exact ⟨r, q, u, sh', hr, ht, hsame, hleaves, funext (Shape.codeFor_of_same hsame), hq, hk.stream, hk.stream.short hs,
    hk.wf hw⟩

/-- R130: a tree and a content of which some bits are missing end with TRUNCATED_ARCHIVE. -/
theorem decodeBody_short {s : State} {sh : Shape} {l : List Byte} (hs : s.inp.Short) (hw : s.inp.Wf)
    (hd : sh.leaves.Nodup) (hl : ∀ b ∈ l, b ∈ sh.leaves) (hn : s.length.toNat = l.length)
    (hcut : CutShort s.inp.bits (sh.preorder ++ l.flatMap sh.codeFor)) :
    ∃ v, decodeBody s = .next v ∧ v.status.errcode = 2#4 ∧ v.status.eof = true := by
  rcases hcut.append with hcut | ⟨y, hy, hcut⟩
  · obtain ⟨q, hq⟩ := readTree_short hd hs hw hcut
    exact ⟨_, decodeBody_treeStop hq, rfl, rfl⟩
  · obtain ⟨r, q, u, sh', hr, ht, -, hleaves, hcode, hq, -, hqs, hqw⟩ := readTree_alike hd hs hw hy
    rw [← hq, ← hcode] at hcut
    obtain ⟨p, o, hc⟩ := decodeSyms_short ht l (hleaves ▸ hl) hqs hqw hcut s.out
    rw [← hn] at hc
    exact ⟨_, decodeBody_contentStop hr hc, rfl, rfl⟩

/-- R130: the bits of fewer bytes than an archive has are some of its header's, its tree's and its content's bits. -/
theorem IsArchive.cutShort {x : List Byte} {sh : Shape} {l : List Byte} (h : IsArchive x sh l) {k : Nat}
    (hk : k < x.length) : CutShort (streamBits (x.take k)) (archiveBits sh l) := by
  have hlen := congrArg List.length h.bits
  rw [length_streamBits, length_padded] at hlen
  have hshort : (streamBits (x.take k)).length < (archiveBits sh l).length := by
    rw [length_streamBits, List.length_take]
    omega
  have hprefix : streamBits (x.take k) <+: streamBits x :=
    ⟨streamBits (x.drop k), by rw [← streamBits_append, List.take_append_drop]⟩
  rw [h.bits] at hprefix
  exact ⟨List.prefix_of_prefix_length_le hprefix (List.prefix_append _ _) hshort.le, hshort⟩

/-- R130: DECODE of a cut archive: the header, the tree or the content is cut short. -/
theorem IsArchive.execDecode_cut {x : List Byte} {sh : Shape} {l : List Byte} (h : IsArchive x sh l) (hne : l ≠ [])
    (hlt : l.length < 2 ^ 63) {k : Nat} (hk : k < x.length) {u : State} (hu : u.inp.data = x.take k) :
    ∃ v, execDecode u = .next v ∧ v.status.errcode = 2#4 ∧ v.status.eof = true := by
  have hcut := h.cutShort hk
  rw [← hu, archiveBits, List.append_assoc] at hcut
  rcases hcut.append with ⟨-, hbits⟩ | ⟨y, hy, hcut⟩
  · rw [length_streamBits, length_bitsOf] at hbits
    exact ⟨_, execDecode_noHeader (by omega), rfl, rfl⟩
  · obtain ⟨hhead, hval, hdrop⟩ := positiveHeader_of_streamBits (List.length_pos_iff.mpr hne) hlt hy
    have hshort : u.inp.Short := by
      rw [InPort.Short, hu]
      exact Nat.lt_of_le_of_lt (List.length_take_le' ..) h.short
    rw [execDecode_body hhead]
    refine decodeBody_short hshort (u.decoding_wf _) h.distinct h.covers hval ?_
    rw [u.decoding_bits, hdrop]
    exact hcut

end Sys2Proof.Machine

section
open Sys2Proof Sys2Proof.Machine

/-- Settles O51: the refused input, the counting pass that stops at 2^63 bytes, and the header alone. -/
theorem encodeWithoutContent : Obligations.EncodeWithoutContent := by
  refine ⟨by decide, fun s => ⟨execEncode_unseekable, fun hseek hlen => ?_, fun hseek hempty => ?_⟩⟩
  · obtain ⟨hinp, hlong, hcount, hfreq⟩ := countPass_long (p := s.inp.seek0) hlen
    refine ⟨(countPass s.inp.seek0).freq, ?_, fun b => ?_⟩
    · rw [InPort.seek0_advanced] at hinp
      rw [exec, execEncode_tooLong hseek hlong, State.counted, hinp, hcount, maxLen_eq]
      rfl
    · rw [hfreq, toNat_count (Nat.lt_of_le_of_lt (List.length_take_le ..) (by decide)), InPort.seek0_data]
  · have hlt : s.inp.data.length < 2 ^ 63 := by rw [hempty]; decide
    refine ⟨(countPass s.inp.seek0).freq, execEncode_empty hseek hempty, fun b => BitVec.eq_of_toNat_eq ?_⟩
    rw [toNat_countPass_freq (p := s.inp.seek0) hlt, InPort.seek0_data, hempty]
    rfl

/-- Settles O52: the archive of the counted input; its bits give its size, in which the content is the sum over the byte
values of count times code length. -/
theorem encodeArchive : Obligations.EncodeArchive := by
  intro s hseek hne hlt
  obtain ⟨o, c, sh, hexec, ht, hv, hold, hfin, harch⟩ := execEncode_archive hseek hne hlt
  have hfreq := toNat_countPass_freq (p := s.inp.seek0) hlt
  have hcontent := content_length sh.codeFor nodup_allBytes s.inp.data fun b _ => mem_allBytes b
  refine ⟨o, _, c, sh, hexec, hfreq, ht, hv, hold.codeOf ht.internals_le, hfin.closed, hfin.wcnt, hfin.wbuf, ?_,
    ⟨_, rfl, harch.bits⟩, ?_⟩
  · rw [hfin.cnt, BitVec.toNat_ofNat, Nat.mod_eq_of_lt harch.short]
  · simp only [hfreq, InPort.seek0_data, hold.toNat_lenAt ht.internals_le, ← hcontent]
    exact length_of_archiveBits harch.bits

/-- Settles O53: the header read from the front of the input, and after a positive one each way the reading of the tree
and of the symbols can stop. -/
theorem decodeHeader : Obligations.DecodeHeader := by
  refine ⟨by decide, fun s => ⟨execDecode_noHeader, fun h hd => ⟨fun h63 => ?_, fun h0 => ?_, fun hshort h63 h0 => ?_⟩⟩⟩
  · rw [exec, execDecode_header hd, decodeLength, if_pos h63]
    rfl
  · subst h0
    rw [exec, execDecode_header hd]
    rfl
  · have hs : (s.decoding h).inp.Short := hshort
    have hw := s.decoding_wf h
    have hbody : exec .decode s = decodeBody (s.decoding h) := execDecode_body ⟨hd, h63, h0⟩
    rw [hbody, ← s.decoding_bits h]
    refine ⟨fun hcut => ?_, fun rest hcorrupt => ?_, fun sh l hcut hl => ?_, fun t => decodeBody_fails hs hw⟩
    · obtain ⟨q, hq, hnil, -⟩ := readTree_cut hs hw hcut
      exact ⟨q, decodeBody_treeStop hq, hnil⟩
    · obtain ⟨q, hq, hrest, -⟩ := readTree_corrupt hs hw hcorrupt
      exact ⟨q, decodeBody_treeStop hq, hrest⟩
    · obtain ⟨hdis, hmem, b, hb, y, hbits, hy⟩ := hcut
      rw [List.append_assoc] at hbits
      obtain ⟨r, q, u, sh', hr, ht, hsame, hleaves, hcode, hq, -, hqs, hqw⟩ := readTree_alike hdis hs hw hbits
      rw [← hcode] at hq hy
      obtain ⟨p, hp, hnil⟩ := decodeSyms_cut ht l (hleaves ▸ hmem) (hleaves ▸ hb) hy hl hqs hqw hq s.out.reopen
      refine ⟨p, u.withRoot r, sh', ?_, ht, hsame, hnil⟩
      rw [decodeBody_contentStop hr hp, State.closeOut, OutPort.closeOut_writeBytes]
      rfl

/-- Settles O54: the tree read is alike, so its codes are those of the content. -/
theorem decodeAcceptsAnyTree : Obligations.DecodeAcceptsAnyTree := by
  intro s sh l rest hshort hdis hne hlt hmem hbits
  rw [List.append_assoc, List.append_assoc] at hbits
  obtain ⟨hhead, hval, hdrop⟩ := positiveHeader_of_streamBits (List.length_pos_iff.mpr hne) hlt hbits
  have hs : (s.decoding (BitVec.ofNat 64 l.length)).inp.Short := hshort
  have hw := s.decoding_wf (BitVec.ofNat 64 l.length)
  obtain ⟨r, q, u, sh', hr, ht, hsame, hleaves, hcode, hq, hread, hqs, hqw⟩ :=
    readTree_alike hdis hs hw ((s.decoding_bits _).trans hdrop)
  rw [← hcode] at hq
  obtain ⟨p, hp, hrest, hk⟩ := decodeSyms_codes ht l (hleaves ▸ hmem) hqs hqw hq s.out.reopen
  rw [← hval] at hp
  obtain ⟨hdata, hseek⟩ := hread.trans hk.stream
  refine ⟨p, u.withRoot r, sh', ?_, ht, hsame, hrest, hdata, hseek⟩
  rw [exec, execDecode_body hhead, decodeBody_done hr hp, State.closeOut, OutPort.closeOut_writeBytes]
  rfl

/-- Settles O55: an empty input is a zero header, any other an archive with a tree of distinct leaves. -/
theorem roundTrip : Obligations.RoundTrip := by
  intro s hseek hlt
  by_cases hne : s.inp.data = []
  · refine ⟨_, execEncode_empty hseek hne, rfl, fun u hu => ?_⟩
    have hhead : u.inp.data.take 8 = bytesOf 0#64 := by rw [hu]; rfl
    exact ⟨_, execDecode_header hhead, rfl, hne.symm⟩
  · obtain ⟨o, c, sh, hexec, -, -, -, -, harch⟩ := execEncode_archive hseek hne hlt
    refine ⟨_, hexec, rfl, fun u hu => ?_⟩
    have hdata : u.inp.data = o.data := hu
    have hshort : u.inp.Short := by rw [InPort.Short, hdata]; exact harch.short
    have hbits := harch.bits
    rw [← hdata] at hbits
    obtain ⟨q, t, sh', hdec, -⟩ :=
      decodeAcceptsAnyTree u sh s.inp.data _ hshort harch.distinct hne hlt harch.covers hbits
    exact ⟨_, hdec, rfl, rfl⟩

/-- Settles O56: without an error the output has one byte for each symbol, and OUT_CNT counts them. -/
theorem decodeLength : Obligations.DecodeLength := by
  intro s t h he
  obtain ⟨q, o, n, u, eof, e, rfl, -, -, -, -, hfin, -, hlen⟩ := execDecode_next h
  have hdata := hlen (ErrCode.code_injective he)
  refine ⟨?_, hdata⟩
  rw [State.complete_out, hfin.cnt, hdata, BitVec.ofNat_toNat, BitVec.setWidth_eq]
  rfl

/-- Settles O57: ENCODE has made the eight bytes of a zero header or an archive, and neither can be cut. -/
theorem cutArchiveFails : Obligations.CutArchiveFails := by
  intro s t u hseek hlt ht k hk hu
  by_cases hne : s.inp.data = []
  · cases (execEncode_empty hseek hne).symm.trans ht
    refine ⟨_, execDecode_noHeader ?_, rfl, rfl⟩
    rw [hu]
    exact Nat.lt_of_le_of_lt (List.length_take_le ..) hk
  · obtain ⟨o, c, sh, hexec, -, -, -, -, harch⟩ := execEncode_archive hseek hne hlt
    cases hexec.symm.trans ht
    exact harch.execDecode_cut hne hlt hk hu

end
end

section
/-! PROOF. That every command ends (spec/45_control.md R140, spec/60_exceptions.md R144): a meaning stops only where a walk
of the tree does not fit the stack, and R53 gives it trees whose walks fit. -/

namespace Sys2Proof.Machine

/-- R140: a meaning that ends in a next state. -/
def Answers (r : Result) : Prop := ∃ t, r = .next t

theorem finish_answers (s : State) : Answers (finish s) := ⟨_, rfl⟩

theorem raise_answers (e : ErrCode) (s : State) : Answers (raise e s) := ⟨_, rfl⟩

theorem raiseReading_answers (e : ErrCode) (s : State) : Answers (raiseReading e s) := by
  unfold raiseReading
  split <;> exact raise_answers ..

theorem finishRead_answers (r : Option Dword) (p : InPort) (s : State) : Answers (finishRead r p s) := by
  cases r <;> exact finish_answers _

theorem Answers.ite {c : Prop} [Decidable c] {x y : Result} (hx : c → Answers x) (hy : ¬ c → Answers y) :
    Answers (if c then x else y) := by
  split
  · next h => exact hx h
  · next h => exact hy h

/-! The commands that test a flag first. -/

/-- R97 to R99: WR_BIT, WR_BYTE and WR_I64. -/
theorem write_answers (s : State) (o : OutPort) :
    Answers (if s.out.closed then raise .badState s else finish { s with out := o }) :=
  .ite (fun _ => raise_answers ..) fun _ => finish_answers _

theorem execSeekIn_answers (s : State) : Answers (execSeekIn s) :=
  .ite (fun _ => finish_answers _) fun _ => raise_answers ..

theorem execCount_answers (s : State) : Answers (execCount s) :=
  .ite (fun _ => .ite (fun _ => raise_answers ..) fun _ => finish_answers _) fun _ => raise_answers ..

theorem execEncSym_answers (b : Byte) (s : State) : Answers (execEncSym b s) :=
  .ite (fun _ => raise_answers ..) fun _ => .ite (fun _ => raise_answers ..) fun _ =>
    .ite (fun _ => finish_answers _) fun _ => raise_answers ..

theorem execPeekCode_answers (b : Byte) (w : BitVec 2) (s : State) : Answers (execPeekCode b w s) :=
  .ite (fun _ => finish_answers _) fun _ => raise_answers ..

theorem execRdBit_answers (s : State) : Answers (execRdBit s) := by
  unfold execRdBit
  split <;> exact finishRead_answers ..

/-! The commands that walk or read a tree (R113, R114, R118). -/

theorem execSerTree_answers {s : State} (h : s.tree.Wf) : Answers (execSerTree s) := by
  cases hc : s.out.closed with
  | true => exact ⟨_, execSerTree_badState (.inl hc)⟩
  | false =>
    cases hr : s.tree.rootValid with
    | false => exact ⟨_, execSerTree_badState (.inr hr)⟩
    | true =>
      obtain ⟨sh, ht⟩ := h.exists_is hr
      obtain ⟨o, ho, -⟩ := execSerTree_of_is ht hc
      exact ⟨_, ho⟩

theorem execCodes_answers {s : State} (h : s.tree.Wf) : Answers (execCodes s) := by
  by_cases hr : s.tree.rootValid = true
  · obtain ⟨sh, ht⟩ := h.exists_is hr
    obtain ⟨c, hc, -⟩ := execCodes_of_is ht
    exact ⟨_, hc⟩
  · exact ⟨_, if_neg hr⟩

/-- R115: the reading of a tree fits the stack from whatever state. -/
theorem execDesTree_answers (s : State) : Answers (execDesTree s) := by
  cases hr : readTree s.inp with
  | node r q u => exact ⟨_, exec_desTree_node hr⟩
  | stop e q => exact ⟨_, exec_desTree_stop hr⟩
  | overflow => exact absurd hr (readTree_fits s.inp)

/-! The sequencers (R126, R127), which walk only trees they have made themselves. -/

theorem encodeBody_answers {s : State} {sh : Shape} (h : s.tree.Is sh) : Answers (encodeBody s) := by
  obtain ⟨o, ho, -⟩ := ser_holds h.holds Config.stackDepth (Nat.lt_succ_of_le h.internals_le) s.out
  rw [← h.root] at ho
  simp only [encodeBody, ho]
  split
  · exact finish_answers _
  · exact raise_answers ..
  · exact raise_answers ..

theorem encodeCounted_answers {s : State} (h : s.length ≠ 0#64 → symbolCount s.freq ≠ 0) :
    Answers (encodeCounted s) := by
  refine .ite (fun _ => finish_answers _) fun h0 => ?_
  obtain ⟨sh, ht, -⟩ := (buildTree_spec s.freq).2 (h h0)
  obtain ⟨c, hc, -⟩ := ht.codesOf
  simp only [State.build_tree, hc]
  exact encodeBody_answers ht

theorem execEncode_answers (s : State) : Answers (execEncode s) :=
  .ite (fun _ => .ite (fun _ => raise_answers ..) fun hl =>
      encodeCounted_answers (countPass_symbols (Bool.eq_false_iff.mpr hl)))
    fun _ => raise_answers ..

theorem decodeBody_answers (s : State) : Answers (decodeBody s) := by
  cases hr : readTree s.inp with
  | overflow => exact absurd hr (readTree_fits s.inp)
  | stop e q => exact decodeBody_treeStop hr ▸ raiseReading_answers ..
  | node r q u =>
    obtain ⟨sh, ht, -⟩ := readTree_node hr
    rcases decodeSyms_total ht s.length.toNat q s.out with ⟨p, l, hc, -⟩ | ⟨p, l, hc, -⟩
    · exact decodeBody_done hr hc ▸ finish_answers _
    · exact decodeBody_contentStop hr hc ▸ raiseReading_answers ..

theorem execDecode_answers (s : State) : Answers (execDecode s) := by
  unfold execDecode
  dsimp only
  split
  · exact raise_answers ..
  · exact .ite (fun _ => raise_answers ..) fun _ => .ite (fun _ => finish_answers _) fun _ => decodeBody_answers _

/-! Every command. -/

theorem exec_answers {s : State} (hs : s.Inv) (i : Instr) : Answers (exec i s) := by
  cases i with
  | nop => exact finish_answers _
  | clear => exact finish_answers _
  | openStreams => exact finish_answers _
  | wrClose => exact finish_answers _
  | build => exact finish_answers _
  | peekFreq b => exact finish_answers _
  | peekNode n => exact finish_answers _
  | peekCode b w => exact execPeekCode_answers b w s
  | seekIn => exact execSeekIn_answers s
  | wrBit b => exact write_answers s _
  | wrByte b => exact write_answers s _
  | wrI64 => exact write_answers s _
  | rdBit => exact execRdBit_answers s
  | rdByte => exact finishRead_answers ..
  | rdI64 => exact finishRead_answers ..
  | count => exact execCount_answers s
  | serTree => exact execSerTree_answers hs.tree
  | desTree => exact execDesTree_answers s
  | codes => exact execCodes_answers hs.tree
  | encSym b => exact execEncSym_answers b s
  | decSym =>
    obtain ⟨t, ht, -⟩ := decSymNeverCorrupt s hs
    exact ⟨t, ht⟩
  | encode => exact execEncode_answers s
  | decode => exact execDecode_answers s

/-- R82: an illegal word ends like a command that changes nothing. -/
theorem coreTurn_answers {s : State} (hs : s.Inv) : Answers (coreTurn s) := by
  unfold coreTurn
  split
  · exact exec_answers hs _
  · exact raise_answers ..

end Sys2Proof.Machine

section
open Sys2Proof Sys2Proof.Machine

/-- Settles O23: every meaning answers a next state, and what answers one completes (R144). -/
theorem everyCommandCompletes : Obligations.EveryCommandCompletes := by
  refine ⟨fun i s hs => exec_answers hs i, fun s hs hc => ?_⟩
  obtain ⟨t, ht⟩ := coreTurn_answers hs
  have hdone := coreTurn_completes ht
  exact ⟨t, (step_of_coreMoves hc).trans ht, hdone.busy, hdone.done⟩

end
end

section
/-! PROOF. Control and inspection (spec/45_control.md R133 to R137): the words of the PEEK commands, the fields of AUX, and
what the entries of an empty slot and of a code read. -/

namespace Sys2Proof

/-- R76: a command word as the OR of its fields, each shifted to its place. -/
theorem assemble_eq_or (opc : Byte) (arg : BitVec 9) (sel : BitVec 2) :
    assemble opc arg sel = opc.setWidth 32 ||| (arg.setWidth 32 <<< 8) ||| (sel.setWidth 32 <<< 17) := by
  refine BitVec.eq_of_getLsbD_eq fun i hi => ?_
  have hopc := opc.getLsbD_of_ge i
  have harg := arg.getLsbD_of_ge (i - 8)
  have hsel := sel.getLsbD_of_ge (i - 17)
  simp only [assemble, BitVec.getLsbD_append, BitVec.getLsbD_or, BitVec.getLsbD_setWidth, BitVec.getLsbD_shiftLeft,
    BitVec.getLsbD_zero]
  grind

/-- R79, R136. -/
theorem encode_peekNode (i : NodeIdx) : encode (.peekNode i) = 0x00000039#32 ||| (i.setWidth 32 <<< 8) := by
  simpa using show encode (.peekNode i) = _ from assemble_eq_or 0x39#8 i 0#2

/-- R79, R137: SEL holds the number of the word of code. -/
theorem encode_peekCode (b : Byte) (w : BitVec 2) :
    encode (.peekCode b w) = 0x0000003A#32 ||| (b.setWidth 32 <<< 8) ||| (w.setWidth 32 <<< 17) := by
  simpa using show encode (.peekCode b w) = _ from assemble_eq_or 0x3A#8 (b.setWidth 9) w

end Sys2Proof

namespace Sys2Proof.Machine

/-! The words in AUX (R136, R137). -/

theorem Node.auxWord_fields (n : Node) :
    n.auxWord.extractLsb' 0 9 = n.left ∧ n.auxWord.extractLsb' 9 9 = n.right ∧ n.auxWord.extractLsb' 18 9 = n.parent ∧
      n.auxWord.getLsbD 27 = n.hasParent ∧ n.auxWord.getLsbD 28 = n.internal ∧ n.auxWord.getLsbD 29 = n.valid ∧
      n.auxWord.extractLsb' 30 2 = 0#2 := by
  unfold Node.auxWord
  simp (disch := decide) only [BitVec.extractLsb'_append_eq_of_le, BitVec.extractLsb'_append_eq_of_add_le,
    BitVec.getLsbD_append]
  simp

theorem codeAux_fields (hasLeaf : Bool) (len : BitVec 8) :
    (codeAux hasLeaf len).extractLsb' 0 8 = len ∧ (codeAux hasLeaf len).getLsbD 8 = hasLeaf ∧
      (codeAux hasLeaf len).extractLsb' 9 23 = 0#23 := by
  unfold codeAux
  simp (disch := decide) only [BitVec.extractLsb'_append_eq_of_le, BitVec.extractLsb'_append_eq_of_add_le,
    BitVec.getLsbD_append]
  simp

theorem Node.auxWord_empty : Node.empty.auxWord = 0#32 := by decide

theorem codeAux_zero : codeAux false 0#8 = 0#32 := by decide

/-! Slots (R44, R45). -/

theorem Tree.nodeAt_of_lt {t : Tree} {n : NodeIdx} (h : n.toNat < 511) : t.nodeAt n = t.node[n.toNat] := dif_pos h

/-- R45, R53: between commands an invalid slot has every field 0. -/
theorem Tree.Wf.nodeAt_invalid {t : Tree} (h : t.Wf) {n : NodeIdx} (hn : (t.nodeAt n).valid = false) :
    t.nodeAt n = Node.empty := by
  cases hr : t.rootValid with
  | true =>
    obtain ⟨sh, ht⟩ := h.exists_is hr
    exact ht.invalidEmpty n hn
  | false => rw [h.eq_empty hr, nodeAt_empty]

/-! Code words (R63, R137). -/

theorem Codes.getLsbD_wordAt (c : Codes) (b : Byte) (w : BitVec 2) {i : Nat} (hi : i < 64) :
    (c.wordAt b w).getLsbD i = (c.bitsAt b).getLsbD (64 * w.toNat + i) := by
  simp [wordAt, hi]

/-- R47, R63: a word that begins at or above the length of the code is 0. -/
theorem Codes.Hold.wordAt_eq_zero {c : Codes} {sh : Shape} (h : c.Hold sh) {b : Byte} {w : BitVec 2}
    (hw : (sh.codeFor b).length ≤ 64 * w.toNat) : c.wordAt b w = 0#64 := by
  refine BitVec.eq_of_getLsbD_eq fun i hi => ?_
  rw [getLsbD_wordAt c b w hi, h.bitsAt_above b (hw.trans (Nat.le_add_right ..)), BitVec.getLsbD_zero]

/-- R118: a byte with no leaf has no code. -/
theorem Codes.Hold.lenAt_of_not_mem {c : Codes} {sh : Shape} (h : c.Hold sh) {b : Byte} (hb : b ∉ sh.leaves) :
    c.lenAt b = 0#8 := by
  rw [(h b).1, Shape.codeFor_of_not_mem hb]
  rfl

theorem execPeekCode_valid {s : State} (h : s.codes.valid = true) (b : Byte) (w : BitVec 2) :
    execPeekCode b w s = .next ({ s with
      result := s.codes.wordAt b w
      aux := codeAux (s.tree.nodeAt (leafIdx b)).valid (s.codes.lenAt b) }.complete .ok) := if_pos h

end Sys2Proof.Machine

section
open Sys2Proof Sys2Proof.Machine

/-- Settles O59: the tables that CLEAR writes are those of reset, whose every entry is 0. -/
theorem nopAndClear : Obligations.NopAndClear := by
  refine ⟨rfl, rfl, fun _ => rfl, fun s => ⟨_, _, _, rfl, fun b => ?_, Tree.nodeAt_empty, rfl, rfl, rfl, rfl, fun b => ?_,
    rfl⟩⟩
  · simp [freqAt]
  · simp [Codes.empty, Codes.lenAt, Codes.bitsAt]

/-- Settles O60: the fields of the words that the meanings write, and what R53 says of an invalid slot and above the
length of a code. -/
theorem peekCommands : Obligations.PeekCommands := by
  refine ⟨assemble_byte 0x38#8, encode_peekNode, encode_peekCode, fun s b => rfl, fun s i hi => ?_,
    fun s i hs _ hv => ?_, fun s b w hs hv => ?_, fun s b w => ⟨fun hv => if_neg (by simp [hv]), fun hv => ?_⟩⟩
  · rw [← Tree.nodeAt_of_lt hi]
    exact ⟨_, rfl, Node.auxWord_fields _⟩
  · rw [exec, execPeekNode, hs.tree.nodeAt_invalid hv, Node.auxWord_empty]
    rfl
  · obtain ⟨sh, ht, hold⟩ := (if_pos hv).mp hs.codes
    have hlen := hold.toNat_lenAt ht.internals_le b
    have hexec := execPeekCode_valid hv b w
    refine ⟨fun hl => ?_, fun hw => ?_, hold.bitsAt_above b ((sh.length_codeFor b).trans ht.internals_le)⟩
    · have hb : b ∉ sh.leaves := fun hb => by simp [(ht.leaf_valid b).mpr hb] at hl
      rw [hl, hold.wordAt_eq_zero (by simp [Shape.codeFor_of_not_mem hb]), hold.lenAt_of_not_mem hb,
        codeAux_zero] at hexec
      exact hexec
    · rw [hold.wordAt_eq_zero (hlen ▸ hw)] at hexec
      exact ⟨_, hexec⟩
  · exact ⟨_, _, execPeekCode_valid hv b w, fun i hi => s.codes.getLsbD_wordAt b w hi, codeAux_fields _ _⟩

end
end

section
/-! PROOF. Reset (spec/70_reset_and_hazards.md R158, R159): what an abandoned command leaves in OUT_DATA, the entries of
the reset tables, and the registers of the reset state as the host reads them. -/

namespace Sys2Proof.Machine

/-! A command in flight (log 11). -/

theorem truncates_eq_false_iff {w : Word} {i : Instr} (hd : decode w = .ok i) :
    truncates w = false ↔ i ∉ [.openStreams, .encode, .decode] := by
  cases i <;> simp [truncates, hd]

/-- R54: a command that does not open the output appends to it, if it writes there at all. -/
theorem coreTurn_appends {s t : State} (ht : coreTurn s = .next t) (hn : truncates s.latch = false) :
    s.out.data <+: t.out.data := by
  rcases coreTurn_next ht with ⟨i, hd, hi⟩ | rfl
  · obtain ⟨-, -, -, -, -, -, -, -, -, -, happend⟩ := writersOfState i s t hi
    exact happend ((truncates_eq_false_iff hd).mp hn)
  · exact List.prefix_rfl

/-- R158: an abandoned command leaves OUT_DATA as it was or a first part of what it would have made of it. -/
theorem abandonedOut_cases (k : Nat) (s : State) :
    abandonedOut k s = s.out.data ∨ ∃ t, coreTurn s = .next t ∧ abandonedOut k s <+: t.out.data := by
  unfold abandonedOut
  split
  · next t ht =>
    split_ifs
    · exact .inl rfl
    · exact .inr ⟨t, ht, List.take_prefix ..⟩
    · exact .inr ⟨t, ht, List.take_prefix ..⟩
  · exact .inl rfl
  · exact .inl rfl

/-- R158: the bytes that stood there stay, unless the command truncates. -/
theorem out_isPrefix_abandonedOut (k : Nat) {s : State} (hn : truncates s.latch = false) :
    s.out.data <+: abandonedOut k s := by
  unfold abandonedOut
  split
  · next t ht =>
    rw [hn, if_neg Bool.false_ne_true]
    exact List.prefix_take_iff.mpr ⟨coreTurn_appends ht hn, Nat.le_add_right ..⟩
  · exact List.prefix_rfl
  · exact List.prefix_rfl

/-! Reset. -/

theorem step_reset {s : State} {rest : List HostAction} (hh : s.host = .reset :: rest) :
    step s = .next { s with host := rest }.resetBy := (step_hostAct hh (by simp)).2

theorem State.resetBy_out_data (s : State) : s.resetBy.out.data =
    if s.status.busy then abandonedOut (Config.freeProgress s.draws) s else s.out.data := rfl

/-- R158: OUT_DATA after reset, whether a command runs or not. -/
theorem State.resetBy_out_data_cases (s : State) :
    s.resetBy.out.data = s.out.data ∨ ∃ t, coreTurn s = .next t ∧ s.resetBy.out.data <+: t.out.data := by
  rw [resetBy_out_data]
  split
  · exact abandonedOut_cases _ s
  · exact .inl rfl

theorem State.out_isPrefix_resetBy {s : State} (hn : truncates s.latch = false) :
    s.out.data <+: s.resetBy.out.data := by
  rw [resetBy_out_data]
  split
  · exact out_isPrefix_abandonedOut _ hn
  · exact List.prefix_rfl

theorem Codes.lenAt_empty (b : Byte) : Codes.empty.lenAt b = 0#8 := Vector.getElem_replicate ..

theorem Codes.bitsAt_empty (b : Byte) : Codes.empty.bitsAt b = 0#256 := Vector.getElem_replicate ..

/-- R26, R158: every register but ID shows state that the reset table makes 0. -/
theorem readReg_reset {off : Nat} (h : off ≠ 0) : readReg off State.reset = 0#32 := by
  unfold readReg
  split
  case h_1 => exact absurd rfl h
  all_goals rfl

end Sys2Proof.Machine

section
open Sys2Proof Sys2Proof.Machine

/-- Settles O14: reset writes the table's values whatever the state, and a command it abandons has appended to OUT_DATA
or truncated it first. -/
theorem resetEvent : Obligations.ResetEvent := by
  intro s rest hh
  refine ⟨_, step_reset hh, rfl, rfl, rfl, rfl, rfl, rfl, freqAt_replicate _, Tree.nodeAt_empty, rfl, rfl, rfl, rfl,
    fun b => ⟨Codes.lenAt_empty b, Codes.bitsAt_empty b⟩, rfl, rfl, rfl, rfl, rfl, rfl, rfl,
    readsAs_of_readReg rfl (by decide) rfl rfl, fun hb => ?_, State.resetBy_out_data_cases _,
    State.out_isPrefix_resetBy (s := { s with host := rest })⟩
  exact (State.resetBy_out_data _).trans (if_neg (by simp [hb]))

/-- Settles O16: OPEN rewinds and reopens the streams, CLEAR zeroes the rest, and with BUSY = 0 reset takes no draw and
abandons no command. -/
theorem resetIsOpenThenClear : Obligations.ResetIsOpenThenClear := by
  intro s rest hb hh
  refine ⟨_, _, rfl, rfl, (step_reset hh).trans ?_⟩
  simp only [State.resetBy, hb]
  rfl

/-- Settles O15: with BUSY = 0 a read gives the register as it stands. -/
theorem resetReads : Obligations.ResetReads :=
  ⟨readsAs_of_readReg rfl (by decide) rfl rfl, fun _ hk h0 =>
    readsAs_of_readReg rfl (by omega) (by omega) (readReg_reset (by omega))⟩

end
end
